-- ==== Sys2Proof/Word.lean ====
section
/-! DEFINITION. The two word types of the core (spec/00_scope.md R6): the 8-bit data byte and the 16-bit address. -/

namespace Sys2Proof

/-- A register value or one bus transfer: 8 bits (R6 "data width"). -/
abbrev Byte := BitVec 8

/-- A program-counter value or a bus address: 16 bits (R6 "address width"). -/
abbrev Word := BitVec 16

end Sys2Proof
end

