-- ==== Sys2Proof/Syntax/Modes.lean ====
section
/-! DEFINITION. The operand forms of an instruction: the addressing modes of spec/40_addressing.md R66, each with its
operand bytes, grouped by the access class of R68 that may use them. -/

namespace Sys2Proof

/-- The memory addressing modes of R66, with the operand bytes `b1` or `b2:b1`. -/
inductive MemMode where
  /-- zero page, `$nn` -/
  | zp (addr : Byte)
  /-- zero page,X -/
  | zpx (addr : Byte)
  /-- zero page,Y (only LDX and STX) -/
  | zpy (addr : Byte)
  /-- absolute, `$nnnn` -/
  | abs (addr : Word)
  /-- absolute,X -/
  | absx (addr : Word)
  /-- absolute,Y -/
  | absy (addr : Word)
  /-- (zp,X) indexed indirect -/
  | izx (ptr : Byte)
  /-- (zp),Y indirect indexed -/
  | izy (ptr : Byte)
  deriving DecidableEq, Repr

/-- The operand of a read-class instruction (R68): an immediate byte or a memory operand. -/
inductive ReadMode where
  | imm (value : Byte)
  | mem (mode : MemMode)
  deriving DecidableEq, Repr

/-- The operand of a shift or rotate (spec/43_shift_rotate.md): the accumulator, or memory read, modified and
written back. -/
inductive RmwMode where
  | acc
  | mem (mode : MemMode)
  deriving DecidableEq, Repr

/-- The operand of JMP: an absolute target (R122) or a pointer to it (R123). -/
inductive JumpMode where
  | abs (target : Word)
  | ind (ptr : Word)
  deriving DecidableEq, Repr

end Sys2Proof
end

