-- ==== Sys2Proof/Syntax.lean ====
section
/-! DEFINITION. The instructions: one constructor per mnemonic of spec/opcode_table.json. The table has one row per
opcode byte; the rows of one mnemonic differ in their addressing mode only (spec/30_encoding.md R53: "The opcode byte
alone decides the format, the addressing mode and the operation"), so a row is a constructor together with one form of
its operand. Which forms the table gives a mnemonic is `Instr.wf`. -/

namespace Sys2Proof

inductive Instr where
  -- loads, stores, transfers (spec/41_load_store_transfer.md)
  | lda (m : ReadMode)
  | ldx (m : ReadMode)
  | ldy (m : ReadMode)
  | sta (m : MemMode)
  | stx (m : MemMode)
  | sty (m : MemMode)
  | tax
  | tay
  | txa
  | tya
  | tsx
  | txs
  -- arithmetic, logic, compare, increment, decrement (spec/42_arith_logic.md)
  | adc (m : ReadMode)
  | sbc (m : ReadMode)
  | and (m : ReadMode)
  | ora (m : ReadMode)
  | eor (m : ReadMode)
  | cmp (m : ReadMode)
  | cpx (m : ReadMode)
  | cpy (m : ReadMode)
  | bit (m : ReadMode)
  | inc (m : MemMode)
  | dec (m : MemMode)
  | inx
  | iny
  | dex
  | dey
  -- shifts and rotates (spec/43_shift_rotate.md)
  | asl (m : RmwMode)
  | lsr (m : RmwMode)
  | rol (m : RmwMode)
  | ror (m : RmwMode)
  -- branches, jumps, subroutines, BRK (spec/44_control_transfer.md)
  | bpl (off : Byte)
  | bmi (off : Byte)
  | bvc (off : Byte)
  | bvs (off : Byte)
  | bcc (off : Byte)
  | bcs (off : Byte)
  | bne (off : Byte)
  | beq (off : Byte)
  | jmp (m : JumpMode)
  /-- `target` is the operand as the instruction stream shows it. Executing JSR fetches the target's high byte from
  memory after its two pushes (R124), so the meaning reads only the low byte of this field. -/
  | jsr (target : Word)
  | rts
  | rti
  | brk
  -- stack, flags, NOP (spec/45_stack_flags_misc.md)
  | pha
  | php
  | pla
  | plp
  | clc
  | sec
  | cli
  | sei
  | cld
  | sed
  | clv
  | nop
  /-- The illegal instruction (R141): what each of the 105 undocumented opcode values decodes to. -/
  | illegal (opcode : Byte)
  deriving DecidableEq, Repr

end Sys2Proof
end

