-- ==== Sys2Proof/WellFormed.lean ====
section
/-! DEFINITION. Which operand forms spec/opcode_table.json gives each mnemonic, and the 105 undocumented opcode
values (spec/30_encoding.md R61, R62). -/

namespace Sys2Proof

/-- The 105 undocumented opcode values, as R62 lists them. -/
def undocumentedOpcodes : List Byte :=
  [0x02, 0x03, 0x04, 0x07, 0x0B, 0x0C, 0x0F] ++ [0x12, 0x13, 0x14, 0x17, 0x1A, 0x1B, 0x1C, 0x1F] ++
  [0x22, 0x23, 0x27, 0x2B, 0x2F] ++ [0x32, 0x33, 0x34, 0x37, 0x3A, 0x3B, 0x3C, 0x3F] ++
  [0x42, 0x43, 0x44, 0x47, 0x4B, 0x4F] ++ [0x52, 0x53, 0x54, 0x57, 0x5A, 0x5B, 0x5C, 0x5F] ++
  [0x62, 0x63, 0x64, 0x67, 0x6B, 0x6F] ++ [0x72, 0x73, 0x74, 0x77, 0x7A, 0x7B, 0x7C, 0x7F] ++
  [0x80, 0x82, 0x83, 0x87, 0x89, 0x8B, 0x8F] ++ [0x92, 0x93, 0x97, 0x9B, 0x9C, 0x9E, 0x9F] ++
  [0xA3, 0xA7, 0xAB, 0xAF] ++ [0xB2, 0xB3, 0xB7, 0xBB, 0xBF] ++ [0xC2, 0xC3, 0xC7, 0xCB, 0xCF] ++
  [0xD2, 0xD3, 0xD4, 0xD7, 0xDA, 0xDB, 0xDC, 0xDF] ++ [0xE2, 0xE3, 0xE7, 0xEB, 0xEF] ++
  [0xF2, 0xF3, 0xF4, 0xF7, 0xFA, 0xFB, 0xFC, 0xFF]

/-- The eight forms of LDA, ADC, SBC, AND, ORA, EOR and CMP: every one but zero page,Y. -/
def ReadMode.accumulatorForm : ReadMode → Bool
  | .mem (.zpy _) => false
  | _ => true

/-- LDX: immediate, zero page, zero page,Y, absolute, absolute,Y (R80). -/
def ReadMode.ldxForm : ReadMode → Bool
  | .imm _ | .mem (.zp _) | .mem (.zpy _) | .mem (.abs _) | .mem (.absy _) => true
  | _ => false

/-- LDY: immediate, zero page, zero page,X, absolute, absolute,X (R81). -/
def ReadMode.ldyForm : ReadMode → Bool
  | .imm _ | .mem (.zp _) | .mem (.zpx _) | .mem (.abs _) | .mem (.absx _) => true
  | _ => false

/-- CPX and CPY: immediate, zero page, absolute (R99, R100). -/
def ReadMode.indexCompareForm : ReadMode → Bool
  | .imm _ | .mem (.zp _) | .mem (.abs _) => true
  | _ => false

/-- BIT: zero page, absolute (R101). -/
def ReadMode.bitForm : ReadMode → Bool
  | .mem (.zp _) | .mem (.abs _) => true
  | _ => false

/-- STA: every memory form but zero page,Y (R82). -/
def MemMode.staForm : MemMode → Bool
  | .zpy _ => false
  | _ => true

/-- STX: zero page, zero page,Y, absolute (R83). -/
def MemMode.stxForm : MemMode → Bool
  | .zp _ | .zpy _ | .abs _ => true
  | _ => false

/-- STY: zero page, zero page,X, absolute (R84). -/
def MemMode.styForm : MemMode → Bool
  | .zp _ | .zpx _ | .abs _ => true
  | _ => false

/-- The memory forms of the read-modify-write instructions: zero page, zero page,X, absolute, absolute,X
(R102, R103, R109 to R112). -/
def MemMode.rmwForm : MemMode → Bool
  | .zp _ | .zpx _ | .abs _ | .absx _ => true
  | _ => false

/-- ASL, LSR, ROL, ROR: the accumulator or a read-modify-write memory form. -/
def RmwMode.form : RmwMode → Bool
  | .acc => true
  | .mem m => m.rmwForm

/-- The instruction is one the opcode table has a row for. -/
def Instr.wf : Instr → Bool
  | .lda m | .adc m | .sbc m | .and m | .ora m | .eor m | .cmp m => m.accumulatorForm
  | .ldx m => m.ldxForm
  | .ldy m => m.ldyForm
  | .cpx m | .cpy m => m.indexCompareForm
  | .bit m => m.bitForm
  | .sta m => m.staForm
  | .stx m => m.stxForm
  | .sty m => m.styForm
  | .inc m | .dec m => m.rmwForm
  | .asl m | .lsr m | .rol m | .ror m => m.form
  | .illegal op => undocumentedOpcodes.contains op
  | .tax | .tay | .txa | .tya | .tsx | .txs | .inx | .iny | .dex | .dey
  | .bpl _ | .bmi _ | .bvc _ | .bvs _ | .bcc _ | .bcs _ | .bne _ | .beq _
  | .jmp _ | .jsr _ | .rts | .rti | .brk
  | .pha | .php | .pla | .plp | .clc | .sec | .cli | .sei | .cld | .sed | .clv | .nop => true

end Sys2Proof
end

