-- ==== Sys2Proof/Decode.lean ====
section
/-! DEFINITION. Bytes to instructions and back (spec/30_encoding.md): the opcode map of R61 row by row, the decoder that
indexes it, and an encoder written from the opcode lists of the instruction rules R79 to R141. The byte-order and
extension helpers of R7 and R35 stand here too, since both directions and the machine use them. -/

namespace Sys2Proof

/-- `hi:lo` of R7: two bytes as one 16-bit value, `hi` in bits 15..8. -/
def mkWord (hi lo : Byte) : Word := hi ++ lo

/-- Bits 15..8 of an address. -/
def hiByte (w : Word) : Byte := w.extractLsb' 8 8

/-- Bits 7..0 of an address. -/
def loByte (w : Word) : Byte := w.extractLsb' 0 8

/-- `zext_16` of R7. -/
def zext16 (v : Byte) : Word := v.setWidth 16

/-- `sext_8` of R7, as the 16-bit two's-complement value added to an address (R59). -/
def sext16 (v : Byte) : Word := v.signExtend 16

/-- How the bytes after an opcode are read: the instruction and the bytes left, or nothing when there are too few. -/
abbrev OpcodeEntry := List Byte → Option (Instr × List Byte)

/-- Format F1 of R53: the opcode alone. -/
def noArg (i : Instr) : OpcodeEntry := fun rest => some (i, rest)

/-- Format F2 of R53: one operand byte. -/
def byteArg (k : Byte → Instr) : OpcodeEntry
  | b :: rest => some (k b, rest)
  | [] => none

/-- Format F3 of R53: a 16-bit operand, low byte first (R35). -/
def wordArg (k : Word → Instr) : OpcodeEntry
  | lo :: hi :: rest => some (k (mkWord hi lo), rest)
  | _ => none

/-- One of the 105 values of R62: the illegal instruction, of length 1 (R54). -/
def illegalEntry (opcode : Byte) : OpcodeEntry := noArg (.illegal opcode)

/-- A read-class memory operand. -/
def rdMem (k : ReadMode → Instr) (m : MemMode) : Instr := k (.mem m)

/-- A read-modify-write memory operand. -/
def rmwMem (k : RmwMode → Instr) (m : MemMode) : Instr := k (.mem m)

-- the operand bytes of each addressing mode (R58, R60, R66)
def immArg (k : ReadMode → Instr) : OpcodeEntry := byteArg fun v => k (.imm v)
def zpArg (k : MemMode → Instr) : OpcodeEntry := byteArg fun a => k (.zp a)
def zpxArg (k : MemMode → Instr) : OpcodeEntry := byteArg fun a => k (.zpx a)
def zpyArg (k : MemMode → Instr) : OpcodeEntry := byteArg fun a => k (.zpy a)
def izxArg (k : MemMode → Instr) : OpcodeEntry := byteArg fun a => k (.izx a)
def izyArg (k : MemMode → Instr) : OpcodeEntry := byteArg fun a => k (.izy a)
def absArg (k : MemMode → Instr) : OpcodeEntry := wordArg fun a => k (.abs a)
def absxArg (k : MemMode → Instr) : OpcodeEntry := wordArg fun a => k (.absx a)
def absyArg (k : MemMode → Instr) : OpcodeEntry := wordArg fun a => k (.absy a)

/-- Row 0x of the opcode map (R61). -/
def opcodeRow0 : List OpcodeEntry :=
  [ noArg .brk, izxArg (rdMem .ora), illegalEntry 0x02, illegalEntry 0x03,
    illegalEntry 0x04, zpArg (rdMem .ora), zpArg (rmwMem .asl), illegalEntry 0x07,
    noArg .php, immArg .ora, noArg (.asl .acc), illegalEntry 0x0B,
    illegalEntry 0x0C, absArg (rdMem .ora), absArg (rmwMem .asl), illegalEntry 0x0F ]

/-- Row 1x of the opcode map (R61). -/
def opcodeRow1 : List OpcodeEntry :=
  [ byteArg .bpl, izyArg (rdMem .ora), illegalEntry 0x12, illegalEntry 0x13,
    illegalEntry 0x14, zpxArg (rdMem .ora), zpxArg (rmwMem .asl), illegalEntry 0x17,
    noArg .clc, absyArg (rdMem .ora), illegalEntry 0x1A, illegalEntry 0x1B,
    illegalEntry 0x1C, absxArg (rdMem .ora), absxArg (rmwMem .asl), illegalEntry 0x1F ]

/-- Row 2x of the opcode map (R61). -/
def opcodeRow2 : List OpcodeEntry :=
  [ wordArg .jsr, izxArg (rdMem .and), illegalEntry 0x22, illegalEntry 0x23,
    zpArg (rdMem .bit), zpArg (rdMem .and), zpArg (rmwMem .rol), illegalEntry 0x27,
    noArg .plp, immArg .and, noArg (.rol .acc), illegalEntry 0x2B,
    absArg (rdMem .bit), absArg (rdMem .and), absArg (rmwMem .rol), illegalEntry 0x2F ]

/-- Row 3x of the opcode map (R61). -/
def opcodeRow3 : List OpcodeEntry :=
  [ byteArg .bmi, izyArg (rdMem .and), illegalEntry 0x32, illegalEntry 0x33,
    illegalEntry 0x34, zpxArg (rdMem .and), zpxArg (rmwMem .rol), illegalEntry 0x37,
    noArg .sec, absyArg (rdMem .and), illegalEntry 0x3A, illegalEntry 0x3B,
    illegalEntry 0x3C, absxArg (rdMem .and), absxArg (rmwMem .rol), illegalEntry 0x3F ]

/-- Row 4x of the opcode map (R61). -/
def opcodeRow4 : List OpcodeEntry :=
  [ noArg .rti, izxArg (rdMem .eor), illegalEntry 0x42, illegalEntry 0x43,
    illegalEntry 0x44, zpArg (rdMem .eor), zpArg (rmwMem .lsr), illegalEntry 0x47,
    noArg .pha, immArg .eor, noArg (.lsr .acc), illegalEntry 0x4B,
    wordArg fun w => .jmp (.abs w), absArg (rdMem .eor), absArg (rmwMem .lsr), illegalEntry 0x4F ]

/-- Row 5x of the opcode map (R61). -/
def opcodeRow5 : List OpcodeEntry :=
  [ byteArg .bvc, izyArg (rdMem .eor), illegalEntry 0x52, illegalEntry 0x53,
    illegalEntry 0x54, zpxArg (rdMem .eor), zpxArg (rmwMem .lsr), illegalEntry 0x57,
    noArg .cli, absyArg (rdMem .eor), illegalEntry 0x5A, illegalEntry 0x5B,
    illegalEntry 0x5C, absxArg (rdMem .eor), absxArg (rmwMem .lsr), illegalEntry 0x5F ]

/-- Row 6x of the opcode map (R61). -/
def opcodeRow6 : List OpcodeEntry :=
  [ noArg .rts, izxArg (rdMem .adc), illegalEntry 0x62, illegalEntry 0x63,
    illegalEntry 0x64, zpArg (rdMem .adc), zpArg (rmwMem .ror), illegalEntry 0x67,
    noArg .pla, immArg .adc, noArg (.ror .acc), illegalEntry 0x6B,
    wordArg fun w => .jmp (.ind w), absArg (rdMem .adc), absArg (rmwMem .ror), illegalEntry 0x6F ]

/-- Row 7x of the opcode map (R61). -/
def opcodeRow7 : List OpcodeEntry :=
  [ byteArg .bvs, izyArg (rdMem .adc), illegalEntry 0x72, illegalEntry 0x73,
    illegalEntry 0x74, zpxArg (rdMem .adc), zpxArg (rmwMem .ror), illegalEntry 0x77,
    noArg .sei, absyArg (rdMem .adc), illegalEntry 0x7A, illegalEntry 0x7B,
    illegalEntry 0x7C, absxArg (rdMem .adc), absxArg (rmwMem .ror), illegalEntry 0x7F ]

/-- Row 8x of the opcode map (R61). -/
def opcodeRow8 : List OpcodeEntry :=
  [ illegalEntry 0x80, izxArg .sta, illegalEntry 0x82, illegalEntry 0x83,
    zpArg .sty, zpArg .sta, zpArg .stx, illegalEntry 0x87,
    noArg .dey, illegalEntry 0x89, noArg .txa, illegalEntry 0x8B,
    absArg .sty, absArg .sta, absArg .stx, illegalEntry 0x8F ]

/-- Row 9x of the opcode map (R61). -/
def opcodeRow9 : List OpcodeEntry :=
  [ byteArg .bcc, izyArg .sta, illegalEntry 0x92, illegalEntry 0x93,
    zpxArg .sty, zpxArg .sta, zpyArg .stx, illegalEntry 0x97,
    noArg .tya, absyArg .sta, noArg .txs, illegalEntry 0x9B,
    illegalEntry 0x9C, absxArg .sta, illegalEntry 0x9E, illegalEntry 0x9F ]

/-- Row Ax of the opcode map (R61). -/
def opcodeRowA : List OpcodeEntry :=
  [ immArg .ldy, izxArg (rdMem .lda), immArg .ldx, illegalEntry 0xA3,
    zpArg (rdMem .ldy), zpArg (rdMem .lda), zpArg (rdMem .ldx), illegalEntry 0xA7,
    noArg .tay, immArg .lda, noArg .tax, illegalEntry 0xAB,
    absArg (rdMem .ldy), absArg (rdMem .lda), absArg (rdMem .ldx), illegalEntry 0xAF ]

/-- Row Bx of the opcode map (R61). -/
def opcodeRowB : List OpcodeEntry :=
  [ byteArg .bcs, izyArg (rdMem .lda), illegalEntry 0xB2, illegalEntry 0xB3,
    zpxArg (rdMem .ldy), zpxArg (rdMem .lda), zpyArg (rdMem .ldx), illegalEntry 0xB7,
    noArg .clv, absyArg (rdMem .lda), noArg .tsx, illegalEntry 0xBB,
    absxArg (rdMem .ldy), absxArg (rdMem .lda), absyArg (rdMem .ldx), illegalEntry 0xBF ]

/-- Row Cx of the opcode map (R61). -/
def opcodeRowC : List OpcodeEntry :=
  [ immArg .cpy, izxArg (rdMem .cmp), illegalEntry 0xC2, illegalEntry 0xC3,
    zpArg (rdMem .cpy), zpArg (rdMem .cmp), zpArg .dec, illegalEntry 0xC7,
    noArg .iny, immArg .cmp, noArg .dex, illegalEntry 0xCB,
    absArg (rdMem .cpy), absArg (rdMem .cmp), absArg .dec, illegalEntry 0xCF ]

/-- Row Dx of the opcode map (R61). -/
def opcodeRowD : List OpcodeEntry :=
  [ byteArg .bne, izyArg (rdMem .cmp), illegalEntry 0xD2, illegalEntry 0xD3,
    illegalEntry 0xD4, zpxArg (rdMem .cmp), zpxArg .dec, illegalEntry 0xD7,
    noArg .cld, absyArg (rdMem .cmp), illegalEntry 0xDA, illegalEntry 0xDB,
    illegalEntry 0xDC, absxArg (rdMem .cmp), absxArg .dec, illegalEntry 0xDF ]

/-- Row Ex of the opcode map (R61). -/
def opcodeRowE : List OpcodeEntry :=
  [ immArg .cpx, izxArg (rdMem .sbc), illegalEntry 0xE2, illegalEntry 0xE3,
    zpArg (rdMem .cpx), zpArg (rdMem .sbc), zpArg .inc, illegalEntry 0xE7,
    noArg .inx, immArg .sbc, noArg .nop, illegalEntry 0xEB,
    absArg (rdMem .cpx), absArg (rdMem .sbc), absArg .inc, illegalEntry 0xEF ]

/-- Row Fx of the opcode map (R61). -/
def opcodeRowF : List OpcodeEntry :=
  [ byteArg .beq, izyArg (rdMem .sbc), illegalEntry 0xF2, illegalEntry 0xF3,
    illegalEntry 0xF4, zpxArg (rdMem .sbc), zpxArg .inc, illegalEntry 0xF7,
    noArg .sed, absyArg (rdMem .sbc), illegalEntry 0xFA, illegalEntry 0xFB,
    illegalEntry 0xFC, absxArg (rdMem .sbc), absxArg .inc, illegalEntry 0xFF ]

/-- The opcode map of R61: one list of sixteen entries for each high nibble. -/
def opcodeMap : List (List OpcodeEntry) :=
  [opcodeRow0, opcodeRow1, opcodeRow2, opcodeRow3, opcodeRow4, opcodeRow5, opcodeRow6, opcodeRow7] ++
  [opcodeRow8, opcodeRow9, opcodeRowA, opcodeRowB, opcodeRowC, opcodeRowD, opcodeRowE, opcodeRowF]

/-- The entry of the map for one opcode byte: row bits 7..4, column bits 3..0. Every byte has one. -/
def opcodeEntry (op : Byte) : OpcodeEntry :=
  ((opcodeMap.getD (op.toNat / 16) []).getD (op.toNat % 16) (illegalEntry op))

/-- Decode the instruction at the head of a byte list, and give the bytes after it (R53: the opcode byte alone decides).
Total: every opcode byte has an entry of the map, an undocumented one the entry that rejects it by name as the illegal
instruction; `none` means only that the list ends before the instruction does. -/
def decode : List Byte → Option (Instr × List Byte)
  | [] => none
  | op :: rest => opcodeEntry op rest

/-- The number of operand bytes that follow an opcode (R54), read off the map: as many as its entry asks for. -/
def operandCount (op : Byte) : Nat :=
  if (opcodeEntry op []).isSome then 0 else if (opcodeEntry op [0]).isSome then 1 else 2

/-- An opcode with one operand byte; nothing where the table has no such row. -/
def encodeByteArg (op : Option Byte) (a : Byte) : List Byte :=
  match op with
  | some o => [o, a]
  | none => []

/-- An opcode with a 16-bit operand, low byte first; nothing where the table has no such row. -/
def encodeWordArg (op : Option Byte) (w : Word) : List Byte :=
  match op with
  | some o => [o, loByte w, hiByte w]
  | none => []

/-- The bytes of a memory-operand instruction, given the opcode its rule lists for each addressing mode. -/
def MemMode.encode (m : MemMode) (zp zpx zpy abs absx absy izx izy : Option Byte := none) : List Byte :=
  match m with
  | .zp a => encodeByteArg zp a
  | .zpx a => encodeByteArg zpx a
  | .zpy a => encodeByteArg zpy a
  | .abs w => encodeWordArg abs w
  | .absx w => encodeWordArg absx w
  | .absy w => encodeWordArg absy w
  | .izx p => encodeByteArg izx p
  | .izy p => encodeByteArg izy p

/-- The bytes of a well-formed instruction in the order memory holds them (R35, R53), with the opcodes that the rules
R79 to R141 list. An operand form the opcode table does not have has no bytes. -/
def encode : Instr → List Byte
  | .lda (.imm v) => [0xA9, v]
  | .lda (.mem m) =>
    m.encode (zp := some 0xA5) (zpx := some 0xB5) (abs := some 0xAD) (absx := some 0xBD) (absy := some 0xB9)
      (izx := some 0xA1) (izy := some 0xB1)
  | .ldx (.imm v) => [0xA2, v]
  | .ldx (.mem m) => m.encode (zp := some 0xA6) (zpy := some 0xB6) (abs := some 0xAE) (absy := some 0xBE)
  | .ldy (.imm v) => [0xA0, v]
  | .ldy (.mem m) => m.encode (zp := some 0xA4) (zpx := some 0xB4) (abs := some 0xAC) (absx := some 0xBC)
  | .adc (.imm v) => [0x69, v]
  | .adc (.mem m) =>
    m.encode (zp := some 0x65) (zpx := some 0x75) (abs := some 0x6D) (absx := some 0x7D) (absy := some 0x79)
      (izx := some 0x61) (izy := some 0x71)
  | .sbc (.imm v) => [0xE9, v]
  | .sbc (.mem m) =>
    m.encode (zp := some 0xE5) (zpx := some 0xF5) (abs := some 0xED) (absx := some 0xFD) (absy := some 0xF9)
      (izx := some 0xE1) (izy := some 0xF1)
  | .and (.imm v) => [0x29, v]
  | .and (.mem m) =>
    m.encode (zp := some 0x25) (zpx := some 0x35) (abs := some 0x2D) (absx := some 0x3D) (absy := some 0x39)
      (izx := some 0x21) (izy := some 0x31)
  | .ora (.imm v) => [0x09, v]
  | .ora (.mem m) =>
    m.encode (zp := some 0x05) (zpx := some 0x15) (abs := some 0x0D) (absx := some 0x1D) (absy := some 0x19)
      (izx := some 0x01) (izy := some 0x11)
  | .eor (.imm v) => [0x49, v]
  | .eor (.mem m) =>
    m.encode (zp := some 0x45) (zpx := some 0x55) (abs := some 0x4D) (absx := some 0x5D) (absy := some 0x59)
      (izx := some 0x41) (izy := some 0x51)
  | .cmp (.imm v) => [0xC9, v]
  | .cmp (.mem m) =>
    m.encode (zp := some 0xC5) (zpx := some 0xD5) (abs := some 0xCD) (absx := some 0xDD) (absy := some 0xD9)
      (izx := some 0xC1) (izy := some 0xD1)
  | .cpx (.imm v) => [0xE0, v]
  | .cpx (.mem m) => m.encode (zp := some 0xE4) (abs := some 0xEC)
  | .cpy (.imm v) => [0xC0, v]
  | .cpy (.mem m) => m.encode (zp := some 0xC4) (abs := some 0xCC)
  | .bit (.imm _) => []
  | .bit (.mem m) => m.encode (zp := some 0x24) (abs := some 0x2C)
  | .sta m =>
    m.encode (zp := some 0x85) (zpx := some 0x95) (abs := some 0x8D) (absx := some 0x9D) (absy := some 0x99)
      (izx := some 0x81) (izy := some 0x91)
  | .stx m => m.encode (zp := some 0x86) (zpy := some 0x96) (abs := some 0x8E)
  | .sty m => m.encode (zp := some 0x84) (zpx := some 0x94) (abs := some 0x8C)
  | .inc m => m.encode (zp := some 0xE6) (zpx := some 0xF6) (abs := some 0xEE) (absx := some 0xFE)
  | .dec m => m.encode (zp := some 0xC6) (zpx := some 0xD6) (abs := some 0xCE) (absx := some 0xDE)
  | .asl .acc => [0x0A]
  | .asl (.mem m) => m.encode (zp := some 0x06) (zpx := some 0x16) (abs := some 0x0E) (absx := some 0x1E)
  | .lsr .acc => [0x4A]
  | .lsr (.mem m) => m.encode (zp := some 0x46) (zpx := some 0x56) (abs := some 0x4E) (absx := some 0x5E)
  | .rol .acc => [0x2A]
  | .rol (.mem m) => m.encode (zp := some 0x26) (zpx := some 0x36) (abs := some 0x2E) (absx := some 0x3E)
  | .ror .acc => [0x6A]
  | .ror (.mem m) => m.encode (zp := some 0x66) (zpx := some 0x76) (abs := some 0x6E) (absx := some 0x7E)
  | .tax => [0xAA]
  | .tay => [0xA8]
  | .txa => [0x8A]
  | .tya => [0x98]
  | .tsx => [0xBA]
  | .txs => [0x9A]
  | .inx => [0xE8]
  | .iny => [0xC8]
  | .dex => [0xCA]
  | .dey => [0x88]
  | .bpl off => [0x10, off]
  | .bmi off => [0x30, off]
  | .bvc off => [0x50, off]
  | .bvs off => [0x70, off]
  | .bcc off => [0x90, off]
  | .bcs off => [0xB0, off]
  | .bne off => [0xD0, off]
  | .beq off => [0xF0, off]
  | .jmp (.abs w) => [0x4C, loByte w, hiByte w]
  | .jmp (.ind w) => [0x6C, loByte w, hiByte w]
  | .jsr w => [0x20, loByte w, hiByte w]
  | .rts => [0x60]
  | .rti => [0x40]
  | .brk => [0x00]
  | .pha => [0x48]
  | .php => [0x08]
  | .pla => [0x68]
  | .plp => [0x28]
  | .clc => [0x18]
  | .sec => [0x38]
  | .cli => [0x58]
  | .sei => [0x78]
  | .cld => [0xD8]
  | .sed => [0xF8]
  | .clv => [0xB8]
  | .nop => [0xEA]
  | .illegal op => [op]

/-- The three bytes of an opcode-table word: bit 0 is the least significant bit of the first byte, and the bits above
`nbits` are 0. -/
def tableWordBytes (nbits w : Nat) : List Byte :=
  let v := w % 2 ^ nbits
  [BitVec.ofNat 8 v, BitVec.ofNat 8 (v / 256), BitVec.ofNat 8 (v / 65536)]

/-- The instruction the decoder reads from an opcode-table word. -/
def decodeTableWord (nbits w : Nat) : Option Instr :=
  (decode (tableWordBytes nbits w)).map Prod.fst

end Sys2Proof
end

