-- ==== Sys2Proof/Config.lean ====
section
/-! DEFINITION. What a run fixes but the spec leaves open: the platform parameter `BUS` as the core sees it (its
access events and the answers of the devices outside this block), `OPEN_BUS`, `DMA_STALL` and `ALIGN_OFFSET`
(spec/00_scope.md R6, spec/93_implementation_defined.md). Every open value is an `opaque` constant without a body:
nothing in Lean can evaluate it, so a theorem holds for every value of it. -/

namespace Sys2Proof

/-- The kind of one bus access (R33). -/
inductive AccessKind where
  | read
  | write
  deriving DecidableEq, Repr

/-- One bus access as R33 records it: kind, 16-bit address, 8-bit value, the step that made it and its cycle index
within that step (from 1). -/
structure BusEvent where
  kind  : AccessKind
  addr  : Word
  value : Byte
  step  : Nat
  index : Nat
  deriving DecidableEq, Repr

/-- What a memory byte that nothing has written and no program image lists reads as.
DESIGN CHOICE (log 1, unsafe): the spec makes the power-on contents of internal RAM a draw (R42, D8) and gives the
cartridge's contents from outside (R44). -/
def Config.unlistedByte : Byte := 0x00

/-- R43, R174, ID7, ID8: a read of a picture-unit register answers any byte. The free value may depend on every
access made so far (newest first, as the picture unit sees them), on the picture unit's dot position at the access and
on the register, 0x2000 to 0x2007. -/
opaque Config.ppuRead : List BusEvent → Int → Word → Byte

/-- R45, ID5, ID9: the byte a read that no device drives answers, and the upper seven bits of a controller read.
A fresh free value for each history of accesses, so it covers both a fixed `OPEN_BUS` and "the last byte
transferred". -/
opaque Config.openBus : List BusEvent → Byte

/-- R44, ID11: what the cartridge answers once its mapper has been written to. The bank-select state is the list of
the writes the mapper has seen (newest first); the free value may depend on it, on the cartridge image and on the
address. -/
opaque Config.bankedRead : List Host.Cell → List (Word × Byte) → Word → Byte

/-- R28, R143, ID10: the level of the IRQ line at a step boundary for which no input is given. A fresh free value for
each history of accesses, and every step makes an access, so the line may have any level at each boundary (log 21). -/
opaque Config.irqLevel : List BusEvent → Bool

/-- R46, D13, ID6: whether the copy started after this history of accesses stalls the processor for 514 cycles
(`true`) or 513 (`false`). -/
opaque Config.dmaStallIsLong : List BusEvent → Bool

/-- R166, D28, ID12: the picture unit's dot position at processor cycle 0. -/
opaque Config.alignOffset : Int

/-- R6, §5 of the source: picture-unit dots per processor cycle. -/
def Config.dotsPerCycle : Nat := 3

end Sys2Proof
end

