-- ==== Sys2Proof/Machine/State.lean ====
section
/-! DEFINITION. The state of the machine (spec/10_state.md) and of the platform it steps with (spec/20_memory.md R41 to
R47), as plain data; the ways a step can stop; the state at power-on and after reset. -/

namespace Sys2Proof.Machine

/-- The six stored flags of the status register P (R17). Bits 5 and 4 are not stored. -/
structure Flags where
  /-- negative, bit 7 -/
  n : Bool
  /-- signed overflow, bit 6 -/
  v : Bool
  /-- decimal mode, bit 3: stored only -/
  d : Bool
  /-- IRQ disable, bit 2 -/
  i : Bool
  /-- zero, bit 1 -/
  z : Bool
  /-- carry, bit 0 -/
  c : Bool
  deriving DecidableEq, Repr

/-- The fault record of R30 and R157: the fetch address and the opcode byte. -/
structure FaultRecord where
  addr   : Word
  opcode : Byte
  deriving DecidableEq, Repr

/-- The byte memories of the platform, as one list of (address, byte) in canonical form (`Memory.wf`): internal RAM at
its own addresses 0x0000 to 0x07FF and the cartridge image at 0x4020 to 0xFFFF. An address that is not listed reads as
`Config.unlistedByte`. -/
abbrev Memory := List Host.Cell

/-- A controller port (R47): the byte the host writes, and the shift register that reads present bit by bit. -/
structure Pad where
  latch : Byte
  shift : Byte
  deriving DecidableEq, Repr

/-- What the outside of the core does at one step boundary (R28, R29, R143, R145, R146, R47): whether the picture unit
raised an NMI since the last boundary, the level of the IRQ line now, whether the host requests a reset, and the
controller bytes the host writes, if any. -/
structure BoundaryInput where
  nmi   : Bool
  irq   : Bool
  reset : Bool
  pad1  : Option Byte
  pad2  : Option Byte
  deriving DecidableEq, Repr

/-- The platform behind the two bus primitives (R33, R41), and the record of the accesses made through them. -/
structure Bus where
  /-- internal RAM and the cartridge image -/
  mem          : Memory
  /-- the writes the cartridge's mapper has seen, newest first: its bank-select state (R44) -/
  mapperWrites : List (Word × Byte)
  /-- the controller strobe (R47) -/
  strobe       : Bool
  /-- controller port 1, at 0x4016 -/
  pad1         : Pad
  /-- controller port 2, at 0x4017 -/
  pad2         : Pad
  /-- the pages written to 0x4014 in this step, oldest first, whose copies are still to be made (R46) -/
  oamPages     : List Byte
  /-- every access made, newest first (R33) -/
  history      : List BusEvent
  /-- the number of the step in progress, or of the next one (R33 "step") -/
  stepNo       : Nat
  /-- the accesses made so far in the step in progress: the last cycle index used (R67) -/
  cycle        : Nat
  deriving DecidableEq, Repr

/-- The whole machine: ProcessorState (R13 to R26), the interrupt and halt state (R27 to R30), the inputs still to come
from outside, and the platform. -/
structure State where
  /-- accumulator A (R13) -/
  a            : Byte
  /-- index register X (R14) -/
  x            : Byte
  /-- index register Y (R14) -/
  y            : Byte
  /-- stack pointer S (R15) -/
  sp           : Byte
  /-- program counter (R16) -/
  pc           : Word
  /-- status register P (R17) -/
  p            : Flags
  /-- cycle counter `cycles_total` (R26) -/
  cyclesTotal  : Nat
  /-- the cycle count the last step returned (R12) -/
  stepCycles   : Nat
  /-- `halted` with its fault record (R30) -/
  halted       : Option FaultRecord
  /-- NMI latch (R27) -/
  nmiPending   : Bool
  /-- IRQ input level, as the last step boundary took it (R28, R146): every boundary takes it anew before it is read -/
  irqLine      : Bool
  /-- reset input latch (R29) -/
  resetPending : Bool
  /-- the model's own field: what the outside does at the coming step boundaries, in order (log 8) -/
  inputs       : List BoundaryInput
  /-- the platform -/
  bus          : Bus
  deriving DecidableEq, Repr

/-- Why the machine stops. -/
inductive Fault where
  /-- R157: the core is halted by an undocumented opcode, fetched at `addr`. Raised by `step` in every state whose
  `halted` holds a record, and by nothing else. Safe: the spec gives a halted core no further step. -/
  | illegalOpcode (addr : Word) (opcode : Byte)
  deriving DecidableEq, Repr

/-- Why an instruction has no meaning. -/
inductive Refusal where
  /-- The arm of `exec` for an instruction without a meaning yet. Raised by no arm of this model. Safe. -/
  | notModelled (mnemonic : String)
  /-- The fetched bytes end before the instruction does. Raised by `step` only if `fetchInstr` gave the decoder too few
  bytes, which it never does (`fetchInstr_decodes` in Sys2Proof/Laws/Step.lean). Safe. -/
  | truncatedFetch
  deriving DecidableEq, Repr

/-- What a session starts from (R165, D8): the draws `POWERON_A`, `POWERON_X`, `POWERON_Y`, `POWERON_FLAGS` and
`POWERON_PC`, and the memory: the power-on bytes of internal RAM (R42) and the cartridge image (R44); and what the outside of the core does:
the IRQ line, for which the spec gives no level (R32 "input; not reset by the core"), and the inputs to come. -/
structure PowerOn where
  a   : Byte
  x   : Byte
  y   : Byte
  /-- N, V, D, Z and C are drawn; the field `i` is not read, since I starts at 1 -/
  p   : Flags
  pc  : Word
  mem : Memory
  /-- the level of the IRQ line, an input that the core does not reset (R32) -/
  irqLine : Bool
  /-- what comes in at the step boundaries of the run, from the one before the reset sequence on (R143; log 8) -/
  inputs  : List BoundaryInput
  deriving DecidableEq, Repr

/-- The platform when the state is created: RAM and the cartridge as given, controllers released (log 4), no access
made. -/
def Bus.initial (mem : Memory) : Bus :=
  { mem := mem, mapperWrites := [], strobe := false, pad1 := ⟨0x00, 0x00⟩, pad2 := ⟨0x00, 0x00⟩, oamPages := [],
    history := [], stepNo := 0, cycle := 0 }

/-- Power-on (R165): the state a session starts in, for every draw. The next step is the reset sequence. The IRQ line
and the inputs are the draw's: no level of the line is settled here. -/
def State.powerOn (d : PowerOn) : State :=
  { a := d.a, x := d.x, y := d.y, sp := 0x00, pc := d.pc, p := { d.p with i := true },
    cyclesTotal := 0, stepCycles := 0, halted := none, nmiPending := false, irqLine := d.irqLine,
    resetPending := true, inputs := d.inputs, bus := Bus.initial d.mem }

/-- A step boundary at which nothing comes in: no NMI, the IRQ line at 0, no reset, no controller byte. -/
def BoundaryInput.quiet : BoundaryInput := { nmi := false, irq := false, reset := false, pad1 := none, pad2 := none }

/-- The draws `State.reset` is built on. DESIGN CHOICE (log 2, unsafe): every draw is 0, R32's typical value, and no
memory byte is listed. DESIGN CHOICE (log 21): the IRQ line, for which R32, R143 and R165 give no level, is 0 at
power-on and at the boundary before the reset sequence. -/
def PowerOn.zero : PowerOn :=
  { a := 0x00, x := 0x00, y := 0x00, pc := 0x0000, mem := [], irqLine := false, inputs := [.quiet],
    p := { n := false, v := false, d := false, i := true, z := false, c := false } }

/-- The seven reads of the power-on reset sequence (R168) with an empty cartridge, newest first. -/
def State.resetHistory : List BusEvent :=
  [⟨.read, 0xFFFD, 0x00, 0, 7⟩, ⟨.read, 0xFFFC, 0x00, 0, 6⟩, ⟨.read, 0x01FE, 0x00, 0, 5⟩, ⟨.read, 0x01FF, 0x00, 0, 4⟩,
   ⟨.read, 0x0100, 0x00, 0, 3⟩, ⟨.read, 0x0000, 0x00, 0, 2⟩, ⟨.read, 0x0000, 0x00, 0, 1⟩]

/-- The machine right after the power-on reset sequence (R32): S = 0xFD, I = 1, seven cycles counted, pc at the RESET
vector. It is what the first step from `State.powerOn PowerOn.zero` gives (`step_powerOn_zero` in
Sys2Proof/Laws/Step.lean). With no cartridge listed the vector reads as `Config.unlistedByte` twice, so pc is 0x0000
(log 3). DESIGN CHOICE (log 21): `irqLine` is 0, the level `PowerOn.zero` gave the boundary before the reset sequence; it is
not read again, since the next boundary takes the line's level anew, and with no inputs that level is free. -/
def State.reset : State :=
  { a := 0x00, x := 0x00, y := 0x00, sp := 0xFD, pc := 0x0000,
    p := { n := false, v := false, d := false, i := true, z := false, c := false },
    cyclesTotal := 7, stepCycles := 7, halted := none, nmiPending := false, irqLine := false, resetPending := false,
    inputs := [], bus := { Bus.initial [] with history := State.resetHistory, stepNo := 1 } }

end Sys2Proof.Machine
end

