-- ==== Sys2Proof/Machine/Flags.lean ====
section
/-! DEFINITION. The flag computations: SetNZ (R8), the adder (R91), the compare function (R97), the shift and rotate
functions (R109 to R112), and the byte image of P (R18, R19). -/

namespace Sys2Proof.Machine

/-- A byte with bit `k` as given and every other bit 0. -/
def bitAt (k : Nat) (b : Bool) : Byte := if b then 1 <<< k else 0

/-- `SetNZ(v)` of R8. -/
def Flags.setNZ (p : Flags) (v : Byte) : Flags := { p with n := v.getLsbD 7, z := v == 0 }

/-- The sum `s` of Add8 (R91), as an integer. -/
def addSum (a b : Byte) (c : Bool) : Nat := a.toNat + b.toNat + c.toNat

/-- The result `r` of Add8 (R91). -/
def addResult (a b : Byte) (c : Bool) : Byte := BitVec.ofNat 8 (addSum a b c)

/-- The carry out of Add8 (R91). -/
def addCarry (a b : Byte) (c : Bool) : Bool := 256 ≤ addSum a b c

/-- The overflow of Add8 (R91). -/
def addOverflow (a b : Byte) (c : Bool) : Bool :=
  (a ^^^ addResult a b c) &&& (b ^^^ addResult a b c) &&& 0x80 != 0

/-- N, V, Z and C after `A <- Add8(a, b, c)` (R92, R93). D is not read. -/
def Flags.afterAdd (p : Flags) (a b : Byte) : Flags :=
  { p.setNZ (addResult a b p.c) with c := addCarry a b p.c, v := addOverflow a b p.c }

/-- `Compare(r, m)` of R97: C, Z and N. -/
def Flags.compare (p : Flags) (r m : Byte) : Flags :=
  { p with c := m.toNat ≤ r.toNat, z := r == m, n := (r - m).getLsbD 7 }

/-- N, V and Z after BIT (R101). -/
def Flags.bitTest (p : Flags) (a m : Byte) : Flags :=
  { p with z := a &&& m == 0, n := m.getLsbD 7, v := m.getLsbD 6 }

/-- ASL's result (R109). -/
def aslByte (v : Byte) : Byte := v <<< 1

/-- LSR's result (R110). -/
def lsrByte (v : Byte) : Byte := v >>> 1

/-- ROL's result, with the carry from before the instruction (R111). -/
def rolByte (c : Bool) (v : Byte) : Byte := v <<< 1 ||| bitAt 0 c

/-- ROR's result, with the carry from before the instruction (R112). -/
def rorByte (c : Bool) (v : Byte) : Byte := v >>> 1 ||| bitAt 7 c

/-- N, Z and C after a shift or rotate: the result, and the bit shifted out (R109 to R112). -/
def Flags.afterShift (p : Flags) (result : Byte) (out : Bool) : Flags := { p.setNZ result with c := out }

/-- `image(b)` of R18: the byte pushed for P, with bit 5 set and bit 4 as the pushing operation gives it. -/
def Flags.image (p : Flags) (b : Bool) : Byte :=
  bitAt 7 p.n ||| bitAt 6 p.v ||| bitAt 5 true ||| bitAt 4 b ||| bitAt 3 p.d ||| bitAt 2 p.i ||| bitAt 1 p.z |||
    bitAt 0 p.c

/-- Loading P from a byte (R19): bits 5 and 4 are ignored. -/
def Flags.ofByte (v : Byte) : Flags :=
  { n := v.getLsbD 7, v := v.getLsbD 6, d := v.getLsbD 3, i := v.getLsbD 2, z := v.getLsbD 1, c := v.getLsbD 0 }

end Sys2Proof.Machine
end

