-- ==== Sys2Proof/Machine/Ops.lean ====
section
/-! DEFINITION. The named operations of the machine: memory, the address map, the two bus primitives, the registers, the
stack, and taking an interrupt, returning from one and resetting. -/

namespace Sys2Proof.Machine

/-! ### Memory in canonical form -/

/-- The byte at a memory key. -/
def Memory.lookup : Memory → Nat → Byte
  | [], _ => Config.unlistedByte
  | c :: m, k => if c.1 = k then c.2 else Memory.lookup m k

/-- Put a cell before a memory, unless its byte is what an unlisted address reads as. -/
def Memory.cons (c : Host.Cell) (m : Memory) : Memory := if c.2 = Config.unlistedByte then m else c :: m

/-- Store a byte at a memory key, keeping the canonical form. -/
def Memory.store : Memory → Nat → Byte → Memory
  | [], k, v => Memory.cons (k, v) []
  | c :: m, k, v =>
    if k < c.1 then Memory.cons (k, v) (c :: m)
    else if c.1 = k then Memory.cons (k, v) m
    else c :: Memory.store m k v

/-- The canonical form: addresses strictly rising, and no entry equal to what an unlisted address reads as. -/
def Memory.wf : Memory → Bool
  | [] => true
  | c :: m => c.2 != Config.unlistedByte && m.all (fun d => c.1 < d.1) && Memory.wf m

/-- The cells of the cartridge image (R44): the listed bytes that are not internal RAM. -/
def Memory.cartridgePart (m : Memory) : Memory := m.filter fun c => 0x4020 ≤ c.1

/-! ### The address map (R41) -/

/-- What answers at a bus address. -/
inductive Region where
  /-- internal RAM and its mirrors -/
  | ram
  /-- picture-unit registers and their mirrors -/
  | ppu
  /-- 0x4014, the sprite-memory copy register -/
  | oamDma
  /-- 0x4016, strobe and controller port 1 -/
  | port1
  /-- 0x4017, controller port 2 (a write is the audio unit's) -/
  | port2
  /-- audio unit and test registers: a read is undriven, a write has no modelled effect -/
  | undriven
  /-- the cartridge -/
  | cartridge
  deriving DecidableEq, Repr

/-- The map of R41. -/
def region (addr : Word) : Region :=
  if addr < 0x2000 then .ram
  else if addr < 0x4000 then .ppu
  else if addr = 0x4014 then .oamDma
  else if addr = 0x4016 then .port1
  else if addr = 0x4017 then .port2
  else if addr < 0x4020 then .undriven
  else .cartridge

/-- The memory key of an address: RAM is mirrored every 2 KiB (R42), the cartridge has its own addresses. -/
def memKey (addr : Word) : Nat :=
  match region addr with
  | .ram => addr.toNat % 0x0800
  | _ => addr.toNat

/-- The picture-unit register that an address of its window reaches (R41): 0x2000 to 0x2007, mirrored every 8 bytes. -/
def ppuRegister (addr : Word) : Word := 0x2000 + (addr &&& 0x0007)

/-- An access as the picture unit sees it: the mirrors of a register are that register (R41). -/
def seenByPpu (e : BusEvent) : BusEvent :=
  match region e.addr with
  | .ppu => { e with addr := ppuRegister e.addr }
  | .ram | .oamDma | .port1 | .port2 | .undriven | .cartridge => e

/-- What `readPRG` answers (R44): the image as loaded, until the mapper has been written to; then a free value. -/
def Bus.readPRG (b : Bus) (addr : Word) : Byte :=
  match b.mapperWrites with
  | [] => b.mem.lookup (memKey addr)
  | w :: ws => Config.bankedRead b.mem.cartridgePart (w :: ws) addr

/-- The byte a plain-memory address holds now, read without a bus access; nothing at a device address. -/
def Bus.peek (b : Bus) (addr : Word) : Option Byte :=
  match region addr with
  | .ram => some (b.mem.lookup (memKey addr))
  | .cartridge => some (b.readPRG addr)
  | _ => none

/-! ### Controllers (R47) -/

/-- The shift register as a read sees it: reloaded continuously while the strobe is 1. -/
def Pad.current (p : Pad) (strobe : Bool) : Byte := if strobe then p.latch else p.shift

/-- The register after a read: with the strobe 0 it moves on by one bit, and a 1 comes in. -/
def Pad.afterRead (p : Pad) (strobe : Bool) : Pad :=
  if strobe then p else { p with shift := p.shift <<< 1 ||| 1 }

/-- The register when the strobe is written: what was being reloaded until now stays. -/
def Pad.afterStrobe (p : Pad) (was now : Bool) : Pad := if was || now then { p with shift := p.latch } else p

/-- A controller read: the register's top bit in bit 0, open-bus bits above it. -/
def padByte (openBus : Byte) (reg : Byte) : Byte := (openBus &&& 0xFE) ||| bitAt 0 (reg.getLsbD 7)

/-! ### The bus primitives (R33, R39, R41, R48) -/

/-- The picture unit's dot position at the next access (D16, R166): three dots for each cycle before it. -/
def State.dot (s : State) : Int :=
  Config.alignOffset + (Config.dotsPerCycle * (s.cyclesTotal + s.bus.cycle) : Nat)

/-- The byte `BUS` answers to a read of `addr` at `dot` (R41). -/
def Bus.answer (b : Bus) (dot : Int) (addr : Word) : Byte :=
  match region addr with
  | .ram => b.mem.lookup (memKey addr)
  | .cartridge => b.readPRG addr
  | .ppu => Config.ppuRead (b.history.map seenByPpu) dot (ppuRegister addr)
  | .port1 => padByte (Config.openBus b.history) (b.pad1.current b.strobe)
  | .port2 => padByte (Config.openBus b.history) (b.pad2.current b.strobe)
  | .oamDma | .undriven => Config.openBus b.history

/-- The side effect of a read on the platform: a controller read shifts its register (R39, R47). -/
def Bus.afterRead (b : Bus) (addr : Word) : Bus :=
  match region addr with
  | .port1 => { b with pad1 := b.pad1.afterRead b.strobe }
  | .port2 => { b with pad2 := b.pad2.afterRead b.strobe }
  | .ram | .ppu | .oamDma | .undriven | .cartridge => b

/-- The effect of a write on the platform (R41, R42, R43, R44, R46, R47). -/
def Bus.afterWrite (b : Bus) (addr : Word) (v : Byte) : Bus :=
  match region addr with
  | .ram => { b with mem := b.mem.store (memKey addr) v }
  | .cartridge => { b with mapperWrites := (addr, v) :: b.mapperWrites }
  | .oamDma => { b with oamPages := b.oamPages ++ [v] }
  | .port1 =>
    { b with strobe := v.getLsbD 0, pad1 := b.pad1.afterStrobe b.strobe (v.getLsbD 0),
             pad2 := b.pad2.afterStrobe b.strobe (v.getLsbD 0) }
  | .ppu | .port2 | .undriven => b

/-- Record one access under the next cycle index of the step (R33, R67). -/
def Bus.record (b : Bus) (kind : AccessKind) (addr : Word) (v : Byte) : Bus :=
  { b with history := ⟨kind, addr, v, b.stepNo, b.cycle + 1⟩ :: b.history, cycle := b.cycle + 1 }

/-- `MemRead(addr, 1)` of R8: the byte, and the state after the access. -/
def State.read (s : State) (addr : Word) : Byte × State :=
  let v := s.bus.answer s.dot addr
  (v, { s with bus := (s.bus.afterRead addr).record .read addr v })

/-- `DummyRead(addr)` of R8: a real bus read whose value is discarded. -/
def State.dummyRead (s : State) (addr : Word) : State := (s.read addr).2

/-- `MemWrite(addr, 1, v)` of R8. -/
def State.write (s : State) (addr : Word) (v : Byte) : State :=
  { s with bus := (s.bus.afterWrite addr v).record .write addr v }

/-- What the cell at an address holds now, read without a bus access. -/
def State.peek (s : State) (addr : Word) : Option Byte := s.bus.peek addr

/-! ### Registers (R13 to R17) -/

def State.setA (s : State) (v : Byte) : State := { s with a := v }
def State.setX (s : State) (v : Byte) : State := { s with x := v }
def State.setY (s : State) (v : Byte) : State := { s with y := v }
def State.setSp (s : State) (v : Byte) : State := { s with sp := v }
def State.setPc (s : State) (v : Word) : State := { s with pc := v }
def State.setP (s : State) (v : Flags) : State := { s with p := v }

/-- Fetch the byte at pc and move pc past it (R16). -/
def State.fetch (s : State) : Byte × State :=
  let r := s.read s.pc
  (r.1, r.2.setPc (s.pc + 1))

/-! ### The stack (R8, R15) -/

/-- The address of a stack byte: page 1. -/
def stackAddr (sp : Byte) : Word := mkWord 0x01 sp

/-- `Push(v)` of R8: write, then S - 1. -/
def State.push (s : State) (v : Byte) : State := (s.write (stackAddr s.sp) v).setSp (s.sp - 1)

/-- `Pull()` of R8: S + 1, then read. -/
def State.pull (s : State) : Byte × State := (s.setSp (s.sp + 1)).read (stackAddr (s.sp + 1))

/-- The dummy read of the stack before a pull (R124 to R126, R131) and in the reset sequence (R168). -/
def State.dummyStack (s : State) : State := s.dummyRead (stackAddr s.sp)

/-! ### Interrupts, return and reset (spec/60_exceptions.md, spec/70_reset_and_hazards.md) -/

/-- NMI vector (R6, R40). -/
def nmiVector : Word := 0xFFFA

/-- RESET vector (R6, R40). -/
def resetVector : Word := 0xFFFC

/-- IRQ and BRK vector (R6, R40). -/
def irqVector : Word := 0xFFFE

/-- Set I and load pc from a vector, low byte first: cycles 6 and 7 of R127, R150 and R168. -/
def State.loadVector (s : State) (vec : Word) : State :=
  let lo := (s.setP { s.p with i := true }).read vec
  let hi := lo.2.read (vec + 1)
  hi.2.setPc (mkWord hi.1 lo.1)

/-- Enter a handler (cycles 3 to 7 of R127 and R150): push pc high, pc low and the image of P with `b` in bit 4, then
set I and go through the vector. -/
def State.enterHandler (s : State) (b : Bool) (vec : Word) : State :=
  let s1 := (s.push (hiByte s.pc)).push (loByte s.pc)
  (s1.push (s1.p.image b)).loadVector vec

/-- The interrupt entry of R150 for NMI and IRQ: two discarded opcode fetches, then the handler with B = 0. -/
def State.interruptEntry (s : State) (vec : Word) : State :=
  ((s.dummyRead s.pc).dummyRead s.pc).enterHandler false vec

/-- NMI service (R149): the latch is cleared, then entry through 0xFFFA. -/
def State.nmiEntry (s : State) : State := ({ s with nmiPending := false } : State).interruptEntry nmiVector

/-- IRQ service (R148): entry through 0xFFFE; the line stays as its sources drive it. -/
def State.irqEntry (s : State) : State := s.interruptEntry irqVector

/-- Return from an interrupt or BRK (R126, R152), cycles 3 to 6: P, then pc low, then pc high are pulled. -/
def State.returnFromInterrupt (s : State) : State :=
  let flags := s.dummyStack.pull
  let lo := (flags.2.setP (Flags.ofByte flags.1)).pull
  let hi := lo.2.pull
  hi.2.setPc (mkWord hi.1 lo.1)

/-- One stack cycle of the reset sequence: the write of an entry turned into a read (R168). -/
def State.resetStackCycle (s : State) : State := s.dummyStack.setSp (s.sp - 1)

/-- The reset sequence of R168. -/
def State.resetSequence (s : State) : State :=
  let s1 := (s.dummyRead s.pc).dummyRead s.pc
  let s2 := s1.resetStackCycle.resetStackCycle.resetStackCycle
  { s2.loadVector resetVector with resetPending := false, nmiPending := false }

/-- `raise IllegalOpcode(K, op)` of R141 and R157: pc stays at the opcode's address and the core is halted. -/
def State.halt (s : State) (addr : Word) (opcode : Byte) : State :=
  { s with pc := addr, halted := some ⟨addr, opcode⟩ }

end Sys2Proof.Machine
end

