-- ==== Sys2Proof/Machine/Operands.lean ====
section
/-! DEFINITION. Every operand form: effective addresses (R66) and the bus-access sequences of the read, write and
read-modify-write classes (spec/40_addressing.md R68 to R77). The operand bytes were fetched with the opcode, so a
sequence here begins after them. -/

namespace Sys2Proof.Machine

/-- An effective address, the address before the carry into its high byte, and whether the two differ (R74, R77). -/
structure EffAddr where
  addr      : Word
  /-- `partial` of R74: the high byte before the carry -/
  uncarried : Word
  crossed   : Bool
  deriving DecidableEq, Repr

/-- An address that no page carry can change. -/
def EffAddr.plain (addr : Word) : EffAddr := ⟨addr, addr, false⟩

/-- Base plus index (R74, R77): the sum, the sum without the carry into the high byte, and whether there was a carry. -/
def EffAddr.indexed (base : Word) (index : Byte) : EffAddr :=
  ⟨base + zext16 index, mkWord (hiByte base) (loByte base + index), 256 ≤ (loByte base).toNat + index.toNat⟩

/-- Read a pointer from page zero, low byte then high byte; the address of the high byte wraps in page zero
(R37, R76, R77). -/
def State.readZpPointer (s : State) (ptr : Byte) : Word × State :=
  let lo := s.read (zext16 ptr)
  let hi := lo.2.read (zext16 (ptr + 1))
  (mkWord hi.1 lo.1, hi.2)

/-- The effective address of a memory operand, with the accesses that find it (R66, R71 to R77). -/
def State.resolve (s : State) (m : MemMode) : EffAddr × State :=
  match m with
  | .zp a => (.plain (zext16 a), s)
  | .zpx a => (.plain (zext16 (a + s.x)), s.dummyRead (zext16 a))
  | .zpy a => (.plain (zext16 (a + s.y)), s.dummyRead (zext16 a))
  | .abs w => (.plain w, s)
  | .absx w => (.indexed w s.x, s)
  | .absy w => (.indexed w s.y, s)
  | .izx p =>
    let r := (s.dummyRead (zext16 p)).readZpPointer (p + s.x)
    (.plain r.1, r.2)
  | .izy p =>
    let r := s.readZpPointer p
    (.indexed r.1 s.y, r.2)

/-- The modes that add an index to a 16-bit base: their long form reads the partial address first (R74, R77). -/
def addsIndex : MemMode → Bool
  | .absx _ | .absy _ | .izy _ => true
  | .zp _ | .zpx _ | .zpy _ | .abs _ | .izx _ => false

/-- Read class: the dummy read of the partial address only when the page is crossed, then M (R71 to R77). -/
def State.readMem (s : State) (m : MemMode) : Byte × State :=
  let r := s.resolve m
  (if r.1.crossed then r.2.dummyRead r.1.uncarried else r.2).read r.1.addr

/-- The operand M of a read-class instruction (R68, R70). -/
def State.readOperand (s : State) (m : ReadMode) : Byte × State :=
  match m with
  | .imm v => (v, s)
  | .mem mode => s.readMem mode

/-- The address a write or read-modify-write operand is stored to: always the long form (R74, R77). -/
def State.target (s : State) (m : MemMode) : Word × State :=
  let r := s.resolve m
  (r.1.addr, if addsIndex m then r.2.dummyRead r.1.uncarried else r.2)

/-- Write class: store `v` at the effective address, which is never read (R68). -/
def State.storeOperand (s : State) (m : MemMode) (v : Byte) : State :=
  let t := s.target m
  t.2.write t.1 v

/-- Read-modify-write class: read M, write M back, write `f M` (R68). Gives M and the state. -/
def State.modifyMem (s : State) (m : MemMode) (f : Byte → Byte) : Byte × State :=
  let t := s.target m
  let r := t.2.read t.1
  (r.1, (r.2.write t.1 r.1).write t.1 (f r.1))

/-- The operand of a shift or rotate: the accumulator form with its dummy read (R69), or the memory form. Gives the byte
before and the state with the result written. -/
def State.modifyOperand (s : State) (m : RmwMode) (f : Byte → Byte) : Byte × State :=
  match m with
  | .acc => (s.a, (s.dummyRead s.pc).setA (f s.a))
  | .mem mode => s.modifyMem mode f

/-- Implied mode: the dummy read of the byte after the opcode (R69). -/
def State.implied (s : State) : State := s.dummyRead s.pc

end Sys2Proof.Machine
end

