-- ==== Sys2Proof/Machine/LoadStore.lean ====
section
/-! DEFINITION. Loads, stores and register transfers (spec/41_load_store_transfer.md). -/

namespace Sys2Proof.Machine

/-- What `exec` answers. -/
abbrev Result := Host.Outcome State Fault Refusal

/-- LDA (R79): `A <- M; SetNZ(A)`. -/
def execLda (m : ReadMode) (s : State) : Result :=
  let r := s.readOperand m
  .next ((r.2.setA r.1).setP (s.p.setNZ r.1))

/-- LDX (R80): `X <- M; SetNZ(X)`. -/
def execLdx (m : ReadMode) (s : State) : Result :=
  let r := s.readOperand m
  .next ((r.2.setX r.1).setP (s.p.setNZ r.1))

/-- LDY (R81): `Y <- M; SetNZ(Y)`. -/
def execLdy (m : ReadMode) (s : State) : Result :=
  let r := s.readOperand m
  .next ((r.2.setY r.1).setP (s.p.setNZ r.1))

/-- STA (R82): `MemWrite(ea, 1, A)`. -/
def execSta (m : MemMode) (s : State) : Result := .next (s.storeOperand m s.a)

/-- STX (R83): `MemWrite(ea, 1, X)`. -/
def execStx (m : MemMode) (s : State) : Result := .next (s.storeOperand m s.x)

/-- STY (R84): `MemWrite(ea, 1, Y)`. -/
def execSty (m : MemMode) (s : State) : Result := .next (s.storeOperand m s.y)

/-- TAX (R85): `X <- A; SetNZ(X)`. -/
def execTax (s : State) : Result := .next ((s.implied.setX s.a).setP (s.p.setNZ s.a))

/-- TAY (R86): `Y <- A; SetNZ(Y)`. -/
def execTay (s : State) : Result := .next ((s.implied.setY s.a).setP (s.p.setNZ s.a))

/-- TXA (R87): `A <- X; SetNZ(A)`. -/
def execTxa (s : State) : Result := .next ((s.implied.setA s.x).setP (s.p.setNZ s.x))

/-- TYA (R88): `A <- Y; SetNZ(A)`. -/
def execTya (s : State) : Result := .next ((s.implied.setA s.y).setP (s.p.setNZ s.y))

/-- TSX (R89): `X <- S; SetNZ(X)`. -/
def execTsx (s : State) : Result := .next ((s.implied.setX s.sp).setP (s.p.setNZ s.sp))

/-- TXS (R90): `S <- X`, and no flag changes. -/
def execTxs (s : State) : Result := .next (s.implied.setSp s.x)

end Sys2Proof.Machine
end

