-- ==== Sys2Proof/Machine/ArithLogic.lean ====
section
/-! DEFINITION. Arithmetic, logic, compare, increment and decrement (spec/42_arith_logic.md). -/

namespace Sys2Proof.Machine

/-- `A <- v; SetNZ(v)` after the operand was read. -/
def State.putLogic (s : State) (v : Byte) : State := (s.setA v).setP (s.p.setNZ v)

/-- `(r, c, v) <- Add8(A, b, P.C); A <- r` with its four flags (R92, R93). -/
def State.putSum (s : State) (b : Byte) : State :=
  (s.setA (addResult s.a b s.p.c)).setP (s.p.afterAdd s.a b)

/-- ADC (R92): add with carry; D is not read. -/
def execAdc (m : ReadMode) (s : State) : Result :=
  let r := s.readOperand m
  .next (r.2.putSum r.1)

/-- SBC (R93): the same sum with `M ^ 0xFF`; D is not read. -/
def execSbc (m : ReadMode) (s : State) : Result :=
  let r := s.readOperand m
  .next (r.2.putSum (r.1 ^^^ 0xFF))

/-- AND (R94). -/
def execAnd (m : ReadMode) (s : State) : Result :=
  let r := s.readOperand m
  .next (r.2.putLogic (s.a &&& r.1))

/-- ORA (R95). -/
def execOra (m : ReadMode) (s : State) : Result :=
  let r := s.readOperand m
  .next (r.2.putLogic (s.a ||| r.1))

/-- EOR (R96). -/
def execEor (m : ReadMode) (s : State) : Result :=
  let r := s.readOperand m
  .next (r.2.putLogic (s.a ^^^ r.1))

/-- CMP (R98): `Compare(A, M)`. -/
def execCmp (m : ReadMode) (s : State) : Result :=
  let r := s.readOperand m
  .next (r.2.setP (s.p.compare s.a r.1))

/-- CPX (R99): `Compare(X, M)`. -/
def execCpx (m : ReadMode) (s : State) : Result :=
  let r := s.readOperand m
  .next (r.2.setP (s.p.compare s.x r.1))

/-- CPY (R100): `Compare(Y, M)`. -/
def execCpy (m : ReadMode) (s : State) : Result :=
  let r := s.readOperand m
  .next (r.2.setP (s.p.compare s.y r.1))

/-- BIT (R101): Z from A & M, N and V from M. -/
def execBit (m : ReadMode) (s : State) : Result :=
  let r := s.readOperand m
  .next (r.2.setP (s.p.bitTest s.a r.1))

/-- INC (R102): `f(M) = M + 1`, read-modify-write; C and V unchanged. -/
def execInc (m : MemMode) (s : State) : Result :=
  let r := s.modifyMem m (· + 1)
  .next (r.2.setP (s.p.setNZ (r.1 + 1)))

/-- DEC (R103): `f(M) = M - 1`, read-modify-write. -/
def execDec (m : MemMode) (s : State) : Result :=
  let r := s.modifyMem m (· - 1)
  .next (r.2.setP (s.p.setNZ (r.1 - 1)))

/-- INX (R104). -/
def execInx (s : State) : Result := .next ((s.implied.setX (s.x + 1)).setP (s.p.setNZ (s.x + 1)))

/-- INY (R105). -/
def execIny (s : State) : Result := .next ((s.implied.setY (s.y + 1)).setP (s.p.setNZ (s.y + 1)))

/-- DEX (R106). -/
def execDex (s : State) : Result := .next ((s.implied.setX (s.x - 1)).setP (s.p.setNZ (s.x - 1)))

/-- DEY (R107). -/
def execDey (s : State) : Result := .next ((s.implied.setY (s.y - 1)).setP (s.p.setNZ (s.y - 1)))

end Sys2Proof.Machine
end

