-- ==== Sys2Proof/Machine/ShiftRotate.lean ====
section
/-! DEFINITION. Shifts and rotates (spec/43_shift_rotate.md), accumulator and memory forms. -/

namespace Sys2Proof.Machine

/-- ASL (R109): bit 7 goes to C. -/
def execAsl (m : RmwMode) (s : State) : Result :=
  let r := s.modifyOperand m aslByte
  .next (r.2.setP (s.p.afterShift (aslByte r.1) (r.1.getLsbD 7)))

/-- LSR (R110): bit 0 goes to C. -/
def execLsr (m : RmwMode) (s : State) : Result :=
  let r := s.modifyOperand m lsrByte
  .next (r.2.setP (s.p.afterShift (lsrByte r.1) (r.1.getLsbD 0)))

/-- ROL (R111): the old C comes in at bit 0, bit 7 goes to C. -/
def execRol (m : RmwMode) (s : State) : Result :=
  let r := s.modifyOperand m (rolByte s.p.c)
  .next (r.2.setP (s.p.afterShift (rolByte s.p.c r.1) (r.1.getLsbD 7)))

/-- ROR (R112): the old C comes in at bit 7, bit 0 goes to C. -/
def execRor (m : RmwMode) (s : State) : Result :=
  let r := s.modifyOperand m (rorByte s.p.c)
  .next (r.2.setP (s.p.afterShift (rorByte s.p.c r.1) (r.1.getLsbD 0)))

end Sys2Proof.Machine
end

