-- ==== Sys2Proof/Machine/Control.lean ====
section
/-! DEFINITION. Branches, jumps, subroutines and BRK (spec/44_control_transfer.md). At the meaning's start pc stands
after the instruction's fetched bytes: for a branch it is `pc_next`, for JSR it is J+2 and for BRK it is K+1. -/

namespace Sys2Proof.Machine

/-- A conditional branch from `pc_next` on (R113): one dummy read when taken, a second one when the target lies in
another page than `pc_next`. -/
def State.branch (s : State) (taken : Bool) (off : Byte) : State :=
  let target := s.pc + sext16 off
  if taken then
    let s1 := s.dummyRead s.pc
    (if hiByte target = hiByte s.pc then s1 else s1.dummyRead (mkWord (hiByte s.pc) (loByte target))).setPc target
  else s

/-- BPL (R114): N = 0. -/
def execBpl (off : Byte) (s : State) : Result := .next (s.branch (!s.p.n) off)

/-- BMI (R115): N = 1. -/
def execBmi (off : Byte) (s : State) : Result := .next (s.branch s.p.n off)

/-- BVC (R116): V = 0. -/
def execBvc (off : Byte) (s : State) : Result := .next (s.branch (!s.p.v) off)

/-- BVS (R117): V = 1. -/
def execBvs (off : Byte) (s : State) : Result := .next (s.branch s.p.v off)

/-- BCC (R118): C = 0. -/
def execBcc (off : Byte) (s : State) : Result := .next (s.branch (!s.p.c) off)

/-- BCS (R119): C = 1. -/
def execBcs (off : Byte) (s : State) : Result := .next (s.branch s.p.c off)

/-- BNE (R120): Z = 0. -/
def execBne (off : Byte) (s : State) : Result := .next (s.branch (!s.p.z) off)

/-- BEQ (R121): Z = 1. -/
def execBeq (off : Byte) (s : State) : Result := .next (s.branch s.p.z off)

/-- The target of JMP indirect: the pointer's high byte is read from the same page as its low byte (R123, D24). -/
def State.readPointer (s : State) (ptr : Word) : Word × State :=
  let lo := s.read ptr
  let hi := lo.2.read (mkWord (hiByte ptr) (loByte ptr + 1))
  (mkWord hi.1 lo.1, hi.2)

/-- JMP absolute (R122) and indirect (R123). -/
def execJmp (m : JumpMode) (s : State) : Result :=
  match m with
  | .abs target => .next (s.setPc target)
  | .ind ptr =>
    let r := s.readPointer ptr
    .next (r.2.setPc r.1)

/-- JSR (R124), from cycle 3: pc is J+2, the return address pushed; the target's high byte is fetched from there after
the two pushes. -/
def execJsr (target : Word) (s : State) : Result :=
  let s1 := (s.dummyStack.push (hiByte s.pc)).push (loByte s.pc)
  let hi := s1.fetch
  .next (hi.2.setPc (mkWord hi.1 (loByte target)))

/-- RTS (R125). -/
def execRts (s : State) : Result :=
  let lo := s.implied.dummyStack.pull
  let hi := lo.2.pull
  let target := mkWord hi.1 lo.1
  .next ((hi.2.dummyRead target).setPc (target + 1))

/-- RTI (R126). -/
def execRti (s : State) : Result := .next s.implied.returnFromInterrupt

/-- BRK (R127), from cycle 2: the padding byte is read and skipped, then the IRQ handler is entered with B = 1. -/
def execBrk (s : State) : Result := .next ((s.implied.setPc (s.pc + 1)).enterHandler true irqVector)

end Sys2Proof.Machine
end

