-- ==== Sys2Proof/Machine/StackFlags.lean ====
section
/-! DEFINITION. Stack and flag operations, NOP and the illegal instruction (spec/45_stack_flags_misc.md). -/

namespace Sys2Proof.Machine

/-- PHA (R129). -/
def execPha (s : State) : Result := .next (s.implied.push s.a)

/-- PHP (R130): the image with B = 1. -/
def execPhp (s : State) : Result := .next (s.implied.push (s.p.image true))

/-- PLA (R131). -/
def execPla (s : State) : Result :=
  let r := s.implied.dummyStack.pull
  .next ((r.2.setA r.1).setP (s.p.setNZ r.1))

/-- PLP (R132). -/
def execPlp (s : State) : Result :=
  let r := s.implied.dummyStack.pull
  .next (r.2.setP (Flags.ofByte r.1))

/-- CLC (R133). -/
def execClc (s : State) : Result := .next (s.implied.setP { s.p with c := false })

/-- SEC (R134). -/
def execSec (s : State) : Result := .next (s.implied.setP { s.p with c := true })

/-- CLI (R135). -/
def execCli (s : State) : Result := .next (s.implied.setP { s.p with i := false })

/-- SEI (R136). -/
def execSei (s : State) : Result := .next (s.implied.setP { s.p with i := true })

/-- CLD (R137). -/
def execCld (s : State) : Result := .next (s.implied.setP { s.p with d := false })

/-- SED (R138). -/
def execSed (s : State) : Result := .next (s.implied.setP { s.p with d := true })

/-- CLV (R139). -/
def execClv (s : State) : Result := .next (s.implied.setP { s.p with v := false })

/-- NOP (R140). -/
def execNop (s : State) : Result := .next s.implied

/-- The illegal instruction (R141): `IllegalOpcode(K, op)` is taken, with K the address the opcode was fetched from. The
step's one access was the fetch. -/
def execIllegal (opcode : Byte) (s : State) : Result := .next (s.halt (s.pc - 1) opcode)

end Sys2Proof.Machine
end

