-- ==== Sys2Proof/Machine/Fetch.lean ====
section
/-! DEFINITION. What a step adds around an instruction: the inputs of the step boundary and the choice of R144, the
fetch of the instruction's bytes (R67), and the end of the step with its sprite-memory copies and its cycle count
(R46, R173, R175). -/

namespace Sys2Proof.Machine

/-! ### The step boundary -/

/-- What the next step does (R144). -/
inductive Action where
  | halted (r : FaultRecord)
  | reset
  | nmi
  | irq
  | instruction
  deriving DecidableEq, Repr

/-- The host writes a controller byte, or leaves it. -/
def Pad.input (p : Pad) (v : Option Byte) : Pad :=
  match v with
  | some b => { p with latch := b }
  | none => p

/-- Apply one boundary's input (R27, R28, R29, R47): an NMI raise and a reset request set their latches, the IRQ line
takes its level. -/
def State.applyInput (s : State) (e : BoundaryInput) : State :=
  { s with
    nmiPending := s.nmiPending || e.nmi
    irqLine := e.irq
    resetPending := s.resetPending || e.reset
    bus := { s.bus with pad1 := s.bus.pad1.input e.pad1, pad2 := s.bus.pad2.input e.pad2 } }

/-- The state at the step boundary: the next scheduled input is taken, if there is one. Otherwise no NMI, reset request or
controller byte comes in, and the IRQ line has a level that nothing constrains (R143, ID10; logs 8 and 21). The step's
counters start at 0. -/
def State.boundary (s : State) : State :=
  let s1 := { s with bus := { s.bus with cycle := 0, oamPages := [] } }
  match s.inputs with
  | [] => { s1 with irqLine := Config.irqLevel s.bus.history }
  | e :: rest => { s1.applyInput e with inputs := rest }

/-- The choice of R144, in its order. -/
def State.action (s : State) : Action :=
  match s.halted with
  | some r => .halted r
  | none =>
    if s.resetPending then .reset
    else if s.nmiPending then .nmi
    else if !s.p.i && s.irqLine then .irq
    else .instruction

/-! ### Fetching an instruction (R16, R51, R53, R67) -/

/-- Fetch `k` bytes at pc, in order. -/
def State.fetchBytes : Nat → State → List Byte × State
  | 0, s => ([], s)
  | k + 1, s =>
    let b := s.fetch
    let rest := State.fetchBytes k b.2
    (b.1 :: rest.1, rest.2)

/-- JSR's opcode: the one instruction that fetches its last byte after other accesses (R51, R124). -/
def jsrOpcode : Byte := 0x20

/-- The operand bytes fetched before the instruction executes: all of them, but for JSR's high byte. -/
def prefetchCount (op : Byte) : Nat := if op = jsrOpcode then 1 else operandCount op

/-- What the decoder is shown after the fetched bytes. For JSR it is the byte that stands at pc, without a bus access: the
meaning fetches it itself in cycle 6 and does not read this one. -/
def State.lookahead (s : State) (op : Byte) : List Byte :=
  if op = jsrOpcode then [s.bus.answer s.dot s.pc] else []

/-- Fetch one instruction: the opcode in cycle 1, then its operand bytes. Gives the bytes for the decoder. -/
def State.fetchInstr (s : State) : List Byte × State :=
  let op := s.fetch
  let operands := State.fetchBytes (prefetchCount op.1) op.2
  (op.1 :: (operands.1 ++ operands.2.lookahead op.1), operands.2)

/-! ### The end of a step -/

/-- Copy the first `n` bytes of a page to the picture unit's sprite memory (R46). -/
def State.oamCopy (page : Byte) : Nat → State → State
  | 0, s => s
  | n + 1, s =>
    let r := (State.oamCopy page n s).read (mkWord page (BitVec.ofNat 8 n))
    r.2.write 0x2004 r.1

/-- `DMA_STALL` of one copy (R46, D13). -/
def State.dmaStall (s : State) : Nat := if Config.dmaStallIsLong s.bus.history then 514 else 513

/-- The copies a step started, in order: each moves 256 bytes and adds its stall. Gives the stall cycles and the state. -/
def State.oamCopies : List Byte → State → Nat × State
  | [], s => (0, s)
  | page :: rest, s =>
    let r := State.oamCopies rest (State.oamCopy page 256 s)
    (s.dmaStall + r.1, r.2)

/-- The end of a step (R26, R67, R175): the copies it started are made, its accesses and stalls are its cycle count, and
the count is added to `cycles_total`. -/
def State.finish (s : State) : State :=
  let r := State.oamCopies s.bus.oamPages s
  { r.2 with
    cyclesTotal := s.cyclesTotal + (s.bus.cycle + r.1)
    stepCycles := s.bus.cycle + r.1
    bus := { r.2.bus with stepNo := s.bus.stepNo + 1, cycle := 0, oamPages := [] } }

/-- Finish the step when the instruction gave a next state. -/
def finishResult : Result → Result
  | .next s => .next s.finish
  | .fault r => .fault r
  | .refused r => .refused r

/-! ### Placing an instruction -/

/-- The address holds plain memory that keeps its image: RAM, or the cartridge. -/
def isPlain (addr : Word) : Bool := region addr = .ram || region addr = .cartridge

/-- Where an instruction is placed to run next: at pc, or at 0x8000 if pc points at a device. -/
def State.placeAt (s : State) : Word :=
  if isPlain s.pc && isPlain (s.pc + 1) && isPlain (s.pc + 2) then s.pc else 0x8000

/-- Put bytes at consecutive addresses of RAM or of the cartridge image. -/
def Memory.load : Memory → Word → List Byte → Memory
  | m, _, [] => m
  | m, addr, b :: bs => Memory.load (m.store (memKey addr) b) (addr + 1) bs

end Sys2Proof.Machine
end

