-- ==== Sys2Proof/Machine/Step.lean ====
section
/-! DEFINITION. One step (R12, R144): the boundary's choice, then one interrupt entry, one reset sequence or one
instruction. -/

namespace Sys2Proof.Machine

/-- Fetch, decode and execute the instruction at pc. -/
def runInstruction (s : State) : Host.Outcome State Fault Refusal :=
  match decode s.fetchInstr.1 with
  | some (i, _) => finishResult (exec i s.fetchInstr.2)
  | none => .refused .truncatedFetch

/-- One step. A halted core has none (R157). -/
def step (s : State) : Host.Outcome State Fault Refusal :=
  match s.boundary.action with
  | .halted r => .fault (.illegalOpcode r.addr r.opcode)
  | .reset => .next s.boundary.resetSequence.finish
  | .nmi => .next s.boundary.nmiEntry.finish
  | .irq => .next s.boundary.irqEntry.finish
  | .instruction => runInstruction s.boundary

/-- The state whose very next step fetches and runs an opcode-table word: its bytes stand in memory at pc, nothing is
pending or comes in at the boundary before it, the core is not halted, and the cartridge answers from its image. -/
def State.withFetchWord (s : State) (nbits w : Nat) : State :=
  { s with
    pc := s.placeAt
    halted := none
    nmiPending := false
    irqLine := false
    resetPending := false
    inputs := [.quiet]
    bus := { s.bus with mem := s.bus.mem.load s.placeAt (tableWordBytes nbits w), mapperWrites := [] } }

end Sys2Proof.Machine
end

