-- ==== Sys2Proof/Safety.lean ====
section
/-! DEFINITION. The terms in which claims about the machine are stated: safe runs, the invariant of the state, what an
instruction leaves unchanged, which instructions write which register or flag (spec/10_state.md R13 to R25), and the
cycle table (spec/30_encoding.md R61, spec/70_reset_and_hazards.md R175). -/

namespace Sys2Proof.Machine

/-! ### Runs -/

/-- `n` steps from `s` meet no fault and no refusal, and the last of them raises no IllegalOpcode: a halted state is a
fault, never final (R157; log 12). -/
def SafeFor (n : Nat) (s : State) : Prop := ∃ t, core.run n s = .next t ∧ t.halted = none

/-- The last line of R144's choice, told on the state at the boundary: the core is not halted, no reset and no NMI is
pending, and the IRQ line is 0 or masked by I. Then the step executes the instruction at pc. -/
def State.Uninterrupted (s : State) : Prop :=
  s.halted = none ∧ s.boundary.resetPending = false ∧ s.boundary.nmiPending = false ∧
    (s.boundary.irqLine = false ∨ s.p.i = true)

/-! ### The invariant -/

/-- Every listed key is a key of the map: internal RAM, or the cartridge (R41). -/
def Memory.mapped (m : Memory) : Bool := m.all fun c => c.1 < 0x0800 || (0x4020 ≤ c.1 && c.1 < 0x10000)

/-- The memory is in canonical form and lists only keys that the map has. -/
def State.Inv (s : State) : Prop := s.bus.mem.wf = true ∧ s.bus.mem.mapped = true

/-! ### What an instruction does on the bus -/

/-- Every access made so far, oldest first, as kind and address: the form of the sequences in spec/40_addressing.md. -/
def Bus.accesses (b : Bus) : List (AccessKind × Word) := (b.history.map fun e => (e.kind, e.addr)).reverse

/-- The accesses between `b` and `b'` leave the controllers alone unless one of them goes to a controller port. -/
def Bus.PadsKept (b b' : Bus) : Prop :=
  ∃ new, b'.history = new ++ b.history ∧
    ((∀ e ∈ new, region e.addr ≠ .port1 ∧ region e.addr ≠ .port2) → b'.pad1 = b.pad1 ∧ b'.pad2 = b.pad2)

/-- From `b` to `b'` nothing was stored: every byte of plain memory reads as before, and so does every other register of
the platform, but for the record of accesses and the shift registers that a controller read moves on. -/
structure Bus.ReadOnly (b b' : Bus) : Prop where
  peek         : ∀ a, b'.peek a = b.peek a
  mem          : b'.mem = b.mem
  mapperWrites : b'.mapperWrites = b.mapperWrites
  strobe       : b'.strobe = b.strobe
  latch1       : b'.pad1.latch = b.pad1.latch
  latch2       : b'.pad2.latch = b.pad2.latch
  oamPages     : b'.oamPages = b.oamPages
  stepNo       : b'.stepNo = b.stepNo
  pads         : b.PadsKept b'

/-- A write to `target` may change what a read of `a` gives: the same RAM cell, through any mirror (R42), or, for a
write to the cartridge, any cartridge address (R44). -/
def sharesStorage (target a : Word) : Bool :=
  match region target with
  | .ram => region a = .ram && memKey a = memKey target
  | .cartridge => region a = .cartridge
  | _ => false

/-- From `b` to `b'` nothing was stored to but `targets`: every plain byte that none of them reaches reads as before, and
a register of the platform changes only if one of them is its address. -/
structure Bus.StoresOnlyTo (b b' : Bus) (targets : List Word) : Prop where
  peek         : ∀ a, (∀ t ∈ targets, sharesStorage t a = false) → b'.peek a = b.peek a
  mapperWrites : (∀ t ∈ targets, region t ≠ .cartridge) → b'.mapperWrites = b.mapperWrites
  strobe       : (∀ t ∈ targets, region t ≠ .port1) → b'.strobe = b.strobe
  oamPages     : (∀ t ∈ targets, region t ≠ .oamDma) → b'.oamPages = b.oamPages
  latch1       : b'.pad1.latch = b.pad1.latch
  latch2       : b'.pad2.latch = b.pad2.latch
  stepNo       : b'.stepNo = b.stepNo
  pads         : b.PadsKept b'

/-- The bus activity of an implied or accumulator form after its opcode fetch: the one dummy read of R69. -/
def ImpliedRead (s : State) (bus : Bus) : Prop :=
  bus.accesses = s.bus.accesses ++ [(.read, s.pc)] ∧ bus.cycle = s.bus.cycle + 1 ∧ s.bus.ReadOnly bus

/-- From `s` to `bus` the accesses `l` were made, in order, one cycle each. -/
structure Accessed (s : State) (bus : Bus) (l : List (AccessKind × Word)) : Prop where
  accesses : bus.accesses = s.bus.accesses ++ l
  cycle    : bus.cycle = s.bus.cycle + l.length

/-- The byte `v` was stored at `ea` by the last access, and nowhere else. -/
structure Stored (s : State) (bus : Bus) (ea : Word) (v : Byte) : Prop where
  frame        : s.bus.StoresOnlyTo bus [ea]
  event        : ∃ older, bus.history = ⟨.write, ea, v, s.bus.stepNo, bus.cycle⟩ :: older
  ram          : s.bus.mem.wf = true → region ea = .ram → ∀ a, sharesStorage ea a = true → bus.peek a = some v
  mapperWrites : region ea = .cartridge → bus.mapperWrites = (ea, v) :: s.bus.mapperWrites
  oamPages     : region ea = .oamDma → bus.oamPages = s.bus.oamPages ++ [v]
  strobe       : region ea = .port1 → bus.strobe = v.getLsbD 0

/-- The byte at `ea` was read as `old`, written back unchanged, and then written as `new`, by the last three accesses
(R68), and nothing else was stored to. -/
structure Modified (s : State) (bus : Bus) (ea : Word) (old new : Byte) : Prop where
  frame        : s.bus.StoresOnlyTo bus [ea]
  operand      : ∀ v, s.bus.peek ea = some v → old = v
  events       : ∃ older c, bus.cycle = c + 3 ∧
    bus.history = ⟨.write, ea, new, s.bus.stepNo, c + 3⟩ :: ⟨.write, ea, old, s.bus.stepNo, c + 2⟩ ::
      ⟨.read, ea, old, s.bus.stepNo, c + 1⟩ :: older
  ram          : s.bus.mem.wf = true → region ea = .ram → ∀ a, sharesStorage ea a = true → bus.peek a = some new
  mapperWrites : region ea = .cartridge → bus.mapperWrites = (ea, new) :: (ea, old) :: s.bus.mapperWrites
  oamPages     : region ea = .oamDma → bus.oamPages = s.bus.oamPages ++ [old, new]
  strobe       : region ea = .port1 → bus.strobe = new.getLsbD 0

/-- From `s` to `t` a handler was entered through `vec` (R127, R150): the return address `ret` and the image of P were
pushed, I was set and pc loaded; A, X, Y and every byte outside the three stack bytes are unchanged. -/
structure Entered (s t : State) (ret : Word) (image : Byte) (vec : Word) : Prop where
  high : t.bus.peek (stackAddr s.sp) = some (hiByte ret)
  low  : t.bus.peek (stackAddr (s.sp - 1)) = some (loByte ret)
  p    : t.bus.peek (stackAddr (s.sp - 2)) = some image
  sp   : t.sp = s.sp - 3
  flags : t.p = { s.p with i := true }
  pc   : ∀ lo hi, s.bus.peek vec = some lo → s.bus.peek (vec + 1) = some hi → t.pc = mkWord hi lo
  regs : t.a = s.a ∧ t.x = s.x ∧ t.y = s.y
  frame : ∀ a, sharesStorage (stackAddr s.sp) a = false → sharesStorage (stackAddr (s.sp - 1)) a = false →
    sharesStorage (stackAddr (s.sp - 2)) a = false → t.bus.peek a = s.bus.peek a

/-- N and Z as a result's sign and zero (R8), told by its value; the other flags unchanged. -/
def Flags.withNZ (p : Flags) (v : Byte) : Flags := { p with n := decide (128 ≤ v.toNat), z := decide (v.toNat = 0) }

/-- A carry or borrow as a number. -/
def carryNat (c : Bool) : Nat := if c then 1 else 0

/-! ### The access sequences of spec/40_addressing.md, after the operand bytes -/

/-- R74, R77: the reads of an indexed operand of the read class. -/
def indexedRead (base : Word) (index : Byte) : List (AccessKind × Word) :=
  if 256 ≤ (loByte base).toNat + index.toNat
  then [(.read, mkWord (hiByte base) (loByte base + index)), (.read, base + zext16 index)]
  else [(.read, base + zext16 index)]

/-- R74, R77: the dummy read that the write and read-modify-write classes always make. -/
def indexedDummy (base : Word) (index : Byte) : List (AccessKind × Word) :=
  [(.read, mkWord (hiByte base) (loByte base + index))]

/-- R76, R77: a pointer read from page zero, low byte then high byte, wrapping within the page. -/
def pointerReads (ptr : Byte) : List (AccessKind × Word) := [(.read, mkWord 0x00 ptr), (.read, mkWord 0x00 (ptr + 1))]

/-- The pointer that page zero holds at `ptr` (R76, R77). -/
def Bus.zpPointer (b : Bus) (ptr : Byte) : Word := mkWord (b.mem.lookup (ptr + 1).toNat) (b.mem.lookup ptr.toNat)

/-- The effective address of R66. -/
def effectiveAddress (s : State) (m : MemMode) : Word :=
  match m with
  | .zp a => mkWord 0x00 a
  | .zpx a => mkWord 0x00 (a + s.x)
  | .zpy a => mkWord 0x00 (a + s.y)
  | .abs w => w
  | .absx w => w + zext16 s.x
  | .absy w => w + zext16 s.y
  | .izx p => s.bus.zpPointer (p + s.x)
  | .izy p => s.bus.zpPointer p + zext16 s.y

/-- The read column of R71 to R77. -/
def readSequence (s : State) (m : MemMode) : List (AccessKind × Word) :=
  match m with
  | .zp a => [(.read, mkWord 0x00 a)]
  | .zpx a => [(.read, mkWord 0x00 a), (.read, mkWord 0x00 (a + s.x))]
  | .zpy a => [(.read, mkWord 0x00 a), (.read, mkWord 0x00 (a + s.y))]
  | .abs w => [(.read, w)]
  | .absx w => indexedRead w s.x
  | .absy w => indexedRead w s.y
  | .izx p => (.read, mkWord 0x00 p) :: pointerReads (p + s.x) ++ [(.read, s.bus.zpPointer (p + s.x))]
  | .izy p => pointerReads p ++ indexedRead (s.bus.zpPointer p) s.y

/-- The accesses of a read-class operand after its operand bytes: none for the immediate mode (R70), else the read
column of the memory mode. -/
def operandSequence (s : State) (m : ReadMode) : List (AccessKind × Word) :=
  match m with
  | .imm _ => []
  | .mem mode => readSequence s mode

/-- What the write and read-modify-write columns of R71 to R77 do before the effective address is accessed. -/
def targetSequence (s : State) (m : MemMode) : List (AccessKind × Word) :=
  match m with
  | .zp _ | .abs _ => []
  | .zpx a | .zpy a => [(.read, mkWord 0x00 a)]
  | .absx w => indexedDummy w s.x
  | .absy w => indexedDummy w s.y
  | .izx p => (.read, mkWord 0x00 p) :: pointerReads (p + s.x)
  | .izy p => pointerReads p ++ indexedDummy (s.bus.zpPointer p) s.y

/-- The write column of R71 to R77, after the operand bytes. -/
def writeSequence (s : State) (m : MemMode) : List (AccessKind × Word) :=
  targetSequence s m ++ [(.write, effectiveAddress s m)]

/-- The read-modify-write column of R71 to R74, after the operand bytes. -/
def modifySequence (s : State) (m : MemMode) : List (AccessKind × Word) :=
  targetSequence s m ++ [(.read, effectiveAddress s m), (.write, effectiveAddress s m), (.write, effectiveAddress s m)]

end Sys2Proof.Machine

namespace Sys2Proof

open Machine

/-! ### Which instructions write what -/

/-- A is written by LDA, PLA, TXA, TYA and the arithmetic, logic and accumulator-mode shift instructions (R13). -/
def Instr.writesA : Instr → Bool
  | .lda _ | .pla | .txa | .tya | .adc _ | .sbc _ | .and _ | .ora _ | .eor _
  | .asl .acc | .lsr .acc | .rol .acc | .ror .acc => true
  | _ => false

/-- X is written by LDX, TAX, TSX, INX and DEX (R14). -/
def Instr.writesX : Instr → Bool
  | .ldx _ | .tax | .tsx | .inx | .dex => true
  | _ => false

/-- Y is written by LDY, TAY, INY and DEY (R14). -/
def Instr.writesY : Instr → Bool
  | .ldy _ | .tay | .iny | .dey => true
  | _ => false

/-- S is written by TXS and moved by PHA, PHP, PLA, PLP, JSR, RTS, RTI and BRK (R15). -/
def Instr.writesS : Instr → Bool
  | .txs | .pha | .php | .pla | .plp | .jsr _ | .rts | .rti | .brk => true
  | _ => false

/-- The instructions that call `SetNZ` (R20). -/
def Instr.setsNZ : Instr → Bool
  | .lda _ | .ldx _ | .ldy _ | .tax | .tay | .txa | .tya | .tsx | .pla | .and _ | .ora _ | .eor _ | .adc _ | .sbc _
  | .inc _ | .dec _ | .inx | .iny | .dex | .dey | .asl _ | .lsr _ | .rol _ | .ror _ => true
  | _ => false

/-- The comparisons and BIT (R20, R24). -/
def Instr.tests : Instr → Bool
  | .cmp _ | .cpx _ | .cpy _ | .bit _ => true
  | _ => false

/-- The instructions that load P from the stack (R19). -/
def Instr.loadsP : Instr → Bool
  | .plp | .rti => true
  | _ => false

/-- V: ADC, SBC, BIT, CLV, PLP and RTI (R21). -/
def Instr.writesV : Instr → Bool
  | .adc _ | .sbc _ | .bit _ | .clv | .plp | .rti => true
  | _ => false

/-- D: SED, CLD, PLP and RTI (R22). -/
def Instr.writesD : Instr → Bool
  | .sed | .cld | .plp | .rti => true
  | _ => false

/-- I: SEI, CLI, PLP, RTI and BRK (R23). -/
def Instr.writesI : Instr → Bool
  | .sei | .cli | .plp | .rti | .brk => true
  | _ => false

/-- C: ADC, SBC, the comparisons, the shifts and rotates, SEC, CLC, PLP and RTI (R25). -/
def Instr.writesC : Instr → Bool
  | .adc _ | .sbc _ | .cmp _ | .cpx _ | .cpy _ | .asl _ | .lsr _ | .rol _ | .ror _ | .sec | .clc | .plp | .rti => true
  | _ => false

/-- The instructions that make a bus write: the write and read-modify-write classes (R68), and those that push. -/
def Instr.stores : Instr → Bool
  | .sta _ | .stx _ | .sty _ | .inc _ | .dec _ | .asl (.mem _) | .lsr (.mem _) | .rol (.mem _) | .ror (.mem _)
  | .pha | .php | .jsr _ | .brk => true
  | _ => false

/-! ### The cycle table -/

/-- The base cycle counts of R61, one list of sixteen for each high nibble; 1 for an undocumented opcode (R175). -/
def cycleMap : List (List Nat) :=
  [ [7, 6, 1, 1, 1, 3, 5, 1, 3, 2, 2, 1, 1, 4, 6, 1], [2, 5, 1, 1, 1, 4, 6, 1, 2, 4, 1, 1, 1, 4, 7, 1],
    [6, 6, 1, 1, 3, 3, 5, 1, 4, 2, 2, 1, 4, 4, 6, 1], [2, 5, 1, 1, 1, 4, 6, 1, 2, 4, 1, 1, 1, 4, 7, 1],
    [6, 6, 1, 1, 1, 3, 5, 1, 3, 2, 2, 1, 3, 4, 6, 1], [2, 5, 1, 1, 1, 4, 6, 1, 2, 4, 1, 1, 1, 4, 7, 1],
    [6, 6, 1, 1, 1, 3, 5, 1, 4, 2, 2, 1, 5, 4, 6, 1], [2, 5, 1, 1, 1, 4, 6, 1, 2, 4, 1, 1, 1, 4, 7, 1] ] ++
  [ [1, 6, 1, 1, 3, 3, 3, 1, 2, 1, 2, 1, 4, 4, 4, 1], [2, 6, 1, 1, 4, 4, 4, 1, 2, 5, 2, 1, 1, 5, 1, 1],
    [2, 6, 2, 1, 3, 3, 3, 1, 2, 2, 2, 1, 4, 4, 4, 1], [2, 5, 1, 1, 4, 4, 4, 1, 2, 4, 2, 1, 4, 4, 4, 1],
    [2, 6, 1, 1, 3, 3, 5, 1, 2, 2, 2, 1, 4, 4, 6, 1], [2, 5, 1, 1, 1, 4, 6, 1, 2, 4, 1, 1, 1, 4, 7, 1],
    [2, 6, 1, 1, 3, 3, 5, 1, 2, 2, 2, 1, 4, 4, 6, 1], [2, 5, 1, 1, 1, 4, 6, 1, 2, 4, 1, 1, 1, 4, 7, 1] ]

/-- The base cycle count of an opcode (R61, R175). -/
def baseCycles (op : Byte) : Nat := (cycleMap.getD (op.toNat / 16) []).getD (op.toNat % 16) 0

/-- The page-crossing cycle of a read-class operand (R75): one in abs,X, abs,Y and (zp),Y when the low byte of the base
and the index together carry. -/
def ReadMode.pageCycle (m : ReadMode) (s : State) : Nat :=
  match m with
  | .mem (.absx w) => if 256 ≤ (loByte w).toNat + s.x.toNat then 1 else 0
  | .mem (.absy w) => if 256 ≤ (loByte w).toNat + s.y.toNat then 1 else 0
  | .mem (.izy p) => if 256 ≤ (s.bus.mem.lookup p.toNat).toNat + s.y.toNat then 1 else 0
  | _ => 0

/-- The extra cycles of a branch (R113): one when taken, one more when the target lies in another page than pc. -/
def branchCycles (taken : Bool) (pc : Word) (off : Byte) : Nat :=
  if taken then (if (pc + sext16 off).toNat / 256 = pc.toNat / 256 then 1 else 2) else 0

/-- The cycles an instruction takes beyond its base count, in the state after its bytes were fetched (R75, R113). -/
def Instr.extraCycles (i : Instr) (s : State) : Nat :=
  match i with
  | .lda m | .ldx m | .ldy m | .adc m | .sbc m | .and m | .ora m | .eor m | .cmp m | .cpx m | .cpy m | .bit m =>
    m.pageCycle s
  | .bpl off => branchCycles (!s.p.n) s.pc off
  | .bmi off => branchCycles s.p.n s.pc off
  | .bvc off => branchCycles (!s.p.v) s.pc off
  | .bvs off => branchCycles s.p.v s.pc off
  | .bcc off => branchCycles (!s.p.c) s.pc off
  | .bcs off => branchCycles s.p.c s.pc off
  | .bne off => branchCycles (!s.p.z) s.pc off
  | .beq off => branchCycles s.p.z s.pc off
  | _ => 0

/-- The bytes an instruction has on the bus before it executes: its own, but for JSR's last one (R51, R67). -/
def fetchedLength (i : Instr) : Nat :=
  match i with
  | .jsr _ => 2
  | _ => (encode i).length

end Sys2Proof
end

