-- ==== Sys2Proof/Certificates/Slice0/Obligations.lean ====
section
/-! DEFINITION. The statements for the provers. Each is about every state, reachable or not, unless a hypothesis says
otherwise. -/

open Sys2Proof Sys2Proof.Machine

/-! ### Encoding (spec/30_encoding.md) -/

/-- R53, R61: the bytes of every instruction the table has, followed by anything, decode to that instruction, and what
follows is left over. -/
def Obligations.DecodeOfEncodeIsTheInstruction : Prop :=
  ∀ (i : Instr) (rest : List Byte), i.wf = true → decode (encode i ++ rest) = some (i, rest)

/-- R53, R61, R62: whatever decodes is an instruction the table has, and its bytes are the ones that were read. -/
def Obligations.EncodeOfDecodeIsTheBytes : Prop :=
  ∀ (bytes : List Byte) (i : Instr) (rest : List Byte), decode bytes = some (i, rest) →
    i.wf = true ∧ encode i ++ rest = bytes

/-- R62, R63: each of the 105 undocumented values decodes to the illegal instruction, with length 1, and no other value
does. -/
def Obligations.EveryOpcodeIsDocumentedOrIllegal : Prop :=
  undocumentedOpcodes.length = 105 ∧ undocumentedOpcodes.Nodup ∧
  ∀ (op : Byte) (rest : List Byte),
    (op ∈ undocumentedOpcodes → decode (op :: rest) = some (.illegal op, rest)) ∧
    (op ∉ undocumentedOpcodes → ∀ o r, decode (op :: rest) ≠ some (.illegal o, r))

/-- R64: two instructions with the same opcode byte have the same length, which is one more than the operand count the
opcode's entry asks for (R54). -/
def Obligations.OpcodeByteFixesTheLength : Prop :=
  (∀ (op : Byte) (operands : List Byte) (i : Instr), i.wf = true → encode i = op :: operands →
    operands.length = operandCount op) ∧
  ∀ (i j : Instr), i.wf = true → j.wf = true → (encode i).head? = (encode j).head? →
    (encode i).length = (encode j).length

/-- R61, R65: words written out bit by bit from the opcode map decode to the instructions they stand for. -/
def Obligations.SampleWordsDecode : Prop :=
  decode [0b10101001, 0b00010000] = some (.lda (.imm 0x10), []) ∧
  decode [0b10111101, 0b00110100, 0b00010010] = some (.lda (.mem (.absx 0x1234)), []) ∧
  decode [0b10110110, 0b00010000] = some (.ldx (.mem (.zpy 0x10)), []) ∧
  decode [0b10010001, 0b00010000] = some (.sta (.izy 0x10), []) ∧
  decode [0b01100001, 0b00010000] = some (.adc (.mem (.izx 0x10)), []) ∧
  decode [0b11101110, 0b00110100, 0b00010010] = some (.inc (.abs 0x1234), []) ∧
  decode [0b01101010] = some (.ror .acc, []) ∧
  decode [0b11010000, 0b11111001] = some (.bne 0xF9, []) ∧
  decode [0b01101100, 0b00110100, 0b00010010] = some (.jmp (.ind 0x1234), []) ∧
  decode [0b00100000, 0b00001100, 0b10000000] = some (.jsr 0x800C, []) ∧
  decode [0b00000000] = some (.brk, []) ∧
  decode [0b00101000] = some (.plp, []) ∧
  decode [0b00000010] = some (.illegal 0x02, [])

/-! ### The step (spec/60_exceptions.md R144, spec/40_addressing.md R67) -/

/-- R16, R67, R144: when the core is not halted, no reset or NMI is pending at the boundary and the IRQ line is 0 or masked,
and the bytes at pc are plain memory holding a well-formed instruction, the step reads its bytes in order, one cycle each, moves pc past them and runs exactly that
instruction, then ends the step. (JSR's last byte is not among the bytes read first: R124.) -/
def Obligations.StepRunsTheDecodedInstruction : Prop :=
  ∀ (s : State) (i : Instr), i.wf = true → s.Uninterrupted →
    (∀ k < (encode i).length, s.bus.peek (s.pc + BitVec.ofNat 16 k) = (encode i)[k]?) →
    ∃ bus, step s = finishResult (exec i
        { s.boundary with pc := s.pc + BitVec.ofNat 16 (fetchedLength i), bus := bus }) ∧
      s.boundary.bus.ReadOnly bus ∧ bus.cycle = fetchedLength i ∧
      bus.accesses = s.bus.accesses ++
        (List.range (fetchedLength i)).map fun k => (.read, s.pc + BitVec.ofNat 16 k)

/-- R142, R157: every instruction completes. From a state with no fault record a step always gives a next state, and no
step is ever refused. -/
def Obligations.EveryStepOfARunningCoreCompletes : Prop :=
  (∀ (i : Instr) (s : State), ∃ t, exec i s = .next t) ∧
  (∀ s : State, s.halted = none → ∃ t, step s = .next t) ∧
  ∀ (s : State) (r : Refusal), step s ≠ .refused r

/-- R157: the illegal instruction, whose meaning starts with pc one past its opcode, halts the core with the record of
address and opcode; a halted core has no step: it takes no interrupt, no reset and no instruction, whatever is pending.
(That the halting step is itself a next state and the fault is the answer of the steps after it is the model's reading,
log 12.) -/
def Obligations.HaltedCoreHasNoStep : Prop :=
  (∀ (op : Byte) (s : State) (k : Word), s.pc = k + 1 → ∃ t, exec (.illegal op) s = .next t ∧ t.halted = some ⟨k, op⟩) ∧
  ∀ (s : State) (r : FaultRecord), s.halted = some r → step s = .fault (.illegalOpcode r.addr r.opcode)

/-- R168, R167: the reset sequence. It comes before any interrupt and any instruction. -/
def Obligations.ResetSequenceIsSevenReads : Prop :=
  ∀ s : State, s.halted = none → s.boundary.resetPending = true →
    ∃ t, step s = .next t ∧
      t.bus.accesses = s.bus.accesses ++
        [(.read, s.pc), (.read, s.pc), (.read, stackAddr s.sp), (.read, stackAddr (s.sp - 1)),
         (.read, stackAddr (s.sp - 2)), (.read, 0xFFFC), (.read, 0xFFFD)] ∧
      t.stepCycles = 7 ∧ t.cyclesTotal = s.cyclesTotal + 7 ∧ t.resetPending = false ∧ t.nmiPending = false ∧
      t.irqLine = s.boundary.irqLine ∧ t.halted = none ∧ t.sp = s.sp - 3 ∧ t.p = { s.p with i := true } ∧
      t.a = s.a ∧ t.x = s.x ∧ t.y = s.y ∧ t.bus.strobe = s.bus.strobe ∧ t.bus.mapperWrites = s.bus.mapperWrites ∧
      (∀ lo hi, s.bus.peek 0xFFFC = some lo → s.bus.peek 0xFFFD = some hi → t.pc = mkWord hi lo) ∧
      ∀ a, t.bus.peek a = s.bus.peek a

/-- R165, R168, R32: for every power-on draw and every cartridge, the first step is the reset sequence and leaves
S = 0xFD, I = 1, seven cycles counted, pc at the RESET vector and the drawn registers unchanged. -/
def Obligations.PowerOnRunsTheResetSequence : Prop :=
  ∀ d : PowerOn, ∃ t, step (State.powerOn d) = .next t ∧
    t.a = d.a ∧ t.x = d.x ∧ t.y = d.y ∧ t.p = { d.p with i := true } ∧ t.sp = 0xFD ∧
    t.pc = mkWord (d.mem.lookup 0xFFFD) (d.mem.lookup 0xFFFC) ∧ t.cyclesTotal = 7 ∧ t.nmiPending = false ∧
    t.resetPending = false ∧ t.halted = none ∧ t.bus.mem = d.mem ∧
    t.bus.accesses = [(.read, d.pc), (.read, d.pc), (.read, 0x0100), (.read, 0x01FF), (.read, 0x01FE),
      (.read, 0xFFFC), (.read, 0xFFFD)]

/-- R149, R150, R151: NMI service, whatever I is and whatever the IRQ line says. -/
def Obligations.NmiEntersThroughItsVector : Prop :=
  ∀ s : State, s.Inv → s.halted = none → s.boundary.resetPending = false → s.boundary.nmiPending = true →
    ∃ t, step s = .next t ∧ Entered s t s.pc (s.p.image false) 0xFFFA ∧ t.nmiPending = false ∧
      t.irqLine = s.boundary.irqLine ∧ t.resetPending = false ∧ t.halted = none ∧ t.stepCycles = 7 ∧
      t.bus.strobe = s.bus.strobe ∧ t.bus.mapperWrites = s.bus.mapperWrites ∧
      t.cyclesTotal = s.cyclesTotal + 7 ∧
      t.bus.accesses = s.bus.accesses ++
        [(.read, s.pc), (.read, s.pc), (.write, stackAddr s.sp), (.write, stackAddr (s.sp - 1)),
         (.write, stackAddr (s.sp - 2)), (.read, 0xFFFA), (.read, 0xFFFB)]

/-- R148, R150: IRQ service, when nothing of higher priority is pending and I is 0. -/
def Obligations.IrqEntersThroughItsVector : Prop :=
  ∀ s : State, s.Inv → s.halted = none → s.boundary.resetPending = false → s.boundary.nmiPending = false →
    s.boundary.irqLine = true → s.p.i = false →
    ∃ t, step s = .next t ∧ Entered s t s.pc (s.p.image false) 0xFFFE ∧ t.nmiPending = false ∧
      t.irqLine = true ∧ t.resetPending = false ∧ t.halted = none ∧ t.stepCycles = 7 ∧
      t.bus.strobe = s.bus.strobe ∧ t.bus.mapperWrites = s.bus.mapperWrites ∧
      t.cyclesTotal = s.cyclesTotal + 7 ∧
      t.bus.accesses = s.bus.accesses ++
        [(.read, s.pc), (.read, s.pc), (.write, stackAddr s.sp), (.write, stackAddr (s.sp - 1)),
         (.write, stackAddr (s.sp - 2)), (.read, 0xFFFE), (.read, 0xFFFF)]

/-- R144, R155: I masks IRQ at every boundary. When CLI, SEI, PLP or RTI ends with the IRQ line at 1 and nothing of higher
priority pending, the very next step is the IRQ entry if the instruction left I = 0, and an instruction if it left I = 1. -/
def Obligations.InterruptMaskActsAtTheNextBoundary : Prop :=
  (∀ s : State, s.p.i = true → s.boundary.action ≠ .irq) ∧
  ∀ i ∈ [Instr.cli, .sei, .plp, .rti], ∀ s t : State, exec i s = .next t → s.halted = none →
    t.finish.boundary.resetPending = false → t.finish.boundary.nmiPending = false → t.finish.boundary.irqLine = true →
    (i = .cli → t.p.i = false) ∧ (i = .sei → t.p.i = true) ∧
    (t.p.i = false → step t.finish = .next t.finish.boundary.irqEntry.finish) ∧
    (t.p.i = true → step t.finish = runInstruction t.finish.boundary)

/-! ### Invariants -/

/-- The memory keeps its canonical form and lists only keys of the address map, whatever a step does (R41, R42; log 1 for
the form). -/
def Obligations.EveryStepKeepsTheMemoryInvariant : Prop :=
  ∀ s t : State, s.Inv → step s = .next t → t.Inv

/-- The state after reset, and every power-on state whose memory meets it, meet the memory invariant. -/
def Obligations.ResetMeetsTheMemoryInvariant : Prop :=
  State.reset.Inv ∧
    ∀ d : PowerOn, d.mem.wf = true → d.mem.mapped = true → (State.powerOn d).Inv

/-- R67, R26, R46, R175: a step counts one cycle for each of its own accesses and 513 or 514 for each sprite-memory copy
it starts, whose 512 accesses come on top; `cycles_total` grows by exactly the count the step returns. (That each of two
writes to 0x4014 in one step starts a copy is the model's choice, log 9.) -/
def Obligations.EveryStepCountsItsAccesses : Prop :=
  ∀ s t : State, step s = .next t →
    t.cyclesTotal = s.cyclesTotal + t.stepCycles ∧
    ∃ new stall, t.bus.accesses = s.bus.accesses ++ new ∧
      t.stepCycles + 512 * new.count (.write, 0x4014) = new.length + stall ∧
      513 * new.count (.write, 0x4014) ≤ stall ∧ stall ≤ 514 * new.count (.write, 0x4014)

/-- R33, R48: the accesses of all steps form one order. A step adds its accesses after all earlier ones, each with the
step's number and cycle indices 1, 2, 3, ..., and the next step has the next number. (That the accesses of a sprite-memory
copy go on counting is the model's choice, log 9.) -/
def Obligations.EveryStepNumbersItsAccesses : Prop :=
  ∀ s t : State, step s = .next t → t.bus.stepNo = s.bus.stepNo + 1 ∧
    ∃ new, t.bus.history = new ++ s.bus.history ∧
      ∀ k e, new.reverse[k]? = some e → e.step = s.bus.stepNo ∧ e.index = k + 1

/-! ### Rules over all instructions (spec/10_state.md) -/

/-- R26 to R29: no instruction writes the cycle counter, the NMI latch, the IRQ line or the reset latch; only the illegal
instruction halts the core. The inputs reach the core at the step boundary: an NMI raise and a reset request set their
latches, and merge with one already set (R27, R145, R29, R164); the IRQ line takes its level, whatever it was (R28, R146);
a byte that the host writes becomes the port's latch, and the latest wins (R47); nothing else changes. Where no input is
given, the latches stay. (That inputs are a list, one for each boundary, and land there and nowhere else is the model's
choice, logs 8 and 17.) -/
def Obligations.InstructionsLeaveTheInputsAlone : Prop :=
  (∀ (i : Instr) (s t : State), exec i s = .next t →
    t.cyclesTotal = s.cyclesTotal ∧ t.nmiPending = s.nmiPending ∧ t.irqLine = s.irqLine ∧
    t.resetPending = s.resetPending ∧ t.inputs = s.inputs ∧ t.bus.stepNo = s.bus.stepNo ∧
    ((∀ op, i ≠ .illegal op) → t.halted = s.halted)) ∧
  (∀ (s : State) (e : BoundaryInput) (rest : List BoundaryInput), s.inputs = e :: rest →
    (s.boundary.nmiPending = true ↔ s.nmiPending = true ∨ e.nmi = true) ∧ s.boundary.irqLine = e.irq ∧
    (s.boundary.resetPending = true ↔ s.resetPending = true ∨ e.reset = true) ∧ s.boundary.inputs = rest ∧
    s.boundary.bus.pad1 = { s.bus.pad1 with latch := e.pad1.getD s.bus.pad1.latch } ∧
    s.boundary.bus.pad2 = { s.bus.pad2 with latch := e.pad2.getD s.bus.pad2.latch }) ∧
  (∀ s : State, s.inputs = [] →
    s.boundary.nmiPending = s.nmiPending ∧ s.boundary.resetPending = s.resetPending ∧ s.boundary.inputs = [] ∧
    s.boundary.bus.pad1 = s.bus.pad1 ∧ s.boundary.bus.pad2 = s.bus.pad2) ∧
  ∀ s : State, s.boundary = { s with
    nmiPending := s.boundary.nmiPending
    irqLine := s.boundary.irqLine
    resetPending := s.boundary.resetPending
    inputs := s.boundary.inputs
    bus := { s.bus with
      pad1 := s.boundary.bus.pad1
      pad2 := s.boundary.bus.pad2
      cycle := 0
      oamPages := [] } }

/-- R13, R14, R15: A, X, Y and S are written by no instruction but those the rules list. -/
def Obligations.OnlyTheirWritersChangeRegisters : Prop :=
  ∀ (i : Instr) (s t : State), exec i s = .next t →
    (i.writesA = false → t.a = s.a) ∧ (i.writesX = false → t.x = s.x) ∧ (i.writesY = false → t.y = s.y) ∧
    (i.writesS = false → t.sp = s.sp)

/-- R20 to R25: each flag is written by no instruction but those the rules list. -/
def Obligations.OnlyTheirWritersChangeFlags : Prop :=
  ∀ (i : Instr) (s t : State), exec i s = .next t →
    (i.setsNZ = false → i.tests = false → i.loadsP = false → t.p.n = s.p.n ∧ t.p.z = s.p.z) ∧
    (i.writesV = false → t.p.v = s.p.v) ∧ (i.writesD = false → t.p.d = s.p.d) ∧
    (i.writesI = false → t.p.i = s.p.i) ∧ (i.writesC = false → t.p.c = s.p.c)

/-- R68: an instruction outside the write and read-modify-write classes that pushes nothing leaves every byte of memory
and every platform register as it was. -/
def Obligations.OnlyStoringInstructionsChangeMemory : Prop :=
  ∀ (i : Instr) (s t : State), exec i s = .next t → i.stores = false → s.bus.ReadOnly t.bus

/-- R22: D is read only when P is pushed. Every instruction but PHP and BRK does the same whatever D is, and leaves D as it
was unless it is one of D's writers. -/
def Obligations.DecimalFlagIsReadOnlyWhenPushed : Prop :=
  ∀ (i : Instr) (s t : State) (d : Bool), i ≠ .php → i ≠ .brk → exec i s = .next t →
    exec i (s.setP { s.p with d := d }) =
      .next (if i.writesD then t else t.setP { t.p with d := d })

/-! ### Addressing modes and access sequences (spec/40_addressing.md) -/

/-- R66, R76, R77: the effective address of every mode, with the zero-page wraps; finding it changes no register and
stores nothing. -/
def Obligations.EffectiveAddressesFollowTheModes : Prop :=
  ∀ (s : State) (m : MemMode),
    (s.resolve m).1.addr = effectiveAddress s m ∧ (s.target m).1 = effectiveAddress s m ∧
    (∃ bus, (s.target m).2 = { s with bus := bus } ∧ s.bus.ReadOnly bus) ∧
    (∀ a, m = .zpx a → (effectiveAddress s m).toNat = (a.toNat + s.x.toNat) % 256) ∧
    (∀ w, m = .absx w → (effectiveAddress s m).toNat = (w.toNat + s.x.toNat) % 65536) ∧
    (∀ p, m = .izy p → (effectiveAddress s m).toNat =
      ((s.bus.mem.lookup ((p.toNat + 1) % 256)).toNat * 256 + (s.bus.mem.lookup p.toNat).toNat + s.y.toNat) % 65536)

/-- R68, R70 to R77: a read-class operand is the immediate byte, or the byte that stands at the effective address; reading
it changes no register and stores nothing. -/
def Obligations.ReadOperandIsTheByteAtTheAddress : Prop :=
  (∀ (s : State) (v : Byte), s.readOperand (.imm v) = (v, s)) ∧
  ∀ (s : State) (m : MemMode), ∃ v bus, s.readOperand (.mem m) = (v, { s with bus := bus }) ∧ s.bus.ReadOnly bus ∧
    ∀ w, s.bus.peek (effectiveAddress s m) = some w → v = w

/-- R71 to R77, read columns: the accesses of a read-class operand, in order. -/
def Obligations.ReadClassFollowsItsSequence : Prop :=
  ∀ (s : State) (m : MemMode),
    (s.readMem m).2.bus.accesses = s.bus.accesses ++ readSequence s m ∧
    (s.readMem m).2.bus.cycle = s.bus.cycle + (readSequence s m).length

/-- R71 to R77, write columns: the accesses of a store, in order; the dummy read of an indexed store is always made, and
the effective address is never read. -/
def Obligations.WriteClassFollowsItsSequence : Prop :=
  ∀ (s : State) (m : MemMode) (v : Byte),
    (s.storeOperand m v).bus.accesses =
      s.bus.accesses ++ targetSequence s m ++ [(.write, effectiveAddress s m)] ∧
    (s.storeOperand m v).bus.cycle = s.bus.cycle + (targetSequence s m).length + 1

/-- R68, R71 to R74, read-modify-write columns: read, dummy write, write. -/
def Obligations.ModifyClassFollowsItsSequence : Prop :=
  ∀ (s : State) (m : MemMode) (f : Byte → Byte),
    (s.modifyMem m f).2.bus.accesses = s.bus.accesses ++ targetSequence s m ++
      [(.read, effectiveAddress s m), (.write, effectiveAddress s m), (.write, effectiveAddress s m)] ∧
    (s.modifyMem m f).2.bus.cycle = s.bus.cycle + (targetSequence s m).length + 3

/-- R175, R75, R113, R61: a step that runs an instruction returns the cycle count of the table for its opcode, plus one for
a page crossing of a read-class operand, plus one or two for a taken branch, plus the stall of each copy it starts. -/
def Obligations.InstructionStepsTakeTheTableCycles : Prop :=
  ∀ (s : State) (i : Instr) (rest : List Byte), s.Uninterrupted →
    decode s.boundary.fetchInstr.1 = some (i, rest) →
    ∃ t new stall, step s = .next t ∧ t.bus.accesses = s.bus.accesses ++ new ∧
      t.stepCycles = baseCycles (s.boundary.fetch.1) + i.extraCycles s.boundary.fetchInstr.2 + stall ∧
      513 * new.count (.write, 0x4014) ≤ stall ∧ stall ≤ 514 * new.count (.write, 0x4014)

/-! ### The platform (spec/20_memory.md) -/

/-- R42, R48: a byte written to internal RAM is read back through every mirror of its cell, until another write to the
cell; a write to another cell leaves it. (The premise is the memory's canonical form, log 1.) -/
def Obligations.RamIsReadBackThroughEveryMirror : Prop :=
  (∀ (s : State) (a b : Word) (v : Byte), s.Inv → a.toNat < 0x2000 → b.toNat < 0x2000 →
    a.toNat % 0x0800 = b.toNat % 0x0800 → ((s.write a v).read b).1 = v) ∧
  ∀ (s : State) (a b : Word) (v : Byte), a.toNat < 0x2000 → b.toNat < 0x2000 →
    a.toNat % 0x0800 ≠ b.toNat % 0x0800 → ((s.write a v).read b).1 = (s.read b).1

/-- R47: after the strobe was written 1 and then 0, reads of a port give the latch's bits from bit 7 down to bit 0, then 1;
while the strobe is 1 every read of either port gives its latch's bit 7. -/
def Obligations.ControllerReadsShiftTheButtonsOut : Prop :=
  ∀ (s : State) (on off : Byte), on.getLsbD 0 = true → off.getLsbD 0 = false →
    (∀ n, (((fun t : State => t.dummyRead 0x4016)^[n] ((s.write 0x4016 on).write 0x4016 off)).read 0x4016).1.getLsbD 0 =
      if n < 8 then s.bus.pad1.latch.getLsbD (7 - n) else true) ∧
    (∀ n, (((fun t : State => t.dummyRead 0x4017)^[n] ((s.write 0x4016 on).write 0x4016 off)).read 0x4017).1.getLsbD 0 =
      if n < 8 then s.bus.pad2.latch.getLsbD (7 - n) else true) ∧
    (∀ n, (((fun t : State => t.dummyRead 0x4016)^[n] (s.write 0x4016 on)).read 0x4016).1.getLsbD 0 =
      s.bus.pad1.latch.getLsbD 7) ∧
    (∀ n, (((fun t : State => t.dummyRead 0x4017)^[n] (s.write 0x4016 on)).read 0x4017).1.getLsbD 0 =
      s.bus.pad2.latch.getLsbD 7)

/-- R46, R173: a write to 0x4014 starts a copy, and a step that wrote one page number there ends by reading the 256 bytes
of that page in order and writing each to 0x2004 after it is read; it adds 513 or 514 cycles and stores nothing in memory.
Each write carries the byte just read, which is the page's own where the page is plain memory.
The core does nothing else meanwhile: whatever copies a step makes, every register, flag, latch and the halt record stay. -/
def Obligations.SpriteCopyMovesAPage : Prop :=
  (∀ (s : State) (page : Byte), (s.write 0x4014 page).bus.oamPages = s.bus.oamPages ++ [page]) ∧
  (∀ s : State, s.finish =
    { s with cyclesTotal := s.finish.cyclesTotal, stepCycles := s.finish.stepCycles, bus := s.finish.bus }) ∧
  ∀ (s : State) (page : Byte), s.bus.oamPages = [page] →
    s.finish.bus.accesses = s.bus.accesses ++ (List.range 256).flatMap (fun k =>
      [(.read, mkWord page (BitVec.ofNat 8 k)), (.write, 0x2004)]) ∧
    (s.finish.stepCycles = s.bus.cycle + 513 ∨ s.finish.stepCycles = s.bus.cycle + 514) ∧
    s.finish.cyclesTotal = s.cyclesTotal + s.finish.stepCycles ∧
    (∀ a, s.finish.bus.peek a = s.bus.peek a) ∧
    ∃ bytes : Nat → Byte,
      s.finish.bus.history.map BusEvent.value =
        ((List.range 256).flatMap fun k => [bytes k, bytes k]).reverse ++ s.bus.history.map BusEvent.value ∧
      ∀ k < 256, ∀ b, s.bus.peek (mkWord page (BitVec.ofNat 8 k)) = some b → bytes k = b

/-- R41: a picture-unit register answers the same through each of its mirrors. R41, R43, ID9 (logs 6, 10 and 15 for the devices' answers and effects): a write to a picture-unit register, to 0x4017 or to an audio or test register changes nothing but the
record of accesses, and so does every read but a controller read. -/
def Obligations.DeviceAccessesOnlyLeaveARecord : Prop :=
  (∀ (s : State) (a b : Word), (0x2000 ≤ a.toNat ∧ a.toNat < 0x4000) → (0x2000 ≤ b.toNat ∧ b.toNat < 0x4000) →
    a.toNat % 8 = b.toNat % 8 → (s.read a).1 = (s.read b).1) ∧
  (∀ (s : State) (a : Word) (v : Byte), (0x2000 ≤ a.toNat ∧ a.toNat < 0x4020) → a.toNat ≠ 0x4014 → a.toNat ≠ 0x4016 →
    s.write a v = { s with bus := { s.bus with
      history := ⟨.write, a, v, s.bus.stepNo, s.bus.cycle + 1⟩ :: s.bus.history, cycle := s.bus.cycle + 1 } }) ∧
  ∀ (s : State) (a : Word), a.toNat ≠ 0x4016 → a.toNat ≠ 0x4017 →
    (s.read a).2 = { s with bus := { s.bus with
      history := ⟨.read, a, (s.read a).1, s.bus.stepNo, s.bus.cycle + 1⟩ :: s.bus.history, cycle := s.bus.cycle + 1 } }

/-! ### Loads, stores and transfers (spec/41_load_store_transfer.md) -/

/-- R79, R80, R81: a load puts its operand in its register, sets N and Z from it, and changes nothing else; its accesses
are its mode's (R70 to R77). -/
def Obligations.LoadsPutTheOperandInTheRegister : Prop :=
  ∀ (m : ReadMode) (s : State), ∃ bus, s.bus.ReadOnly bus ∧ Accessed s bus (operandSequence s m) ∧
    exec (.lda m) s =
      .next { s with a := (s.readOperand m).1, p := s.p.withNZ (s.readOperand m).1, bus := bus } ∧
    exec (.ldx m) s =
      .next { s with x := (s.readOperand m).1, p := s.p.withNZ (s.readOperand m).1, bus := bus } ∧
    exec (.ldy m) s =
      .next { s with y := (s.readOperand m).1, p := s.p.withNZ (s.readOperand m).1, bus := bus }

/-- R82, R83, R84: a store writes its register at the effective address; no register and no flag changes; its
accesses are its mode's write column (R71 to R77). -/
def Obligations.StoresWriteTheRegister : Prop :=
  ∀ (m : MemMode) (s : State),
    (∃ bus, exec (.sta m) s = .next { s with bus := bus } ∧ Stored s bus (s.target m).1 s.a ∧
      Accessed s bus (writeSequence s m)) ∧
    (∃ bus, exec (.stx m) s = .next { s with bus := bus } ∧ Stored s bus (s.target m).1 s.x ∧
      Accessed s bus (writeSequence s m)) ∧
    (∃ bus, exec (.sty m) s = .next { s with bus := bus } ∧ Stored s bus (s.target m).1 s.y ∧
      Accessed s bus (writeSequence s m))

/-- R85 to R90, R69: the transfers, each with its opcode and its two cycles; TXS alone sets no flag. -/
def Obligations.TransfersCopyARegister : Prop :=
  decode [0xAA] = some (.tax, []) ∧ decode [0xA8] = some (.tay, []) ∧ decode [0x8A] = some (.txa, []) ∧
  decode [0x98] = some (.tya, []) ∧ decode [0xBA] = some (.tsx, []) ∧ decode [0x9A] = some (.txs, []) ∧
  ∀ s : State, ∃ bus, ImpliedRead s bus ∧
    exec .tax s = .next { s with x := s.a, p := s.p.withNZ s.a, bus := bus } ∧
    exec .tay s = .next { s with y := s.a, p := s.p.withNZ s.a, bus := bus } ∧
    exec .txa s = .next { s with a := s.x, p := s.p.withNZ s.x, bus := bus } ∧
    exec .tya s = .next { s with a := s.y, p := s.p.withNZ s.y, bus := bus } ∧
    exec .tsx s = .next { s with x := s.sp, p := s.p.withNZ s.sp, bus := bus } ∧
    exec .txs s = .next { s with sp := s.x, bus := bus }

/-! ### Arithmetic and logic (spec/42_arith_logic.md) -/

/-- R91: V is 1 exactly when the signed sum with the carry lies outside [-128, 127]; the result and the carry out are the
integer sum's low eight bits and its ninth. -/
def Obligations.AdderMatchesTheIntegers : Prop :=
  ∀ (a b : Byte) (c : Bool),
    (addResult a b c).toNat = (a.toNat + b.toNat + carryNat c) % 256 ∧
    (addCarry a b c = true ↔ 256 ≤ a.toNat + b.toNat + carryNat c) ∧
    (addOverflow a b c = true ↔ ¬(-128 ≤ a.toInt + b.toInt + carryNat c ∧ a.toInt + b.toInt + carryNat c ≤ 127))

/-- R92: ADC in every mode, told on the integers. D is not read. -/
def Obligations.AdcAddsWithCarry : Prop :=
  ∀ (m : ReadMode) (s : State), ∃ bus r, exec (.adc m) s = .next { s with
      a := r
      p := { s.p.withNZ r with
        c := decide (256 ≤ s.a.toNat + (s.readOperand m).1.toNat + carryNat s.p.c)
        v := decide (¬(-128 ≤ s.a.toInt + (s.readOperand m).1.toInt + carryNat s.p.c ∧
          s.a.toInt + (s.readOperand m).1.toInt + carryNat s.p.c ≤ 127)) }
      bus := bus } ∧
    r.toNat = (s.a.toNat + (s.readOperand m).1.toNat + carryNat s.p.c) % 256 ∧ s.bus.ReadOnly bus ∧
    Accessed s bus (operandSequence s m)

/-- R93: SBC in every mode, told on the integers as the rule's equivalent form. D is not read. -/
def Obligations.SbcSubtractsWithBorrow : Prop :=
  ∀ (m : ReadMode) (s : State), ∃ bus r, exec (.sbc m) s = .next { s with
      a := r
      p := { s.p.withNZ r with
        c := decide (0 ≤ (s.a.toNat : Int) - (s.readOperand m).1.toNat - (1 - (carryNat s.p.c : Int)))
        v := decide (¬(-128 ≤ s.a.toInt - (s.readOperand m).1.toInt - (1 - (carryNat s.p.c : Int)) ∧
          s.a.toInt - (s.readOperand m).1.toInt - (1 - (carryNat s.p.c : Int)) ≤ 127)) }
      bus := bus } ∧
    (r.toNat : Int) = ((s.a.toNat : Int) - (s.readOperand m).1.toNat - (1 - (carryNat s.p.c : Int))) % 256 ∧
    s.bus.ReadOnly bus ∧ Accessed s bus (operandSequence s m)

/-- R94, R95, R96: the bitwise operations on A, bit by bit, with N and Z from the result. -/
def Obligations.LogicWorksBitByBit : Prop :=
  ∀ (m : ReadMode) (s : State), ∃ bus ra ro re, s.bus.ReadOnly bus ∧ Accessed s bus (operandSequence s m) ∧
    exec (.and m) s = .next { s with a := ra, p := s.p.withNZ ra, bus := bus } ∧
    exec (.ora m) s = .next { s with a := ro, p := s.p.withNZ ro, bus := bus } ∧
    exec (.eor m) s = .next { s with a := re, p := s.p.withNZ re, bus := bus } ∧
    ∀ k, ra.getLsbD k = (s.a.getLsbD k && (s.readOperand m).1.getLsbD k) ∧
      ro.getLsbD k = (s.a.getLsbD k || (s.readOperand m).1.getLsbD k) ∧
      re.getLsbD k = (s.a.getLsbD k ^^ (s.readOperand m).1.getLsbD k)

/-- R97 to R100: a comparison sets C, Z and N from the unsigned values, and no register changes. -/
def Obligations.ComparisonsSetTheFlags : Prop :=
  ∀ (m : ReadMode) (s : State), ∃ bus, s.bus.ReadOnly bus ∧ Accessed s bus (operandSequence s m) ∧
    ∀ i r, (i, r) ∈ [(Instr.cmp m, s.a), (.cpx m, s.x), (.cpy m, s.y)] →
      exec i s = .next { s with
        p := { s.p with
          c := decide ((s.readOperand m).1.toNat ≤ r.toNat)
          z := decide (r.toNat = (s.readOperand m).1.toNat)
          n := decide (128 ≤ (r.toNat + 256 - (s.readOperand m).1.toNat) % 256) }
        bus := bus }

/-- R101: BIT takes N and V from the operand's bits 7 and 6 and Z from A & M; A is unchanged. -/
def Obligations.BitTestsTheOperand : Prop :=
  ∀ (m : ReadMode) (s : State), ∃ bus, s.bus.ReadOnly bus ∧ Accessed s bus (operandSequence s m) ∧
    exec (.bit m) s = .next { s with
      p := { s.p with
        z := decide ((s.a &&& (s.readOperand m).1).toNat = 0)
        n := decide (128 ≤ (s.readOperand m).1.toNat)
        v := decide ((s.readOperand m).1.toNat / 64 % 2 = 1) }
      bus := bus }

/-- R102, R103: INC and DEC on memory, modulo 256, with the dummy write; C and V are unchanged. -/
def Obligations.IncrementsModifyMemory : Prop :=
  ∀ (m : MemMode) (s : State),
    (∃ bus old new, exec (.inc m) s = .next { s with p := s.p.withNZ new, bus := bus } ∧
      new.toNat = (old.toNat + 1) % 256 ∧ Modified s bus (s.target m).1 old new ∧
      Accessed s bus (modifySequence s m)) ∧
    (∃ bus old new, exec (.dec m) s = .next { s with p := s.p.withNZ new, bus := bus } ∧
      new.toNat = (old.toNat + 255) % 256 ∧ Modified s bus (s.target m).1 old new ∧
      Accessed s bus (modifySequence s m))

/-- R104 to R107, R69: INX, INY, DEX and DEY, each with its opcode, modulo 256; C and V are unchanged. -/
def Obligations.IndexRegistersCountModulo256 : Prop :=
  decode [0xE8] = some (.inx, []) ∧ decode [0xC8] = some (.iny, []) ∧ decode [0xCA] = some (.dex, []) ∧
  decode [0x88] = some (.dey, []) ∧
  ∀ s : State, ∃ bus x y x' y', ImpliedRead s bus ∧
    x.toNat = (s.x.toNat + 1) % 256 ∧ y.toNat = (s.y.toNat + 1) % 256 ∧
    x'.toNat = (s.x.toNat + 255) % 256 ∧ y'.toNat = (s.y.toNat + 255) % 256 ∧
    exec .inx s = .next { s with x := x, p := s.p.withNZ x, bus := bus } ∧
    exec .iny s = .next { s with y := y, p := s.p.withNZ y, bus := bus } ∧
    exec .dex s = .next { s with x := x', p := s.p.withNZ x', bus := bus } ∧
    exec .dey s = .next { s with y := y', p := s.p.withNZ y', bus := bus }

/-! ### Shifts and rotates (spec/43_shift_rotate.md) -/

/-- R109 to R112, accumulator forms: the result and the bit shifted out, told on the numbers. -/
def Obligations.AccumulatorShiftsMoveOneBit : Prop :=
  ∀ s : State, ∃ bus, ImpliedRead s bus ∧
    ∀ i r c, (i, r, c) ∈
      [(Instr.asl .acc, s.a.toNat * 2 % 256, decide (128 ≤ s.a.toNat)),
       (.lsr .acc, s.a.toNat / 2, decide (s.a.toNat % 2 = 1)),
       (.rol .acc, (s.a.toNat * 2 + carryNat s.p.c) % 256, decide (128 ≤ s.a.toNat)),
       (.ror .acc, s.a.toNat / 2 + 128 * carryNat s.p.c, decide (s.a.toNat % 2 = 1))] →
      exec i s = .next { s with
        a := BitVec.ofNat 8 r
        p := { s.p.withNZ (BitVec.ofNat 8 r) with c := c }
        bus := bus }

/-- R109 to R112, memory forms: the byte at the effective address is read, written back and replaced by the result. -/
def Obligations.MemoryShiftsModifyMemory : Prop :=
  ∀ (m : MemMode) (s : State) (i : Instr) (f : Nat → Nat) (out : Nat → Bool),
    (i, f, out) ∈
      [(Instr.asl (.mem m), (fun v => v * 2 % 256), (fun v => decide (128 ≤ v))),
       (.lsr (.mem m), (fun v => v / 2), (fun v => decide (v % 2 = 1))),
       (.rol (.mem m), (fun v => (v * 2 + carryNat s.p.c) % 256), (fun v => decide (128 ≤ v))),
       (.ror (.mem m), (fun v => v / 2 + 128 * carryNat s.p.c), (fun v => decide (v % 2 = 1)))] →
    ∃ bus old, exec i s = .next { s with
        p := { s.p.withNZ (BitVec.ofNat 8 (f old.toNat)) with c := out old.toNat }
        bus := bus } ∧
      Modified s bus (s.target m).1 old (BitVec.ofNat 8 (f old.toNat)) ∧ Accessed s bus (modifySequence s m)

/-! ### Control transfer (spec/44_control_transfer.md) -/

/-- R113 to R121: each conditional branch, from pc_next on: the target is pc_next plus the signed offset modulo 2^16; a
taken branch makes one dummy read, and one more when the target lies in another page; nothing else changes. -/
def Obligations.BranchesTestTheirFlag : Prop :=
  ∀ (branch : Byte → Instr) (cond : Flags → Bool),
    (branch, cond) ∈
      [(Instr.bpl, fun p => !p.n), (Instr.bmi, fun p => p.n), (Instr.bvc, fun p => !p.v), (Instr.bvs, fun p => p.v),
       (Instr.bcc, fun p => !p.c), (Instr.bcs, fun p => p.c), (Instr.bne, fun p => !p.z), (Instr.beq, fun p => p.z)] →
    ∀ (off : Byte) (s : State), ∃ bus target,
      target = BitVec.ofInt 16 (s.pc.toNat + off.toInt) ∧
      exec (branch off) s = .next { s with pc := if cond s.p then target else s.pc, bus := bus } ∧
      s.bus.ReadOnly bus ∧
      bus.accesses = s.bus.accesses ++
        (if cond s.p then
          (if target.toNat / 256 = s.pc.toNat / 256 then [(.read, s.pc)]
           else [(.read, s.pc), (.read, mkWord (hiByte s.pc) (loByte target))])
         else [])

/-- R122, R123: JMP absolute goes to its operand; JMP indirect to the address its pointer holds, whose high byte is read
from the same page. -/
def Obligations.JumpsLoadTheProgramCounter : Prop :=
  (∀ (w : Word) (s : State), exec (.jmp (.abs w)) s = .next { s with pc := w }) ∧
  ∀ (ptr : Word) (s : State), ∃ target bus, exec (.jmp (.ind ptr)) s = .next { s with pc := target, bus := bus } ∧
    s.bus.ReadOnly bus ∧
    bus.accesses = s.bus.accesses ++
      [(.read, ptr), (.read, BitVec.ofNat 16 (ptr.toNat / 256 * 256 + (ptr.toNat + 1) % 256))] ∧
    ∀ lo hi, s.bus.peek ptr = some lo →
      s.bus.peek (BitVec.ofNat 16 (ptr.toNat / 256 * 256 + (ptr.toNat + 1) % 256)) = some hi → target = mkWord hi lo

/-- R124: JSR pushes the address of its last byte, high byte first, and fetches the target's high byte from there after the
pushes. -/
def Obligations.JsrPushesTheReturnAddress : Prop :=
  ∀ (operand : Word) (s : State), ∃ hi bus,
    exec (.jsr operand) s = .next { s with sp := s.sp - 2, pc := mkWord hi (loByte operand), bus := bus } ∧
    bus.accesses = s.bus.accesses ++
      [(.read, stackAddr s.sp), (.write, stackAddr s.sp), (.write, stackAddr (s.sp - 1)), (.read, s.pc)] ∧
    s.bus.StoresOnlyTo bus [stackAddr s.sp, stackAddr (s.sp - 1)] ∧
    (s.bus.mem.wf = true → bus.peek (stackAddr s.sp) = some (hiByte s.pc) ∧
      bus.peek (stackAddr (s.sp - 1)) = some (loByte s.pc)) ∧
    ∀ v, bus.peek s.pc = some v → hi = v

/-- R125: RTS pulls the return address, low byte first, and goes on one past it. -/
def Obligations.RtsReturnsPastTheAddress : Prop :=
  ∀ s : State, ∃ target bus, exec .rts s = .next { s with sp := s.sp + 2, pc := target + 1, bus := bus } ∧
    s.bus.ReadOnly bus ∧
    bus.accesses = s.bus.accesses ++
      [(.read, s.pc), (.read, stackAddr s.sp), (.read, stackAddr (s.sp + 1)), (.read, stackAddr (s.sp + 2)),
       (.read, target)] ∧
    s.bus.peek (stackAddr (s.sp + 1)) = some (loByte target) ∧
    s.bus.peek (stackAddr (s.sp + 2)) = some (hiByte target)

/-- R126, R19: RTI pulls P, bits 5 and 4 ignored, and then pc, which is not incremented. -/
def Obligations.RtiRestoresFlagsAndCounter : Prop :=
  ∀ s : State, ∃ target v bus, exec .rti s = .next { s with
      sp := s.sp + 3
      pc := target
      p := { n := v.getLsbD 7, v := v.getLsbD 6, d := v.getLsbD 3, i := v.getLsbD 2, z := v.getLsbD 1, c := v.getLsbD 0 }
      bus := bus } ∧
    s.bus.ReadOnly bus ∧
    bus.accesses = s.bus.accesses ++
      [(.read, s.pc), (.read, stackAddr s.sp), (.read, stackAddr (s.sp + 1)), (.read, stackAddr (s.sp + 2)),
       (.read, stackAddr (s.sp + 3))] ∧
    s.bus.peek (stackAddr (s.sp + 1)) = some v ∧
    s.bus.peek (stackAddr (s.sp + 2)) = some (loByte target) ∧
    s.bus.peek (stackAddr (s.sp + 3)) = some (hiByte target)

/-- R127: BRK skips the padding byte, pushes pc and the image with B = 1, sets I and goes through the IRQ vector. At the
meaning's start pc is K + 1. -/
def Obligations.BrkEntersTheIrqVector : Prop :=
  ∀ s : State, ∃ t, exec .brk s = .next t ∧
    t.bus.accesses = s.bus.accesses ++
      [(.read, s.pc), (.write, stackAddr s.sp), (.write, stackAddr (s.sp - 1)), (.write, stackAddr (s.sp - 2)),
       (.read, 0xFFFE), (.read, 0xFFFF)] ∧
    s.bus.StoresOnlyTo t.bus [stackAddr s.sp, stackAddr (s.sp - 1), stackAddr (s.sp - 2)] ∧
    (s.Inv → Entered s t (s.pc + 1) (s.p.image true) 0xFFFE) ∧
    t = { s with sp := s.sp - 3, p := { s.p with i := true }, pc := t.pc, bus := t.bus }

/-- R124, R125: RTS after JSR, with the two stack bytes still there, goes on at the byte after the JSR with S as before the
call. (At JSR's meaning pc is J + 2, the address of its last byte.) -/
def Obligations.RtsUndoesJsr : Prop :=
  ∀ (operand : Word) (s t u : State), s.Inv → exec (.jsr operand) s = .next t → u.sp = t.sp →
    u.bus.peek (stackAddr s.sp) = t.bus.peek (stackAddr s.sp) →
    u.bus.peek (stackAddr (s.sp - 1)) = t.bus.peek (stackAddr (s.sp - 1)) →
    ∃ w, exec .rts u = .next w ∧ w.pc = s.pc + 1 ∧ w.sp = s.sp

/-- R152: RTI resumes after a BRK at BRK's address + 2, and after an IRQ or NMI at the interrupted instruction, with the
flags and S of before. -/
def Obligations.RtiUndoesAnEntry : Prop :=
  (∀ s t u : State, s.Inv → exec .brk s = .next t → u.sp = t.sp →
    (∀ k ∈ [(0 : Byte), 1, 2], u.bus.peek (stackAddr (s.sp - k)) = t.bus.peek (stackAddr (s.sp - k))) →
    ∃ w, exec .rti u = .next w ∧ w.pc = s.pc + 1 ∧ w.p = s.p ∧ w.sp = s.sp) ∧
  ∀ s t u : State, s.Inv → step s = .next t → (s.boundary.action = .nmi ∨ s.boundary.action = .irq) → u.sp = t.sp →
    (∀ k ∈ [(0 : Byte), 1, 2], u.bus.peek (stackAddr (s.sp - k)) = t.bus.peek (stackAddr (s.sp - k))) →
    ∃ w, exec .rti u = .next w ∧ w.pc = s.pc ∧ w.p = s.p ∧ w.sp = s.sp

/-! ### Stack, flags, NOP and the illegal instruction (spec/45_stack_flags_misc.md) -/

/-- R129, R130: PHA and PHP, each with its opcode, write A or the image of P with B = 1 at 0x0100 + S and move S down,
modulo 256. -/
def Obligations.PushesWriteBelowS : Prop :=
  decode [0x48] = some (.pha, []) ∧ decode [0x08] = some (.php, []) ∧
  ∀ (i : Instr) (s : State) (v : Byte), (i, v) ∈ [(Instr.pha, s.a), (.php, s.p.image true)] →
    ∃ bus, exec i s = .next { s with sp := s.sp - 1, bus := bus } ∧
      bus.accesses = s.bus.accesses ++ [(.read, s.pc), (.write, stackAddr s.sp)] ∧
      bus.history.head? = some ⟨.write, stackAddr s.sp, v, s.bus.stepNo, s.bus.cycle + 2⟩ ∧
      s.bus.StoresOnlyTo bus [stackAddr s.sp] ∧
      (s.bus.mem.wf = true → bus.peek (BitVec.ofNat 16 (256 + s.sp.toNat)) = some v)

/-- R131, R132, R19: PLA and PLP, each with its opcode, move S up, modulo 256, and read 0x0100 + S. -/
def Obligations.PullsReadAboveS : Prop :=
  decode [0x68] = some (.pla, []) ∧ decode [0x28] = some (.plp, []) ∧
  ∀ s : State, ∃ v bus, s.bus.peek (BitVec.ofNat 16 (256 + (s.sp.toNat + 1) % 256)) = some v ∧
    s.bus.ReadOnly bus ∧
    bus.accesses = s.bus.accesses ++ [(.read, s.pc), (.read, stackAddr s.sp), (.read, stackAddr (s.sp + 1))] ∧
    exec .pla s = .next { s with a := v, sp := s.sp + 1, p := s.p.withNZ v, bus := bus } ∧
    exec .plp s = .next { s with
      sp := s.sp + 1
      p := { n := v.getLsbD 7, v := v.getLsbD 6, d := v.getLsbD 3, i := v.getLsbD 2, z := v.getLsbD 1, c := v.getLsbD 0 }
      bus := bus }

/-- R129 to R132: a pull right after a push of the same kind, with the pushed byte still there, restores A, or all six
flags, and S. -/
def Obligations.PullUndoesPush : Prop :=
  (∀ s t u : State, s.Inv → exec .pha s = .next t → u.sp = t.sp →
    u.bus.peek (stackAddr s.sp) = t.bus.peek (stackAddr s.sp) →
    ∃ w, exec .pla u = .next w ∧ w.a = s.a ∧ w.sp = s.sp) ∧
  ∀ s t u : State, s.Inv → exec .php s = .next t → u.sp = t.sp →
    u.bus.peek (stackAddr s.sp) = t.bus.peek (stackAddr s.sp) →
    ∃ w, exec .plp u = .next w ∧ w.p = s.p ∧ w.sp = s.sp

/-- R18: the pushed image of P, bit by bit: bit 5 is 1 and bit 4 is the pushing operation's. (Which operation pushes which
is in the statements about PHP, BRK, IRQ and NMI.) -/
def Obligations.PushedImageHoldsTheFlags : Prop :=
  ∀ (p : Flags) (b : Bool),
    (p.image b).toNat = carryNat p.n * 128 + carryNat p.v * 64 + 32 + carryNat b * 16 + carryNat p.d * 8 +
      carryNat p.i * 4 + carryNat p.z * 2 + carryNat p.c ∧
    Flags.ofByte (p.image b) = p

/-- R133 to R139, R69: the flag operations, each with its opcode, write one flag. -/
def Obligations.FlagOperationsWriteOneFlag : Prop :=
  ∀ (i : Instr) (op : Byte) (f : Flags → Flags),
    (i, op, f) ∈
      [(Instr.clc, 0x18, fun p => { p with c := false }), (.sec, 0x38, fun p => { p with c := true }),
       (.cli, 0x58, fun p => { p with i := false }), (.sei, 0x78, fun p => { p with i := true }),
       (.cld, 0xD8, fun p => { p with d := false }), (.sed, 0xF8, fun p => { p with d := true }),
       (.clv, 0xB8, fun p => { p with v := false })] →
    decode [op] = some (i, []) ∧
    ∀ s : State, ∃ bus, exec i s = .next { s with p := f s.p, bus := bus } ∧ ImpliedRead s bus

/-- R140, R69: NOP, opcode EA, does nothing but its dummy read; a step that fetches EA moves pc on by one in two cycles. -/
def Obligations.NopOnlyReads : Prop :=
  decode [0xEA] = some (.nop, []) ∧
  (∀ s : State, ∃ bus, exec .nop s = .next { s with bus := bus } ∧ ImpliedRead s bus) ∧
  ∀ s : State, s.Uninterrupted → s.boundary.fetch.1 = 0xEA →
    ∃ t, step s = .next t ∧ t.pc = s.pc + 1 ∧ t.stepCycles = 2 ∧
      t.bus.accesses = s.bus.accesses ++ [(.read, s.pc), (.read, s.pc + 1)] ∧
      t.a = s.a ∧ t.x = s.x ∧ t.y = s.y ∧ t.sp = s.sp ∧ t.p = s.p ∧ ∀ a, t.bus.peek a = s.bus.peek a

/-- R141, R157: each undocumented value decodes to the illegal instruction. A step that fetches one makes that one access;
pc stays at it, the core halts with its record, no register, flag or byte changes, there is no further step, and no run
of one or more steps from there is safe. (That the halting step is itself a next state and the fault is the answer of the
steps after it is the model's reading, log 12.) -/
def Obligations.UndocumentedOpcodeHaltsTheCore : Prop :=
  (∀ (op : Byte) (s : State), ∃ k, k + 1 = s.pc ∧
    exec (.illegal op) s = .next { s with pc := k, halted := some ⟨k, op⟩ }) ∧
  (∀ (op : Byte) (rest : List Byte), op ∈ undocumentedOpcodes → decode (op :: rest) = some (.illegal op, rest)) ∧
  ∀ (s : State) (op : Byte), op ∈ undocumentedOpcodes → s.Uninterrupted → s.boundary.fetch.1 = op →
    ∃ t, step s = .next t ∧ t.pc = s.pc ∧ t.halted = some ⟨s.pc, op⟩ ∧ t.stepCycles = 1 ∧
      t.bus.accesses = s.bus.accesses ++ [(.read, s.pc)] ∧ t.a = s.a ∧ t.x = s.x ∧ t.y = s.y ∧ t.sp = s.sp ∧ t.p = s.p ∧
      (∀ a, t.bus.peek a = s.bus.peek a) ∧ step t = .fault (.illegalOpcode s.pc op) ∧ ∀ n, ¬SafeFor (n + 1) s
end

