-- ==== Sys2Proof/Laws/Memory.lean ====
section
/-! SUPPORT. Memory: a store is read back, leaves every other key alone, and keeps the canonical form. -/

namespace Sys2Proof.Machine

theorem Memory.lookup_cons (c : Host.Cell) (m : Memory) (k : Nat) :
    Memory.lookup (c :: m) k = if c.1 = k then c.2 else Memory.lookup m k := rfl

/-- In a canonical memory the keys after the head are larger. -/
theorem Memory.wf_cons (c : Host.Cell) (m : Memory) :
    Memory.wf (c :: m) = true ↔ c.2 ≠ Config.unlistedByte ∧ (∀ d ∈ m, c.1 < d.1) ∧ Memory.wf m = true := by
  simp [Memory.wf, and_assoc]

/-- A key below every listed key is not listed. -/
theorem Memory.lookup_of_lt (m : Memory) (k : Nat) (h : ∀ d ∈ m, k < d.1) :
    Memory.lookup m k = Config.unlistedByte := by
  induction m with
  | nil => rfl
  | cons c m ih =>
    have hc := h c (by simp)
    rw [Memory.lookup_cons, if_neg (by omega)]
    exact ih fun d hd => h d (by simp [hd])

theorem Memory.lookup_smart_cons (c : Host.Cell) (m : Memory) (h : ∀ d ∈ m, c.1 < d.1) (k : Nat) :
    Memory.lookup (Memory.cons c m) k = if c.1 = k then c.2 else Memory.lookup m k := by
  unfold Memory.cons
  split
  · rename_i hv
    split
    · rename_i hk
      rw [hv, ← hk, Memory.lookup_of_lt m c.1 h]
    · rfl
  · rfl

/-- Read after write: the stored key gives the stored byte, every other key what it gave before. -/
theorem Memory.lookup_store (m : Memory) (h : m.wf = true) (k : Nat) (v : Byte) (j : Nat) :
    (m.store k v).lookup j = if k = j then v else m.lookup j := by
  induction m with
  | nil => exact Memory.lookup_smart_cons (k, v) [] (by simp) j
  | cons c m ih =>
    obtain ⟨hne, hlt, hwf⟩ := (Memory.wf_cons c m).1 h
    rw [Memory.store]
    split
    · rename_i hk
      refine Memory.lookup_smart_cons (k, v) (c :: m) ?_ j
      intro d hd
      rcases List.mem_cons.1 hd with rfl | hd
      · exact hk
      · exact Nat.lt_trans hk (hlt d hd)
    · split
      · rename_i _ hk
        rw [Memory.lookup_smart_cons (k, v) m (fun d hd => hk ▸ hlt d hd) j, Memory.lookup_cons, hk]
        by_cases hj : k = j <;> simp [hj]
      · rename_i _ hk
        rw [Memory.lookup_cons, Memory.lookup_cons, ih hwf]
        by_cases hj : c.1 = j
        · have : k ≠ j := fun e => hk (hj.trans e.symm)
          simp [hj, this]
        · simp [hj]

/-- A store leaves every other key alone, in any memory. -/
theorem Memory.lookup_store_ne (m : Memory) (k : Nat) (v : Byte) (j : Nat) (hj : k ≠ j) :
    (m.store k v).lookup j = m.lookup j := by
  have hcons : ∀ n : Memory, (Memory.cons (k, v) n).lookup j = n.lookup j := by
    intro n
    unfold Memory.cons
    split
    · rfl
    · exact if_neg hj
  induction m with
  | nil => exact hcons []
  | cons c m ih =>
    rw [Memory.store]
    split
    · exact hcons _
    · split
      · rename_i _ hk
        rw [hcons, Memory.lookup_cons, if_neg (hk ▸ hj)]
      · rw [Memory.lookup_cons, Memory.lookup_cons, ih]

/-- A store to RAM leaves the cartridge image alone. -/
theorem Memory.cartridgePart_store (m : Memory) (k : Nat) (v : Byte) (hk : k < 0x4020) :
    (m.store k v).cartridgePart = m.cartridgePart := by
  have hcons : ∀ n : Memory, (Memory.cons (k, v) n).cartridgePart = n.cartridgePart := by
    intro n
    unfold Memory.cons
    split
    · rfl
    · simp [Memory.cartridgePart, hk]
  induction m with
  | nil => exact hcons []
  | cons c m ih =>
    rw [Memory.store]
    split
    · exact hcons _
    · split
      · rename_i _ hc
        rw [hcons]
        simp [Memory.cartridgePart, hc, hk]
      · simp only [Memory.cartridgePart, List.filter_cons] at ih ⊢
        rw [ih]

/-- Every key of a store is the stored one or was there before. -/
theorem Memory.mem_store (m : Memory) (k : Nat) (v : Byte) (d : Host.Cell) (h : d ∈ m.store k v) :
    d = (k, v) ∨ d ∈ m := by
  have hcons : ∀ n : Memory, d ∈ Memory.cons (k, v) n → d = (k, v) ∨ d ∈ n := by
    intro n hd
    unfold Memory.cons at hd
    split at hd
    · exact .inr hd
    · simpa using hd
  induction m with
  | nil => exact hcons [] h
  | cons c m ih =>
    rw [Memory.store] at h
    split at h
    · exact hcons _ h
    · split at h
      · exact (hcons m h).imp id fun hd => by simp [hd]
      · rcases List.mem_cons.1 h with rfl | h
        · exact .inr (by simp)
        · exact (ih h).imp id fun hd => by simp [hd]

theorem Memory.wf_smart_cons (c : Host.Cell) (m : Memory) (hm : m.wf = true) (h : ∀ d ∈ m, c.1 < d.1) :
    (Memory.cons c m).wf = true := by
  unfold Memory.cons
  split
  · exact hm
  · exact (Memory.wf_cons c m).2 ⟨by assumption, h, hm⟩

/-- A store keeps the canonical form. -/
theorem Memory.wf_store (m : Memory) (h : m.wf = true) (k : Nat) (v : Byte) : (m.store k v).wf = true := by
  induction m with
  | nil => exact Memory.wf_smart_cons (k, v) [] rfl (by simp)
  | cons c m ih =>
    obtain ⟨hne, hlt, hwf⟩ := (Memory.wf_cons c m).1 h
    rw [Memory.store]
    split
    · rename_i hk
      refine Memory.wf_smart_cons (k, v) (c :: m) h ?_
      intro d hd
      rcases List.mem_cons.1 hd with rfl | hd
      · exact hk
      · exact Nat.lt_trans hk (hlt d hd)
    · split
      · rename_i _ hk
        exact Memory.wf_smart_cons (k, v) m hwf fun d hd => hk ▸ hlt d hd
      · rename_i h1 h2
        refine (Memory.wf_cons c _).2 ⟨hne, ?_, ih hwf⟩
        intro d hd
        rcases Memory.mem_store m k v d hd with rfl | hd
        · exact Nat.lt_of_le_of_ne (Nat.le_of_not_lt h1) h2
        · exact hlt d hd

end Sys2Proof.Machine
end

