-- ==== Sys2Proof/Laws/State.lean ====
section
/-! SUPPORT. The small lemmas of the state: what each field is after each named update, after a bus access and after a
stack operation. All are true by `rfl` and tagged for `simp`, so that no proof unfolds a record update. -/

namespace Sys2Proof.Machine

section
variable (s : State) (v : Byte)
@[simp] theorem State.setA_a : (s.setA v).a = v := rfl
@[simp] theorem State.setA_x : (s.setA v).x = s.x := rfl
@[simp] theorem State.setA_y : (s.setA v).y = s.y := rfl
@[simp] theorem State.setA_sp : (s.setA v).sp = s.sp := rfl
@[simp] theorem State.setA_pc : (s.setA v).pc = s.pc := rfl
@[simp] theorem State.setA_p : (s.setA v).p = s.p := rfl
@[simp] theorem State.setA_cyclesTotal : (s.setA v).cyclesTotal = s.cyclesTotal := rfl
@[simp] theorem State.setA_stepCycles : (s.setA v).stepCycles = s.stepCycles := rfl
@[simp] theorem State.setA_halted : (s.setA v).halted = s.halted := rfl
@[simp] theorem State.setA_nmiPending : (s.setA v).nmiPending = s.nmiPending := rfl
@[simp] theorem State.setA_irqLine : (s.setA v).irqLine = s.irqLine := rfl
@[simp] theorem State.setA_resetPending : (s.setA v).resetPending = s.resetPending := rfl
@[simp] theorem State.setA_inputs : (s.setA v).inputs = s.inputs := rfl
@[simp] theorem State.setA_bus : (s.setA v).bus = s.bus := rfl
end

section
variable (s : State) (v : Byte)
@[simp] theorem State.setX_a : (s.setX v).a = s.a := rfl
@[simp] theorem State.setX_x : (s.setX v).x = v := rfl
@[simp] theorem State.setX_y : (s.setX v).y = s.y := rfl
@[simp] theorem State.setX_sp : (s.setX v).sp = s.sp := rfl
@[simp] theorem State.setX_pc : (s.setX v).pc = s.pc := rfl
@[simp] theorem State.setX_p : (s.setX v).p = s.p := rfl
@[simp] theorem State.setX_cyclesTotal : (s.setX v).cyclesTotal = s.cyclesTotal := rfl
@[simp] theorem State.setX_stepCycles : (s.setX v).stepCycles = s.stepCycles := rfl
@[simp] theorem State.setX_halted : (s.setX v).halted = s.halted := rfl
@[simp] theorem State.setX_nmiPending : (s.setX v).nmiPending = s.nmiPending := rfl
@[simp] theorem State.setX_irqLine : (s.setX v).irqLine = s.irqLine := rfl
@[simp] theorem State.setX_resetPending : (s.setX v).resetPending = s.resetPending := rfl
@[simp] theorem State.setX_inputs : (s.setX v).inputs = s.inputs := rfl
@[simp] theorem State.setX_bus : (s.setX v).bus = s.bus := rfl
end

section
variable (s : State) (v : Byte)
@[simp] theorem State.setY_a : (s.setY v).a = s.a := rfl
@[simp] theorem State.setY_x : (s.setY v).x = s.x := rfl
@[simp] theorem State.setY_y : (s.setY v).y = v := rfl
@[simp] theorem State.setY_sp : (s.setY v).sp = s.sp := rfl
@[simp] theorem State.setY_pc : (s.setY v).pc = s.pc := rfl
@[simp] theorem State.setY_p : (s.setY v).p = s.p := rfl
@[simp] theorem State.setY_cyclesTotal : (s.setY v).cyclesTotal = s.cyclesTotal := rfl
@[simp] theorem State.setY_stepCycles : (s.setY v).stepCycles = s.stepCycles := rfl
@[simp] theorem State.setY_halted : (s.setY v).halted = s.halted := rfl
@[simp] theorem State.setY_nmiPending : (s.setY v).nmiPending = s.nmiPending := rfl
@[simp] theorem State.setY_irqLine : (s.setY v).irqLine = s.irqLine := rfl
@[simp] theorem State.setY_resetPending : (s.setY v).resetPending = s.resetPending := rfl
@[simp] theorem State.setY_inputs : (s.setY v).inputs = s.inputs := rfl
@[simp] theorem State.setY_bus : (s.setY v).bus = s.bus := rfl
end

section
variable (s : State) (v : Byte)
@[simp] theorem State.setSp_a : (s.setSp v).a = s.a := rfl
@[simp] theorem State.setSp_x : (s.setSp v).x = s.x := rfl
@[simp] theorem State.setSp_y : (s.setSp v).y = s.y := rfl
@[simp] theorem State.setSp_sp : (s.setSp v).sp = v := rfl
@[simp] theorem State.setSp_pc : (s.setSp v).pc = s.pc := rfl
@[simp] theorem State.setSp_p : (s.setSp v).p = s.p := rfl
@[simp] theorem State.setSp_cyclesTotal : (s.setSp v).cyclesTotal = s.cyclesTotal := rfl
@[simp] theorem State.setSp_stepCycles : (s.setSp v).stepCycles = s.stepCycles := rfl
@[simp] theorem State.setSp_halted : (s.setSp v).halted = s.halted := rfl
@[simp] theorem State.setSp_nmiPending : (s.setSp v).nmiPending = s.nmiPending := rfl
@[simp] theorem State.setSp_irqLine : (s.setSp v).irqLine = s.irqLine := rfl
@[simp] theorem State.setSp_resetPending : (s.setSp v).resetPending = s.resetPending := rfl
@[simp] theorem State.setSp_inputs : (s.setSp v).inputs = s.inputs := rfl
@[simp] theorem State.setSp_bus : (s.setSp v).bus = s.bus := rfl
end

section
variable (s : State) (v : Word)
@[simp] theorem State.setPc_a : (s.setPc v).a = s.a := rfl
@[simp] theorem State.setPc_x : (s.setPc v).x = s.x := rfl
@[simp] theorem State.setPc_y : (s.setPc v).y = s.y := rfl
@[simp] theorem State.setPc_sp : (s.setPc v).sp = s.sp := rfl
@[simp] theorem State.setPc_pc : (s.setPc v).pc = v := rfl
@[simp] theorem State.setPc_p : (s.setPc v).p = s.p := rfl
@[simp] theorem State.setPc_cyclesTotal : (s.setPc v).cyclesTotal = s.cyclesTotal := rfl
@[simp] theorem State.setPc_stepCycles : (s.setPc v).stepCycles = s.stepCycles := rfl
@[simp] theorem State.setPc_halted : (s.setPc v).halted = s.halted := rfl
@[simp] theorem State.setPc_nmiPending : (s.setPc v).nmiPending = s.nmiPending := rfl
@[simp] theorem State.setPc_irqLine : (s.setPc v).irqLine = s.irqLine := rfl
@[simp] theorem State.setPc_resetPending : (s.setPc v).resetPending = s.resetPending := rfl
@[simp] theorem State.setPc_inputs : (s.setPc v).inputs = s.inputs := rfl
@[simp] theorem State.setPc_bus : (s.setPc v).bus = s.bus := rfl
end

section
variable (s : State) (v : Flags)
@[simp] theorem State.setP_a : (s.setP v).a = s.a := rfl
@[simp] theorem State.setP_x : (s.setP v).x = s.x := rfl
@[simp] theorem State.setP_y : (s.setP v).y = s.y := rfl
@[simp] theorem State.setP_sp : (s.setP v).sp = s.sp := rfl
@[simp] theorem State.setP_pc : (s.setP v).pc = s.pc := rfl
@[simp] theorem State.setP_p : (s.setP v).p = v := rfl
@[simp] theorem State.setP_cyclesTotal : (s.setP v).cyclesTotal = s.cyclesTotal := rfl
@[simp] theorem State.setP_stepCycles : (s.setP v).stepCycles = s.stepCycles := rfl
@[simp] theorem State.setP_halted : (s.setP v).halted = s.halted := rfl
@[simp] theorem State.setP_nmiPending : (s.setP v).nmiPending = s.nmiPending := rfl
@[simp] theorem State.setP_irqLine : (s.setP v).irqLine = s.irqLine := rfl
@[simp] theorem State.setP_resetPending : (s.setP v).resetPending = s.resetPending := rfl
@[simp] theorem State.setP_inputs : (s.setP v).inputs = s.inputs := rfl
@[simp] theorem State.setP_bus : (s.setP v).bus = s.bus := rfl
end

section
variable (s : State) (addr : Word)
@[simp] theorem State.read_a : (s.read addr).2.a = s.a := rfl
@[simp] theorem State.read_x : (s.read addr).2.x = s.x := rfl
@[simp] theorem State.read_y : (s.read addr).2.y = s.y := rfl
@[simp] theorem State.read_sp : (s.read addr).2.sp = s.sp := rfl
@[simp] theorem State.read_pc : (s.read addr).2.pc = s.pc := rfl
@[simp] theorem State.read_p : (s.read addr).2.p = s.p := rfl
@[simp] theorem State.read_cyclesTotal : (s.read addr).2.cyclesTotal = s.cyclesTotal := rfl
@[simp] theorem State.read_stepCycles : (s.read addr).2.stepCycles = s.stepCycles := rfl
@[simp] theorem State.read_halted : (s.read addr).2.halted = s.halted := rfl
@[simp] theorem State.read_nmiPending : (s.read addr).2.nmiPending = s.nmiPending := rfl
@[simp] theorem State.read_irqLine : (s.read addr).2.irqLine = s.irqLine := rfl
@[simp] theorem State.read_resetPending : (s.read addr).2.resetPending = s.resetPending := rfl
@[simp] theorem State.read_inputs : (s.read addr).2.inputs = s.inputs := rfl
end

section
variable (s : State) (addr : Word)
@[simp] theorem State.dummyRead_a : (s.dummyRead addr).a = s.a := rfl
@[simp] theorem State.dummyRead_x : (s.dummyRead addr).x = s.x := rfl
@[simp] theorem State.dummyRead_y : (s.dummyRead addr).y = s.y := rfl
@[simp] theorem State.dummyRead_sp : (s.dummyRead addr).sp = s.sp := rfl
@[simp] theorem State.dummyRead_pc : (s.dummyRead addr).pc = s.pc := rfl
@[simp] theorem State.dummyRead_p : (s.dummyRead addr).p = s.p := rfl
@[simp] theorem State.dummyRead_cyclesTotal : (s.dummyRead addr).cyclesTotal = s.cyclesTotal := rfl
@[simp] theorem State.dummyRead_stepCycles : (s.dummyRead addr).stepCycles = s.stepCycles := rfl
@[simp] theorem State.dummyRead_halted : (s.dummyRead addr).halted = s.halted := rfl
@[simp] theorem State.dummyRead_nmiPending : (s.dummyRead addr).nmiPending = s.nmiPending := rfl
@[simp] theorem State.dummyRead_irqLine : (s.dummyRead addr).irqLine = s.irqLine := rfl
@[simp] theorem State.dummyRead_resetPending : (s.dummyRead addr).resetPending = s.resetPending := rfl
@[simp] theorem State.dummyRead_inputs : (s.dummyRead addr).inputs = s.inputs := rfl
end

section
variable (s : State) (addr : Word) (v : Byte)
@[simp] theorem State.write_a : (s.write addr v).a = s.a := rfl
@[simp] theorem State.write_x : (s.write addr v).x = s.x := rfl
@[simp] theorem State.write_y : (s.write addr v).y = s.y := rfl
@[simp] theorem State.write_sp : (s.write addr v).sp = s.sp := rfl
@[simp] theorem State.write_pc : (s.write addr v).pc = s.pc := rfl
@[simp] theorem State.write_p : (s.write addr v).p = s.p := rfl
@[simp] theorem State.write_cyclesTotal : (s.write addr v).cyclesTotal = s.cyclesTotal := rfl
@[simp] theorem State.write_stepCycles : (s.write addr v).stepCycles = s.stepCycles := rfl
@[simp] theorem State.write_halted : (s.write addr v).halted = s.halted := rfl
@[simp] theorem State.write_nmiPending : (s.write addr v).nmiPending = s.nmiPending := rfl
@[simp] theorem State.write_irqLine : (s.write addr v).irqLine = s.irqLine := rfl
@[simp] theorem State.write_resetPending : (s.write addr v).resetPending = s.resetPending := rfl
@[simp] theorem State.write_inputs : (s.write addr v).inputs = s.inputs := rfl
end

section
variable (s : State) 
@[simp] theorem State.implied_a : s.implied.a = s.a := rfl
@[simp] theorem State.implied_x : s.implied.x = s.x := rfl
@[simp] theorem State.implied_y : s.implied.y = s.y := rfl
@[simp] theorem State.implied_sp : s.implied.sp = s.sp := rfl
@[simp] theorem State.implied_pc : s.implied.pc = s.pc := rfl
@[simp] theorem State.implied_p : s.implied.p = s.p := rfl
@[simp] theorem State.implied_cyclesTotal : s.implied.cyclesTotal = s.cyclesTotal := rfl
@[simp] theorem State.implied_stepCycles : s.implied.stepCycles = s.stepCycles := rfl
@[simp] theorem State.implied_halted : s.implied.halted = s.halted := rfl
@[simp] theorem State.implied_nmiPending : s.implied.nmiPending = s.nmiPending := rfl
@[simp] theorem State.implied_irqLine : s.implied.irqLine = s.irqLine := rfl
@[simp] theorem State.implied_resetPending : s.implied.resetPending = s.resetPending := rfl
@[simp] theorem State.implied_inputs : s.implied.inputs = s.inputs := rfl
end

section
variable (s : State) 
@[simp] theorem State.dummyStack_a : s.dummyStack.a = s.a := rfl
@[simp] theorem State.dummyStack_x : s.dummyStack.x = s.x := rfl
@[simp] theorem State.dummyStack_y : s.dummyStack.y = s.y := rfl
@[simp] theorem State.dummyStack_sp : s.dummyStack.sp = s.sp := rfl
@[simp] theorem State.dummyStack_pc : s.dummyStack.pc = s.pc := rfl
@[simp] theorem State.dummyStack_p : s.dummyStack.p = s.p := rfl
@[simp] theorem State.dummyStack_cyclesTotal : s.dummyStack.cyclesTotal = s.cyclesTotal := rfl
@[simp] theorem State.dummyStack_stepCycles : s.dummyStack.stepCycles = s.stepCycles := rfl
@[simp] theorem State.dummyStack_halted : s.dummyStack.halted = s.halted := rfl
@[simp] theorem State.dummyStack_nmiPending : s.dummyStack.nmiPending = s.nmiPending := rfl
@[simp] theorem State.dummyStack_irqLine : s.dummyStack.irqLine = s.irqLine := rfl
@[simp] theorem State.dummyStack_resetPending : s.dummyStack.resetPending = s.resetPending := rfl
@[simp] theorem State.dummyStack_inputs : s.dummyStack.inputs = s.inputs := rfl
end

section
variable (s : State) (v : Byte)
@[simp] theorem State.push_a : (s.push v).a = s.a := rfl
@[simp] theorem State.push_x : (s.push v).x = s.x := rfl
@[simp] theorem State.push_y : (s.push v).y = s.y := rfl
@[simp] theorem State.push_sp : (s.push v).sp = s.sp - 1 := rfl
@[simp] theorem State.push_pc : (s.push v).pc = s.pc := rfl
@[simp] theorem State.push_p : (s.push v).p = s.p := rfl
@[simp] theorem State.push_cyclesTotal : (s.push v).cyclesTotal = s.cyclesTotal := rfl
@[simp] theorem State.push_stepCycles : (s.push v).stepCycles = s.stepCycles := rfl
@[simp] theorem State.push_halted : (s.push v).halted = s.halted := rfl
@[simp] theorem State.push_nmiPending : (s.push v).nmiPending = s.nmiPending := rfl
@[simp] theorem State.push_irqLine : (s.push v).irqLine = s.irqLine := rfl
@[simp] theorem State.push_resetPending : (s.push v).resetPending = s.resetPending := rfl
@[simp] theorem State.push_inputs : (s.push v).inputs = s.inputs := rfl
end

section
variable (s : State) 
@[simp] theorem State.pull_a : s.pull.2.a = s.a := rfl
@[simp] theorem State.pull_x : s.pull.2.x = s.x := rfl
@[simp] theorem State.pull_y : s.pull.2.y = s.y := rfl
@[simp] theorem State.pull_sp : s.pull.2.sp = s.sp + 1 := rfl
@[simp] theorem State.pull_pc : s.pull.2.pc = s.pc := rfl
@[simp] theorem State.pull_p : s.pull.2.p = s.p := rfl
@[simp] theorem State.pull_cyclesTotal : s.pull.2.cyclesTotal = s.cyclesTotal := rfl
@[simp] theorem State.pull_stepCycles : s.pull.2.stepCycles = s.stepCycles := rfl
@[simp] theorem State.pull_halted : s.pull.2.halted = s.halted := rfl
@[simp] theorem State.pull_nmiPending : s.pull.2.nmiPending = s.nmiPending := rfl
@[simp] theorem State.pull_irqLine : s.pull.2.irqLine = s.irqLine := rfl
@[simp] theorem State.pull_resetPending : s.pull.2.resetPending = s.resetPending := rfl
@[simp] theorem State.pull_inputs : s.pull.2.inputs = s.inputs := rfl
end

section
variable (s : State) 
@[simp] theorem State.fetch_a : s.fetch.2.a = s.a := rfl
@[simp] theorem State.fetch_x : s.fetch.2.x = s.x := rfl
@[simp] theorem State.fetch_y : s.fetch.2.y = s.y := rfl
@[simp] theorem State.fetch_sp : s.fetch.2.sp = s.sp := rfl
@[simp] theorem State.fetch_pc : s.fetch.2.pc = s.pc + 1 := rfl
@[simp] theorem State.fetch_p : s.fetch.2.p = s.p := rfl
@[simp] theorem State.fetch_cyclesTotal : s.fetch.2.cyclesTotal = s.cyclesTotal := rfl
@[simp] theorem State.fetch_stepCycles : s.fetch.2.stepCycles = s.stepCycles := rfl
@[simp] theorem State.fetch_halted : s.fetch.2.halted = s.halted := rfl
@[simp] theorem State.fetch_nmiPending : s.fetch.2.nmiPending = s.nmiPending := rfl
@[simp] theorem State.fetch_irqLine : s.fetch.2.irqLine = s.irqLine := rfl
@[simp] theorem State.fetch_resetPending : s.fetch.2.resetPending = s.resetPending := rfl
@[simp] theorem State.fetch_inputs : s.fetch.2.inputs = s.inputs := rfl
end

/-! The platform after the three stack and fetch operations, as the one access each makes. -/

theorem State.push_bus (s : State) (v : Byte) : (s.push v).bus = (s.write (stackAddr s.sp) v).bus := rfl
theorem State.pull_bus (s : State) : s.pull.2.bus = ((s.setSp (s.sp + 1)).read (stackAddr (s.sp + 1))).2.bus := rfl
theorem State.fetch_bus (s : State) : s.fetch.2.bus = (s.read s.pc).2.bus := rfl
@[simp] theorem State.setSp_read_bus (s : State) (v : Byte) (addr : Word) :
    ((s.setSp v).read addr).2.bus = (s.read addr).2.bus := rfl

end Sys2Proof.Machine
end

