-- ==== Sys2Proof/Laws/Bus.lean ====
section
/-! SUPPORT. The two bus primitives, once and for all: what a read and a write record, what they leave unchanged, and
that both keep the memory invariant. -/

namespace Sys2Proof.Machine

/-! ### The map -/

theorem region_of_lt (a : Word) (h : a.toNat < 0x2000) : region a = .ram := by
  unfold region
  rw [if_pos (by simpa [BitVec.lt_def] using h)]

/-- The map of R41 told on numbers. -/
theorem region_eq_nat (a : Word) :
    region a = if a.toNat < 0x2000 then .ram
      else if a.toNat < 0x4000 then .ppu
      else if a.toNat = 0x4014 then .oamDma
      else if a.toNat = 0x4016 then .port1
      else if a.toNat = 0x4017 then .port2
      else if a.toNat < 0x4020 then .undriven
      else .cartridge := by
  have h : ∀ n : Word, (a = n) = (a.toNat = n.toNat) := fun n => propext BitVec.toNat_inj.symm
  unfold region
  simp only [BitVec.lt_def, h]
  rfl

theorem region_oamDma_iff (a : Word) : region a = .oamDma ↔ a = 0x4014 := by
  constructor
  · intro h
    rw [region_eq_nat] at h
    repeat' split at h
    all_goals first | contradiction | skip
    apply BitVec.eq_of_toNat_eq
    simpa using by assumption
  · rintro rfl
    decide

/-- Which addresses the map gives to RAM and to the cartridge. -/
theorem lt_of_region_ram {a : Word} (h : region a = .ram) : a.toNat < 0x2000 := by
  unfold region at h
  split at h
  · rename_i ha
    simpa [BitVec.lt_def] using ha
  · repeat (first | contradiction | split at h)

theorem le_of_region_cartridge {a : Word} (h : region a = .cartridge) : 0x4020 ≤ a.toNat := by
  unfold region at h
  repeat (first | contradiction | split at h)
  rename_i ha
  simpa [BitVec.lt_def] using ha

@[simp] theorem region_stackAddr (sp : Byte) : region (stackAddr sp) = .ram := by
  have := sp.isLt
  exact region_of_lt _ (by rw [stackAddr, mkWord_toNat]; simp; omega)

@[simp] theorem region_zext16 (v : Byte) : region (zext16 v) = .ram := by
  have := v.isLt
  exact region_of_lt _ (by rw [zext16_toNat]; omega)

@[simp] theorem memKey_zext16 (v : Byte) : memKey (zext16 v) = v.toNat := by
  have := v.isLt
  simp only [memKey, region_zext16, zext16_toNat]
  omega

@[simp] theorem memKey_stackAddr (sp : Byte) : memKey (stackAddr sp) = 0x0100 + sp.toNat := by
  have := sp.isLt
  have h : (stackAddr sp).toNat = 0x0100 + sp.toNat := by rw [stackAddr, mkWord_toNat]; simp
  simp only [memKey, region_stackAddr, h]
  omega

theorem memKey_ram {a : Word} (h : region a = .ram) : memKey a = a.toNat % 0x0800 := by simp [memKey, h]

theorem memKey_cartridge {a : Word} (h : region a = .cartridge) : memKey a = a.toNat := by simp [memKey, h]

/-! ### The record of accesses -/

@[simp] theorem Bus.accesses_record (b : Bus) (kind : AccessKind) (addr : Word) (v : Byte) :
    (b.record kind addr v).accesses = b.accesses ++ [(kind, addr)] := by
  simp [Bus.accesses, Bus.record]

@[simp] theorem Bus.cycle_record (b : Bus) (kind : AccessKind) (addr : Word) (v : Byte) :
    (b.record kind addr v).cycle = b.cycle + 1 := rfl

@[simp] theorem Bus.afterRead_history (b : Bus) (addr : Word) : (b.afterRead addr).history = b.history := by
  unfold Bus.afterRead; split <;> rfl

@[simp] theorem Bus.afterWrite_history (b : Bus) (addr : Word) (v : Byte) :
    (b.afterWrite addr v).history = b.history := by
  unfold Bus.afterWrite; split <;> rfl

@[simp] theorem Bus.afterRead_cycle (b : Bus) (addr : Word) : (b.afterRead addr).cycle = b.cycle := by
  unfold Bus.afterRead; split <;> rfl

@[simp] theorem Bus.afterWrite_cycle (b : Bus) (addr : Word) (v : Byte) :
    (b.afterWrite addr v).cycle = b.cycle := by
  unfold Bus.afterWrite; split <;> rfl

@[simp] theorem Bus.afterRead_stepNo (b : Bus) (addr : Word) : (b.afterRead addr).stepNo = b.stepNo := by
  unfold Bus.afterRead; split <;> rfl

@[simp] theorem Bus.afterWrite_stepNo (b : Bus) (addr : Word) (v : Byte) :
    (b.afterWrite addr v).stepNo = b.stepNo := by
  unfold Bus.afterWrite; split <;> rfl

theorem Bus.accesses_congr {b b' : Bus} (h : b'.history = b.history) : b'.accesses = b.accesses := by
  simp [Bus.accesses, h]

@[simp] theorem State.read_accesses (s : State) (addr : Word) :
    (s.read addr).2.bus.accesses = s.bus.accesses ++ [(.read, addr)] := by
  simp [State.read, Bus.accesses_congr (Bus.afterRead_history s.bus addr)]

@[simp] theorem State.write_accesses (s : State) (addr : Word) (v : Byte) :
    (s.write addr v).bus.accesses = s.bus.accesses ++ [(.write, addr)] := by
  simp [State.write, Bus.accesses_congr (Bus.afterWrite_history s.bus addr v)]

@[simp] theorem State.dummyRead_accesses (s : State) (addr : Word) :
    (s.dummyRead addr).bus.accesses = s.bus.accesses ++ [(.read, addr)] := State.read_accesses s addr

@[simp] theorem State.read_cycle (s : State) (addr : Word) : (s.read addr).2.bus.cycle = s.bus.cycle + 1 := by
  simp [State.read]

@[simp] theorem State.write_cycle (s : State) (addr : Word) (v : Byte) :
    (s.write addr v).bus.cycle = s.bus.cycle + 1 := by
  simp [State.write]

@[simp] theorem State.dummyRead_cycle (s : State) (addr : Word) :
    (s.dummyRead addr).bus.cycle = s.bus.cycle + 1 := State.read_cycle s addr

/-- The event a read records. -/
theorem State.read_history (s : State) (addr : Word) :
    (s.read addr).2.bus.history = ⟨.read, addr, (s.read addr).1, s.bus.stepNo, s.bus.cycle + 1⟩ :: s.bus.history := by
  simp [State.read, Bus.record]

/-- The event a write records. -/
theorem State.write_history (s : State) (addr : Word) (v : Byte) :
    (s.write addr v).bus.history = ⟨.write, addr, v, s.bus.stepNo, s.bus.cycle + 1⟩ :: s.bus.history := by
  simp [State.write, Bus.record]

/-- A bus operation changes nothing but the platform. -/
theorem State.read_snd (s : State) (addr : Word) : (s.read addr).2 = { s with bus := (s.read addr).2.bus } := rfl

theorem State.dummyRead_eq (s : State) (addr : Word) : s.dummyRead addr = { s with bus := (s.dummyRead addr).bus } := rfl

theorem State.write_eq (s : State) (addr : Word) (v : Byte) :
    s.write addr v = { s with bus := (s.write addr v).bus } := rfl

/-! ### Plain memory -/

/-- A read of plain memory gives the byte that stands there. -/
theorem State.read_fst_of_peek (s : State) (addr : Word) (v : Byte) (h : s.bus.peek addr = some v) :
    (s.read addr).1 = v := by
  simp only [State.read, Bus.answer]
  unfold Bus.peek at h
  split at h <;> simp_all

/-- `peek` depends on the memory and the mapper alone. -/
theorem Bus.peek_congr {b b' : Bus} (hm : b'.mem = b.mem) (hw : b'.mapperWrites = b.mapperWrites) (a : Word) :
    b'.peek a = b.peek a := by
  simp [Bus.peek, Bus.readPRG, hm, hw]

/-! ### Frames -/

theorem Bus.PadsKept.refl (b : Bus) : b.PadsKept b := ⟨[], rfl, fun _ => ⟨rfl, rfl⟩⟩

theorem Bus.PadsKept.trans {b b' b'' : Bus} (h : b.PadsKept b') (h' : b'.PadsKept b'') : b.PadsKept b'' := by
  obtain ⟨n, hn, hp⟩ := h
  obtain ⟨n', hn', hp'⟩ := h'
  refine ⟨n' ++ n, by simp [hn, hn'], fun hall => ?_⟩
  have h1 := hp fun e he => hall e (by simp [he])
  have h2 := hp' fun e he => hall e (by simp [he])
  exact ⟨h2.1.trans h1.1, h2.2.trans h1.2⟩

theorem Bus.ReadOnly.refl (b : Bus) : b.ReadOnly b :=
  ⟨fun _ => rfl, rfl, rfl, rfl, rfl, rfl, rfl, rfl, .refl b⟩

theorem Bus.ReadOnly.trans {b b' b'' : Bus} (h : b.ReadOnly b') (h' : b'.ReadOnly b'') : b.ReadOnly b'' :=
  ⟨fun a => (h'.peek a).trans (h.peek a), h'.mem.trans h.mem, h'.mapperWrites.trans h.mapperWrites,
   h'.strobe.trans h.strobe, h'.latch1.trans h.latch1, h'.latch2.trans h.latch2, h'.oamPages.trans h.oamPages,
   h'.stepNo.trans h.stepNo, h.pads.trans h'.pads⟩

theorem State.read_pads (s : State) (addr : Word) : s.bus.PadsKept (s.read addr).2.bus := by
  refine ⟨[_], by rw [State.read_history]; rfl, fun hall => ?_⟩
  have h := hall _ (List.mem_singleton.2 rfl)
  simp only [State.read, Bus.record, Bus.afterRead]
  split <;> simp_all

theorem State.read_readOnly (s : State) (addr : Word) : s.bus.ReadOnly (s.read addr).2.bus := by
  have hm : (s.read addr).2.bus.mem = s.bus.mem := by
    simp only [State.read, Bus.record, Bus.afterRead]; split <;> rfl
  have hw : (s.read addr).2.bus.mapperWrites = s.bus.mapperWrites := by
    simp only [State.read, Bus.record, Bus.afterRead]; split <;> rfl
  refine ⟨Bus.peek_congr hm hw, hm, hw, ?_, ?_, ?_, ?_, ?_, State.read_pads s addr⟩ <;>
    simp only [State.read, Bus.record, Bus.afterRead] <;> split <;> simp [Pad.afterRead] <;> split <;> rfl

theorem State.dummyRead_readOnly (s : State) (addr : Word) : s.bus.ReadOnly (s.dummyRead addr).bus :=
  State.read_readOnly s addr

theorem Bus.StoresOnlyTo.of_readOnly {b b' : Bus} (h : b.ReadOnly b') (ts : List Word) : b.StoresOnlyTo b' ts :=
  ⟨fun a _ => h.peek a, fun _ => h.mapperWrites, fun _ => h.strobe, fun _ => h.oamPages, h.latch1, h.latch2, h.stepNo,
   h.pads⟩

theorem Bus.StoresOnlyTo.trans {b b' b'' : Bus} {ts us : List Word} (h : b.StoresOnlyTo b' ts)
    (h' : b'.StoresOnlyTo b'' us) : b.StoresOnlyTo b'' (ts ++ us) := by
  have split_mem : ∀ {q : Word → Prop}, (∀ t ∈ ts ++ us, q t) → (∀ t ∈ ts, q t) ∧ ∀ t ∈ us, q t := by
    intro q hq
    exact ⟨fun t ht => hq t (by simp [ht]), fun t ht => hq t (by simp [ht])⟩
  refine ⟨fun a ha => ?_, fun ha => ?_, fun ha => ?_, fun ha => ?_, h'.latch1.trans h.latch1,
    h'.latch2.trans h.latch2, h'.stepNo.trans h.stepNo, h.pads.trans h'.pads⟩ <;>
    obtain ⟨h1, h2⟩ := split_mem ha
  · exact (h'.peek a h2).trans (h.peek a h1)
  · exact (h'.mapperWrites h2).trans (h.mapperWrites h1)
  · exact (h'.strobe h2).trans (h.strobe h1)
  · exact (h'.oamPages h2).trans (h.oamPages h1)

/-- Naming more targets says less. -/
theorem Bus.StoresOnlyTo.mono {b b' : Bus} {ts us : List Word} (h : b.StoresOnlyTo b' ts) (hs : ∀ t ∈ ts, t ∈ us) :
    b.StoresOnlyTo b' us :=
  ⟨fun a ha => h.peek a fun t ht => ha t (hs t ht), fun ha => h.mapperWrites fun t ht => ha t (hs t ht),
   fun ha => h.strobe fun t ht => ha t (hs t ht), fun ha => h.oamPages fun t ht => ha t (hs t ht), h.latch1, h.latch2,
   h.stepNo, h.pads⟩

theorem State.write_pads (s : State) (addr : Word) (v : Byte) : s.bus.PadsKept (s.write addr v).bus := by
  refine ⟨[_], by rw [State.write_history]; rfl, fun hall => ?_⟩
  have h := hall _ (List.mem_singleton.2 rfl)
  simp only [State.write, Bus.record, Bus.afterWrite]
  split <;> simp_all

theorem State.write_peek (s : State) (addr : Word) (v : Byte) (a : Word) (h : sharesStorage addr a = false) :
    (s.write addr v).bus.peek a = s.bus.peek a := by
  unfold sharesStorage at h
  cases hr : region addr <;> simp only [hr] at h
  case ram =>
    have hk : memKey addr < 0x0800 := by rw [memKey_ram hr]; omega
    cases ha : region a <;>
      simp only [State.write, Bus.record, Bus.afterWrite, Bus.peek, Bus.readPRG, hr, ha] at h ⊢
    case ram =>
      exact congrArg some (Memory.lookup_store_ne _ _ _ _ fun e => by simp [e] at h)
    case cartridge =>
      have hka : memKey addr ≠ memKey a := by
        have := le_of_region_cartridge ha
        rw [memKey_cartridge ha]
        omega
      split
      · exact congrArg some (Memory.lookup_store_ne _ _ _ _ hka)
      · rw [Memory.cartridgePart_store _ _ _ (by omega)]
  case cartridge =>
    cases ha : region a <;>
      simp_all [State.write, Bus.record, Bus.afterWrite, Bus.peek]
  all_goals
    cases ha : region a <;> simp only [State.write, Bus.record, Bus.afterWrite, Bus.peek, Bus.readPRG, hr, ha]

theorem State.write_storesOnlyTo (s : State) (addr : Word) (v : Byte) :
    s.bus.StoresOnlyTo (s.write addr v).bus [addr] := by
  refine ⟨fun a ha => State.write_peek s addr v a (ha addr (by simp)), fun ha => ?_, fun ha => ?_, fun ha => ?_,
    ?_, ?_, ?_, State.write_pads s addr v⟩
  all_goals
    cases hr : region addr <;> simp_all [State.write, Bus.record, Bus.afterWrite, Pad.afterStrobe]
  all_goals split <;> rfl

theorem State.write_mapperWrites (s : State) (a : Word) (v : Byte) (h : region a = .cartridge) :
    (s.write a v).bus.mapperWrites = (a, v) :: s.bus.mapperWrites := by
  simp [State.write, Bus.record, Bus.afterWrite, h]

theorem State.write_oamPages (s : State) (a : Word) (v : Byte) (h : region a = .oamDma) :
    (s.write a v).bus.oamPages = s.bus.oamPages ++ [v] := by
  simp [State.write, Bus.record, Bus.afterWrite, h]

theorem State.write_strobe (s : State) (a : Word) (v : Byte) (h : region a = .port1) :
    (s.write a v).bus.strobe = v.getLsbD 0 := by
  simp [State.write, Bus.record, Bus.afterWrite, h]

@[simp] theorem State.read_stepNo (s : State) (a : Word) : (s.read a).2.bus.stepNo = s.bus.stepNo :=
  (State.read_readOnly s a).stepNo

@[simp] theorem State.write_stepNo (s : State) (a : Word) (v : Byte) : (s.write a v).bus.stepNo = s.bus.stepNo :=
  (State.write_storesOnlyTo s a v).stepNo

theorem State.write_wf (s : State) (a : Word) (v : Byte) (h : s.bus.mem.wf = true) :
    (s.write a v).bus.mem.wf = true := by
  cases hr : region a <;> simp only [State.write, Bus.record, Bus.afterWrite, hr] <;> try exact h
  exact Memory.wf_store _ h _ _

/-- A byte written to RAM is read back through every mirror of its cell. -/
theorem State.write_peek_same (s : State) (h : s.bus.mem.wf = true) (addr : Word) (v : Byte) (a : Word)
    (hr : region addr = .ram) (ha : region a = .ram) (hk : memKey a = memKey addr) :
    (s.write addr v).bus.peek a = some v := by
  simp [State.write, Bus.record, Bus.afterWrite, Bus.peek, hr, ha, hk, Memory.lookup_store _ h]

/-! ### The invariant -/

theorem State.Inv.of_readOnly {s t : State} (h : s.Inv) (hb : s.bus.ReadOnly t.bus) : t.Inv := by
  unfold State.Inv
  rw [hb.mem]
  exact h

theorem State.write_inv (s : State) (addr : Word) (v : Byte) (h : s.Inv) : (s.write addr v).Inv := by
  unfold State.Inv at *
  cases hr : region addr <;> simp only [State.write, Bus.record, Bus.afterWrite, hr] <;> try exact h
  refine ⟨Memory.wf_store _ h.1 _ _, ?_⟩
  simp only [Memory.mapped, List.all_eq_true] at h ⊢
  intro d hd
  rcases Memory.mem_store _ _ _ _ hd with rfl | hd
  · simp [memKey_ram hr]
    omega
  · exact h.2 d hd

end Sys2Proof.Machine
end

