-- ==== Sys2Proof/Laws/Decode.lean ====
section
/-! SUPPORT. The shape of the opcode map: every entry takes no operand byte, one, or two, so decoding as many bytes as
`operandCount` asks for never fails. -/

namespace Sys2Proof

/-- An entry has one of the three formats of R53. -/
def HasFormat (e : OpcodeEntry) : Prop :=
  (∃ i, e = noArg i) ∨ (∃ k, e = byteArg k) ∨ ∃ k, e = wordArg k

theorem hasFormat_noArg (i : Instr) : HasFormat (noArg i) := .inl ⟨i, rfl⟩
theorem hasFormat_byteArg (k : Byte → Instr) : HasFormat (byteArg k) := .inr (.inl ⟨k, rfl⟩)
theorem hasFormat_wordArg (k : Word → Instr) : HasFormat (wordArg k) := .inr (.inr ⟨k, rfl⟩)

/-- Every entry of the opcode map has a format. -/
theorem opcodeMap_hasFormat : ∀ row ∈ opcodeMap, ∀ e ∈ row, HasFormat e := by
  simp only [opcodeMap, opcodeRow0, opcodeRow1, opcodeRow2, opcodeRow3, opcodeRow4, opcodeRow5, opcodeRow6, opcodeRow7,
    opcodeRow8, opcodeRow9, opcodeRowA, opcodeRowB, opcodeRowC, opcodeRowD, opcodeRowE, opcodeRowF, illegalEntry,
    immArg, zpArg, zpxArg, zpyArg, izxArg, izyArg, absArg, absxArg, absyArg, List.cons_append, List.nil_append,
    List.forall_mem_cons, hasFormat_noArg, hasFormat_byteArg, hasFormat_wordArg, true_and]
  simp

theorem mem_or_eq_getD {α : Type} (l : List α) (n : Nat) (d : α) : l.getD n d ∈ l ∨ l.getD n d = d := by
  rw [List.getD_eq_getElem?_getD]
  cases h : l[n]? with
  | none => exact .inr rfl
  | some x => exact .inl (List.mem_of_getElem? h)

theorem opcodeEntry_hasFormat (op : Byte) : HasFormat (opcodeEntry op) := by
  unfold opcodeEntry
  rcases mem_or_eq_getD opcodeMap (op.toNat / 16) [] with hrow | hrow
  · rcases mem_or_eq_getD (opcodeMap.getD (op.toNat / 16) []) (op.toNat % 16) (illegalEntry op) with he | he
    · exact opcodeMap_hasFormat _ hrow _ he
    · rw [he]
      exact hasFormat_noArg _
  · rw [hrow]
    exact hasFormat_noArg _

/-- What an entry answers depends on the first `operandCount` bytes, and with those it answers. -/
theorem decode_operandCount (op : Byte) (bytes : List Byte) (h : bytes.length = operandCount op) :
    ∃ i, decode (op :: bytes) = some (i, []) := by
  rw [decode]
  unfold operandCount at h
  rcases opcodeEntry_hasFormat op with ⟨i, he⟩ | ⟨k, he⟩ | ⟨k, he⟩ <;> rw [he] at h ⊢
  · simp [noArg] at h
    exact ⟨i, by simp [h, noArg]⟩
  · simp [byteArg] at h
    obtain ⟨b, rfl⟩ := List.length_eq_one_iff.1 h
    exact ⟨k b, rfl⟩
  · simp [wordArg] at h
    obtain ⟨lo, hi, rfl⟩ := List.length_eq_two.1 h
    exact ⟨k (mkWord hi lo), rfl⟩

theorem operandCount_le (op : Byte) : operandCount op ≤ 2 := by
  unfold operandCount
  split <;> try split
  all_goals omega

end Sys2Proof
end

