-- ==== Sys2Proof/Laws/Operands.lean ====
section
/-! SUPPORT. What each operand operation can do: it changes the platform alone, a read-class operand stores nothing, and
the store and read-modify-write operands store to their target alone. -/

namespace Sys2Proof.Machine

theorem State.readZpPointer_snd (s : State) (ptr : Byte) :
    (s.readZpPointer ptr).2 = { s with bus := (s.readZpPointer ptr).2.bus } := rfl

theorem State.readZpPointer_readOnly (s : State) (ptr : Byte) : s.bus.ReadOnly (s.readZpPointer ptr).2.bus :=
  (State.read_readOnly s _).trans (State.read_readOnly _ _)

/-- Finding an address changes the platform alone. -/
theorem State.resolve_snd (s : State) (m : MemMode) : (s.resolve m).2 = { s with bus := (s.resolve m).2.bus } := by
  cases m <;> rfl

theorem State.resolve_readOnly (s : State) (m : MemMode) : s.bus.ReadOnly (s.resolve m).2.bus := by
  cases m with
  | zp | abs | absx | absy => exact .refl _
  | zpx | zpy => exact State.dummyRead_readOnly s _
  | izx p => exact (State.dummyRead_readOnly s _).trans (State.readZpPointer_readOnly _ _)
  | izy p => exact State.readZpPointer_readOnly s p

theorem State.readMem_snd (s : State) (m : MemMode) : (s.readMem m).2 = { s with bus := (s.readMem m).2.bus } := by
  have h := State.resolve_snd s m
  rw [State.readMem, State.read_snd]
  split
  · rw [State.dummyRead_eq, h]
  · rw [h]

theorem State.readMem_readOnly (s : State) (m : MemMode) : s.bus.ReadOnly (s.readMem m).2.bus := by
  refine (State.resolve_readOnly s m).trans ?_
  rw [State.readMem]
  split
  · exact (State.dummyRead_readOnly _ _).trans (State.read_readOnly _ _)
  · exact State.read_readOnly _ _

/-- Reading an operand changes the platform alone. -/
theorem State.readOperand_snd (s : State) (m : ReadMode) :
    (s.readOperand m).2 = { s with bus := (s.readOperand m).2.bus } := by
  cases m with
  | imm v => rfl
  | mem m => exact State.readMem_snd s m

theorem State.readOperand_readOnly (s : State) (m : ReadMode) : s.bus.ReadOnly (s.readOperand m).2.bus := by
  cases m with
  | imm v => exact .refl _
  | mem m => exact State.readMem_readOnly s m

theorem State.target_snd (s : State) (m : MemMode) : (s.target m).2 = { s with bus := (s.target m).2.bus } := by
  have h := State.resolve_snd s m
  rw [State.target]
  split
  · rw [State.dummyRead_eq, h]
  · exact h

theorem State.target_readOnly (s : State) (m : MemMode) : s.bus.ReadOnly (s.target m).2.bus := by
  refine (State.resolve_readOnly s m).trans ?_
  rw [State.target]
  split
  · exact State.dummyRead_readOnly _ _
  · exact .refl _

theorem State.storeOperand_eq (s : State) (m : MemMode) (v : Byte) :
    s.storeOperand m v = { s with bus := (s.storeOperand m v).bus } := by
  rw [State.storeOperand, State.write_eq, State.target_snd]

theorem State.storeOperand_storesOnlyTo (s : State) (m : MemMode) (v : Byte) :
    s.bus.StoresOnlyTo (s.storeOperand m v).bus [(s.target m).1] :=
  (Bus.StoresOnlyTo.of_readOnly (State.target_readOnly s m) []).trans (State.write_storesOnlyTo _ _ _)

theorem State.modifyMem_snd (s : State) (m : MemMode) (f : Byte → Byte) :
    (s.modifyMem m f).2 = { s with bus := (s.modifyMem m f).2.bus } := by
  rw [State.modifyMem, State.write_eq, State.write_eq, State.read_snd, State.target_snd]

theorem State.modifyMem_storesOnlyTo (s : State) (m : MemMode) (f : Byte → Byte) :
    s.bus.StoresOnlyTo (s.modifyMem m f).2.bus [(s.target m).1] := by
  have h := Bus.StoresOnlyTo.of_readOnly ((State.target_readOnly s m).trans (State.read_readOnly _ (s.target m).1)) []
  exact ((h.trans (State.write_storesOnlyTo _ _ _)).trans (State.write_storesOnlyTo _ _ _)).mono (by simp)

/-- What a store does to the platform, whole. -/
theorem State.storeOperand_stored (s : State) (m : MemMode) (v : Byte) :
    Stored s (s.storeOperand m v).bus (s.target m).1 v := by
  have ht := State.target_readOnly s m
  refine ⟨State.storeOperand_storesOnlyTo s m v, ⟨(s.target m).2.bus.history, ?_⟩, ?_, ?_, ?_, ?_⟩
  · rw [State.storeOperand, State.write_history, ht.stepNo, State.write_cycle]
  · intro hw hr a ha
    have h : region a = .ram ∧ memKey a = memKey (s.target m).1 := by simpa [sharesStorage, hr] using ha
    exact State.write_peek_same _ (by rw [ht.mem]; exact hw) _ _ _ hr h.1 h.2
  · intro h
    rw [State.storeOperand, State.write_mapperWrites _ _ _ h, ht.mapperWrites]
  · intro h
    rw [State.storeOperand, State.write_oamPages _ _ _ h, ht.oamPages]
  · intro h
    rw [State.storeOperand, State.write_strobe _ _ _ h]

/-- What a read-modify-write operand does to the platform, whole. -/
theorem State.modifyMem_modified (s : State) (m : MemMode) (f : Byte → Byte) :
    Modified s (s.modifyMem m f).2.bus (s.target m).1 (s.modifyMem m f).1 (f (s.modifyMem m f).1) := by
  have ht := State.target_readOnly s m
  have hr := ht.trans (State.read_readOnly (s.target m).2 (s.target m).1)
  refine ⟨State.modifyMem_storesOnlyTo s m f, ?_, ?_, ?_, ?_, ?_, ?_⟩
  · intro v hv
    exact State.read_fst_of_peek _ _ _ (by rw [ht.peek]; exact hv)
  · refine ⟨(s.target m).2.bus.history, (s.target m).2.bus.cycle, ?_, ?_⟩
    · simp [State.modifyMem]
    · simp only [State.modifyMem, State.write_history, State.read_history, State.write_cycle, State.read_cycle,
        State.write_stepNo, State.read_stepNo, ht.stepNo]
  · intro hw hreg a ha
    have h : region a = .ram ∧ memKey a = memKey (s.target m).1 := by simpa [sharesStorage, hreg] using ha
    refine State.write_peek_same _ (State.write_wf _ _ _ ?_) _ _ _ hreg h.1 h.2
    rw [hr.mem]
    exact hw
  · intro h
    simp only [State.modifyMem]
    rw [State.write_mapperWrites _ _ _ h, State.write_mapperWrites _ _ _ h, hr.mapperWrites]
  · intro h
    simp only [State.modifyMem]
    rw [State.write_oamPages _ _ _ h, State.write_oamPages _ _ _ h, hr.oamPages]
    simp
  · intro h
    simp only [State.modifyMem]
    rw [State.write_strobe _ _ _ h]

/-! ### The stack -/

@[simp] theorem State.push_accesses (s : State) (v : Byte) :
    (s.push v).bus.accesses = s.bus.accesses ++ [(.write, stackAddr s.sp)] := State.write_accesses _ _ _

@[simp] theorem State.pull_accesses (s : State) :
    s.pull.2.bus.accesses = s.bus.accesses ++ [(.read, stackAddr (s.sp + 1))] := State.read_accesses _ _

@[simp] theorem State.dummyStack_accesses (s : State) :
    s.dummyStack.bus.accesses = s.bus.accesses ++ [(.read, stackAddr s.sp)] := State.read_accesses _ _

@[simp] theorem State.implied_accesses (s : State) :
    s.implied.bus.accesses = s.bus.accesses ++ [(.read, s.pc)] := State.read_accesses _ _

@[simp] theorem State.fetch_accesses (s : State) :
    s.fetch.2.bus.accesses = s.bus.accesses ++ [(.read, s.pc)] := State.read_accesses _ _

@[simp] theorem State.push_cycle (s : State) (v : Byte) : (s.push v).bus.cycle = s.bus.cycle + 1 :=
  State.write_cycle _ _ _

@[simp] theorem State.pull_cycle (s : State) : s.pull.2.bus.cycle = s.bus.cycle + 1 := State.read_cycle _ _

@[simp] theorem State.dummyStack_cycle (s : State) : s.dummyStack.bus.cycle = s.bus.cycle + 1 :=
  State.read_cycle _ _

/-- Two stack addresses share a byte exactly when the stack pointers are equal. -/
theorem sharesStorage_stackAddr (a b : Byte) : sharesStorage (stackAddr a) (stackAddr b) = decide (a = b) := by
  simp only [sharesStorage, region_stackAddr, memKey_stackAddr]
  have h : (0x0100 + b.toNat = 0x0100 + a.toNat) ↔ a = b := by
    rw [← BitVec.toNat_inj]
    omega
  simp only [h, decide_true, Bool.true_and]

/-- A push stores its byte where a pull will read it. -/
theorem State.push_peek (s : State) (v : Byte) (h : s.bus.mem.wf = true) :
    (s.push v).bus.peek (stackAddr s.sp) = some v :=
  State.write_peek_same s h _ v _ (region_stackAddr _) (region_stackAddr _) rfl

/-- A pull answers the byte above the stack pointer. -/
theorem State.peek_pull (s : State) : s.bus.peek (stackAddr (s.sp + 1)) = some s.pull.1 := by
  obtain ⟨v, hv⟩ : ∃ v, s.bus.peek (stackAddr (s.sp + 1)) = some v := by simp [Bus.peek]
  rw [hv]
  exact congrArg some (State.read_fst_of_peek _ _ _ hv).symm

theorem State.push_storesOnlyTo (s : State) (v : Byte) : s.bus.StoresOnlyTo (s.push v).bus [stackAddr s.sp] :=
  State.write_storesOnlyTo s _ v

theorem State.pull_readOnly (s : State) : s.bus.ReadOnly s.pull.2.bus := State.read_readOnly s _

theorem State.dummyStack_readOnly (s : State) : s.bus.ReadOnly s.dummyStack.bus := State.dummyRead_readOnly s _

theorem State.implied_readOnly (s : State) : s.bus.ReadOnly s.implied.bus := State.dummyRead_readOnly s _

theorem State.fetch_readOnly (s : State) : s.bus.ReadOnly s.fetch.2.bus := State.read_readOnly s _

theorem State.push_eq (s : State) (v : Byte) : s.push v = { s with sp := s.sp - 1, bus := (s.push v).bus } := rfl

theorem State.pull_snd (s : State) : s.pull.2 = { s with sp := s.sp + 1, bus := s.pull.2.bus } := rfl

theorem State.implied_eq (s : State) : s.implied = { s with bus := s.implied.bus } := rfl

/-- Going through a vector stores nothing. -/
theorem State.loadVector_readOnly (s : State) (vec : Word) : s.bus.ReadOnly (s.loadVector vec).bus :=
  (State.read_readOnly (s.setP { s.p with i := true }) vec).trans (State.read_readOnly _ _)

/-- Entering a handler stores to the three stack bytes below S alone. -/
theorem State.enterHandler_storesOnlyTo (s : State) (b : Bool) (vec : Word) :
    s.bus.StoresOnlyTo (s.enterHandler b vec).bus [stackAddr s.sp, stackAddr (s.sp - 1), stackAddr (s.sp - 1 - 1)] :=
  (((State.push_storesOnlyTo s _).trans (State.push_storesOnlyTo _ _)).trans (State.push_storesOnlyTo _ _)).trans
    (Bus.StoresOnlyTo.of_readOnly (State.loadVector_readOnly _ vec) []) |>.mono (by simp)

@[simp] theorem State.setP_read_bus (s : State) (v : Flags) (addr : Word) :
    ((s.setP v).read addr).2.bus = (s.read addr).2.bus := rfl

@[simp] theorem State.loadVector_accesses (s : State) (vec : Word) :
    (s.loadVector vec).bus.accesses = s.bus.accesses ++ [(.read, vec), (.read, vec + 1)] := by
  simp [State.loadVector]

@[simp] theorem State.loadVector_cycle (s : State) (vec : Word) :
    (s.loadVector vec).bus.cycle = s.bus.cycle + 2 := by
  simp [State.loadVector]

theorem State.loadVector_eq (s : State) (vec : Word) :
    s.loadVector vec =
      { s with p := { s.p with i := true }, pc := (s.loadVector vec).pc, bus := (s.loadVector vec).bus } := rfl

/-- Entering a handler changes S, I, pc and the platform, and nothing else. -/
theorem State.enterHandler_eq (s : State) (b : Bool) (vec : Word) :
    s.enterHandler b vec =
      { s with sp := s.sp - 1 - 1 - 1, p := { s.p with i := true }, pc := (s.enterHandler b vec).pc
               bus := (s.enterHandler b vec).bus } := by
  unfold State.enterHandler
  simp only
  rw [State.loadVector_eq, State.push_eq _ (Flags.image _ _), State.push_eq _ (loByte _), State.push_eq _ (hiByte _)]

/-- The five accesses of a handler's entry. -/
theorem State.enterHandler_accesses (s : State) (b : Bool) (vec : Word) :
    (s.enterHandler b vec).bus.accesses = s.bus.accesses ++
      [(.write, stackAddr s.sp), (.write, stackAddr (s.sp - 1)), (.write, stackAddr (s.sp - 1 - 1)), (.read, vec),
       (.read, vec + 1)] := by
  simp [State.enterHandler]

/-- An interrupt entry changes S, I, pc and the platform, and nothing else. -/
theorem State.interruptEntry_eq (s : State) (vec : Word) :
    s.interruptEntry vec =
      { s with sp := s.sp - 1 - 1 - 1, p := { s.p with i := true }, pc := (s.interruptEntry vec).pc
               bus := (s.interruptEntry vec).bus } := by
  unfold State.interruptEntry
  rw [State.enterHandler_eq, State.dummyRead_eq (s.dummyRead _), State.dummyRead_eq s]

theorem State.resetStackCycle_eq (s : State) :
    s.resetStackCycle = { s with sp := s.sp - 1, bus := s.resetStackCycle.bus } := rfl

/-- The reset sequence changes S, I, pc, the two latches and the platform, and nothing else. -/
theorem State.resetSequence_eq (s : State) :
    s.resetSequence =
      { s with sp := s.sp - 1 - 1 - 1, p := { s.p with i := true }, pc := s.resetSequence.pc
               bus := s.resetSequence.bus, resetPending := false, nmiPending := false } := by
  have e : s.resetSequence =
      { (((s.dummyRead s.pc).dummyRead s.pc).resetStackCycle.resetStackCycle.resetStackCycle).loadVector resetVector with
        resetPending := false, nmiPending := false } := rfl
  have e2 : ((s.dummyRead s.pc).dummyRead s.pc).resetStackCycle.resetStackCycle.resetStackCycle =
      { s with sp := s.sp - 1 - 1 - 1
               bus := ((s.dummyRead s.pc).dummyRead s.pc).resetStackCycle.resetStackCycle.resetStackCycle.bus } := by
    rw [State.resetStackCycle_eq (State.resetStackCycle (State.resetStackCycle _)),
      State.resetStackCycle_eq (State.resetStackCycle _), State.resetStackCycle_eq,
      State.dummyRead_eq (s.dummyRead _), State.dummyRead_eq s]
  generalize ((s.dummyRead s.pc).dummyRead s.pc).resetStackCycle.resetStackCycle.resetStackCycle = s2 at *
  rw [e, State.loadVector_eq, e2]

/-- The reset sequence stores nothing. -/
theorem State.resetSequence_readOnly (s : State) : s.bus.ReadOnly s.resetSequence.bus := by
  have h1 := (State.dummyRead_readOnly s s.pc).trans (State.dummyRead_readOnly _ s.pc)
  have hc : ∀ u : State, u.bus.ReadOnly u.resetStackCycle.bus := State.dummyStack_readOnly
  have h2 := ((h1.trans (hc _)).trans (hc _)).trans (hc _)
  have h3 := h2.trans (State.loadVector_readOnly _ resetVector)
  unfold State.resetSequence
  exact h3

/-! ### The invariant -/

theorem State.storeOperand_inv (s : State) (m : MemMode) (v : Byte) (h : s.Inv) : (s.storeOperand m v).Inv :=
  State.write_inv _ _ _ (h.of_readOnly (State.target_readOnly s m))

theorem State.modifyMem_inv (s : State) (m : MemMode) (f : Byte → Byte) (h : s.Inv) : (s.modifyMem m f).2.Inv :=
  State.write_inv _ _ _ (State.write_inv _ _ _
    (h.of_readOnly ((State.target_readOnly s m).trans (State.read_readOnly _ _))))

theorem State.push_inv (s : State) (v : Byte) (h : s.Inv) : (s.push v).Inv := State.write_inv s _ v h

theorem State.enterHandler_inv (s : State) (b : Bool) (vec : Word) (h : s.Inv) : (s.enterHandler b vec).Inv :=
  (State.push_inv _ _ (State.push_inv _ _ (State.push_inv s _ h))).of_readOnly (State.loadVector_readOnly _ vec)

end Sys2Proof.Machine
end

