-- ==== Sys2Proof/Laws/PerInstr.lean ====
section
/-! SUPPORT. Statements about every instruction as syntax, one lemma for each constructor. -/

namespace Sys2Proof.Laws.EncodedLength

/-- A well-formed instruction has one, two or three bytes (R53). -/
def Statement (i : Instr) : Prop := i.wf = true → 1 ≤ (encode i).length ∧ (encode i).length ≤ 3

/-- The bytes of a memory operand whose form the table has. -/
theorem memory_form (m : MemMode) (zp zpx zpy abs absx absy izx izy : Option Byte)
    (h : m.encode zp zpx zpy abs absx absy izx izy ≠ []) :
    1 ≤ (m.encode zp zpx zpy abs absx absy izx izy).length ∧
      (m.encode zp zpx zpy abs absx absy izx izy).length ≤ 3 := by
  have hb : ∀ (o : Option Byte) (a : Byte), encodeByteArg o a ≠ [] →
      1 ≤ (encodeByteArg o a).length ∧ (encodeByteArg o a).length ≤ 3 := by
    intro o a hne
    cases o <;> simp_all [encodeByteArg]
  have hw : ∀ (o : Option Byte) (w : Word), encodeWordArg o w ≠ [] →
      1 ≤ (encodeWordArg o w).length ∧ (encodeWordArg o w).length ≤ 3 := by
    intro o w hne
    cases o <;> simp_all [encodeWordArg]
  cases m with
  | zp | zpx | zpy | izx | izy => exact hb _ _ h
  | abs | absx | absy => exact hw _ _ h

theorem lda (m : ReadMode) : Statement (.lda m) := by
  intro h
  cases m with
  | imm v => simp [encode]
  | mem m =>
    exact memory_form m _ _ _ _ _ _ _ _ (by
      cases m <;> simp_all [Instr.wf, ReadMode.accumulatorForm, MemMode.encode, encodeByteArg, encodeWordArg])

theorem ldx (m : ReadMode) : Statement (.ldx m) := by
  intro h
  cases m with
  | imm v => simp [encode]
  | mem m =>
    exact memory_form m _ _ _ _ _ _ _ _ (by
      cases m <;> simp_all [Instr.wf, ReadMode.ldxForm, MemMode.encode, encodeByteArg, encodeWordArg])

theorem ldy (m : ReadMode) : Statement (.ldy m) := by
  intro h
  cases m with
  | imm v => simp [encode]
  | mem m =>
    exact memory_form m _ _ _ _ _ _ _ _ (by
      cases m <;> simp_all [Instr.wf, ReadMode.ldyForm, MemMode.encode, encodeByteArg, encodeWordArg])

theorem sta (m : MemMode) : Statement (.sta m) := fun h =>
  memory_form m _ _ _ _ _ _ _ _ (by
    cases m <;> simp_all [Instr.wf, MemMode.staForm, MemMode.encode, encodeByteArg, encodeWordArg])

theorem stx (m : MemMode) : Statement (.stx m) := fun h =>
  memory_form m _ _ _ _ _ _ _ _ (by
    cases m <;> simp_all [Instr.wf, MemMode.stxForm, MemMode.encode, encodeByteArg, encodeWordArg])

theorem sty (m : MemMode) : Statement (.sty m) := fun h =>
  memory_form m _ _ _ _ _ _ _ _ (by
    cases m <;> simp_all [Instr.wf, MemMode.styForm, MemMode.encode, encodeByteArg, encodeWordArg])

theorem tax : Statement .tax := fun _ => by simp [encode]

theorem tay : Statement .tay := fun _ => by simp [encode]

theorem txa : Statement .txa := fun _ => by simp [encode]

theorem tya : Statement .tya := fun _ => by simp [encode]

theorem tsx : Statement .tsx := fun _ => by simp [encode]

theorem txs : Statement .txs := fun _ => by simp [encode]

theorem adc (m : ReadMode) : Statement (.adc m) := by
  intro h
  cases m with
  | imm v => simp [encode]
  | mem m =>
    exact memory_form m _ _ _ _ _ _ _ _ (by
      cases m <;> simp_all [Instr.wf, ReadMode.accumulatorForm, MemMode.encode, encodeByteArg, encodeWordArg])

theorem sbc (m : ReadMode) : Statement (.sbc m) := by
  intro h
  cases m with
  | imm v => simp [encode]
  | mem m =>
    exact memory_form m _ _ _ _ _ _ _ _ (by
      cases m <;> simp_all [Instr.wf, ReadMode.accumulatorForm, MemMode.encode, encodeByteArg, encodeWordArg])

theorem and (m : ReadMode) : Statement (.and m) := by
  intro h
  cases m with
  | imm v => simp [encode]
  | mem m =>
    exact memory_form m _ _ _ _ _ _ _ _ (by
      cases m <;> simp_all [Instr.wf, ReadMode.accumulatorForm, MemMode.encode, encodeByteArg, encodeWordArg])

theorem ora (m : ReadMode) : Statement (.ora m) := by
  intro h
  cases m with
  | imm v => simp [encode]
  | mem m =>
    exact memory_form m _ _ _ _ _ _ _ _ (by
      cases m <;> simp_all [Instr.wf, ReadMode.accumulatorForm, MemMode.encode, encodeByteArg, encodeWordArg])

theorem eor (m : ReadMode) : Statement (.eor m) := by
  intro h
  cases m with
  | imm v => simp [encode]
  | mem m =>
    exact memory_form m _ _ _ _ _ _ _ _ (by
      cases m <;> simp_all [Instr.wf, ReadMode.accumulatorForm, MemMode.encode, encodeByteArg, encodeWordArg])

theorem cmp (m : ReadMode) : Statement (.cmp m) := by
  intro h
  cases m with
  | imm v => simp [encode]
  | mem m =>
    exact memory_form m _ _ _ _ _ _ _ _ (by
      cases m <;> simp_all [Instr.wf, ReadMode.accumulatorForm, MemMode.encode, encodeByteArg, encodeWordArg])

theorem cpx (m : ReadMode) : Statement (.cpx m) := by
  intro h
  cases m with
  | imm v => simp [encode]
  | mem m =>
    exact memory_form m _ _ _ _ _ _ _ _ (by
      cases m <;> simp_all [Instr.wf, ReadMode.indexCompareForm, MemMode.encode, encodeByteArg, encodeWordArg])

theorem cpy (m : ReadMode) : Statement (.cpy m) := by
  intro h
  cases m with
  | imm v => simp [encode]
  | mem m =>
    exact memory_form m _ _ _ _ _ _ _ _ (by
      cases m <;> simp_all [Instr.wf, ReadMode.indexCompareForm, MemMode.encode, encodeByteArg, encodeWordArg])

theorem bit (m : ReadMode) : Statement (.bit m) := by
  intro h
  cases m with
  | imm v => simp [Instr.wf, ReadMode.bitForm] at h
  | mem m =>
    exact memory_form m _ _ _ _ _ _ _ _ (by
      cases m <;> simp_all [Instr.wf, ReadMode.bitForm, MemMode.encode, encodeByteArg, encodeWordArg])

theorem inc (m : MemMode) : Statement (.inc m) := fun h =>
  memory_form m _ _ _ _ _ _ _ _ (by
    cases m <;> simp_all [Instr.wf, MemMode.rmwForm, MemMode.encode, encodeByteArg, encodeWordArg])

theorem dec (m : MemMode) : Statement (.dec m) := fun h =>
  memory_form m _ _ _ _ _ _ _ _ (by
    cases m <;> simp_all [Instr.wf, MemMode.rmwForm, MemMode.encode, encodeByteArg, encodeWordArg])

theorem inx : Statement .inx := fun _ => by simp [encode]

theorem iny : Statement .iny := fun _ => by simp [encode]

theorem dex : Statement .dex := fun _ => by simp [encode]

theorem dey : Statement .dey := fun _ => by simp [encode]

theorem asl (m : RmwMode) : Statement (.asl m) := by
  intro h
  cases m with
  | acc => simp [encode]
  | mem m =>
    exact memory_form m _ _ _ _ _ _ _ _ (by
      cases m <;> simp_all [Instr.wf, RmwMode.form, MemMode.rmwForm, MemMode.encode, encodeByteArg, encodeWordArg])

theorem lsr (m : RmwMode) : Statement (.lsr m) := by
  intro h
  cases m with
  | acc => simp [encode]
  | mem m =>
    exact memory_form m _ _ _ _ _ _ _ _ (by
      cases m <;> simp_all [Instr.wf, RmwMode.form, MemMode.rmwForm, MemMode.encode, encodeByteArg, encodeWordArg])

theorem rol (m : RmwMode) : Statement (.rol m) := by
  intro h
  cases m with
  | acc => simp [encode]
  | mem m =>
    exact memory_form m _ _ _ _ _ _ _ _ (by
      cases m <;> simp_all [Instr.wf, RmwMode.form, MemMode.rmwForm, MemMode.encode, encodeByteArg, encodeWordArg])

theorem ror (m : RmwMode) : Statement (.ror m) := by
  intro h
  cases m with
  | acc => simp [encode]
  | mem m =>
    exact memory_form m _ _ _ _ _ _ _ _ (by
      cases m <;> simp_all [Instr.wf, RmwMode.form, MemMode.rmwForm, MemMode.encode, encodeByteArg, encodeWordArg])

theorem bpl (off : Byte) : Statement (.bpl off) := fun _ => by simp [encode]

theorem bmi (off : Byte) : Statement (.bmi off) := fun _ => by simp [encode]

theorem bvc (off : Byte) : Statement (.bvc off) := fun _ => by simp [encode]

theorem bvs (off : Byte) : Statement (.bvs off) := fun _ => by simp [encode]

theorem bcc (off : Byte) : Statement (.bcc off) := fun _ => by simp [encode]

theorem bcs (off : Byte) : Statement (.bcs off) := fun _ => by simp [encode]

theorem bne (off : Byte) : Statement (.bne off) := fun _ => by simp [encode]

theorem beq (off : Byte) : Statement (.beq off) := fun _ => by simp [encode]

theorem jmp (m : JumpMode) : Statement (.jmp m) := fun _ => by cases m <;> simp [encode]

theorem jsr (target : Word) : Statement (.jsr target) := fun _ => by simp [encode]

theorem rts : Statement .rts := fun _ => by simp [encode]

theorem rti : Statement .rti := fun _ => by simp [encode]

theorem brk : Statement .brk := fun _ => by simp [encode]

theorem pha : Statement .pha := fun _ => by simp [encode]

theorem php : Statement .php := fun _ => by simp [encode]

theorem pla : Statement .pla := fun _ => by simp [encode]

theorem plp : Statement .plp := fun _ => by simp [encode]

theorem clc : Statement .clc := fun _ => by simp [encode]

theorem sec : Statement .sec := fun _ => by simp [encode]

theorem cli : Statement .cli := fun _ => by simp [encode]

theorem sei : Statement .sei := fun _ => by simp [encode]

theorem cld : Statement .cld := fun _ => by simp [encode]

theorem sed : Statement .sed := fun _ => by simp [encode]

theorem clv : Statement .clv := fun _ => by simp [encode]

theorem nop : Statement .nop := fun _ => by simp [encode]

theorem illegal (opcode : Byte) : Statement (.illegal opcode) := fun _ => by simp [encode]

end Sys2Proof.Laws.EncodedLength
end

