-- ==== Sys2Proof/Laws/Step.lean ====
section
/-! SUPPORT. What a step can do, once: the fetch, the end of a step with its sprite-memory copies, and the inversion of
`step`. -/

namespace Sys2Proof.Machine

/-! ### Fetching -/

theorem State.fetchBytes_succ (k : Nat) (s : State) :
    State.fetchBytes (k + 1) s =
      (s.fetch.1 :: (State.fetchBytes k s.fetch.2).1, (State.fetchBytes k s.fetch.2).2) := rfl

theorem State.fetchBytes_length (k : Nat) (s : State) : (State.fetchBytes k s).1.length = k := by
  induction k generalizing s with
  | zero => rfl
  | succ k ih => simp [State.fetchBytes_succ, ih]

/-- Fetching moves pc and changes the platform, and nothing else. -/
theorem State.fetchBytes_snd (k : Nat) (s : State) :
    (State.fetchBytes k s).2 =
      { s with pc := s.pc + BitVec.ofNat 16 k, bus := (State.fetchBytes k s).2.bus } := by
  induction k generalizing s with
  | zero => simp [State.fetchBytes]
  | succ k ih =>
    rw [State.fetchBytes_succ]
    simp only
    rw [ih]
    have hpc : s.fetch.2.pc + BitVec.ofNat 16 k = s.pc + BitVec.ofNat 16 (k + 1) := by
      rw [State.fetch_pc, BitVec.ofNat_add, BitVec.add_assoc, BitVec.add_comm (1 : Word)]
      rfl
    rw [hpc]
    rfl

theorem State.fetchBytes_readOnly (k : Nat) (s : State) : s.bus.ReadOnly (State.fetchBytes k s).2.bus := by
  induction k generalizing s with
  | zero => exact .refl _
  | succ k ih => exact (State.fetch_readOnly s).trans (ih _)

/-- The number of bytes the decoder is shown is the instruction's own length. -/
theorem prefetch_add_lookahead (op : Byte) (s : State) :
    prefetchCount op + (s.lookahead op).length = operandCount op := by
  unfold prefetchCount State.lookahead
  split
  · rename_i h
    subst h
    rfl
  · simp

/-- The bytes `fetchInstr` gives always decode, and none is left over. -/
theorem fetchInstr_decodes (s : State) : ∃ i, decode s.fetchInstr.1 = some (i, []) := by
  refine decode_operandCount s.fetch.1 _ ?_
  rw [List.length_append, State.fetchBytes_length, prefetch_add_lookahead]

theorem State.fetchInstr_readOnly (s : State) : s.bus.ReadOnly s.fetchInstr.2.bus :=
  (State.fetch_readOnly s).trans (State.fetchBytes_readOnly _ _)

/-- Fetching an instruction moves pc past the fetched bytes and changes the platform, and nothing else. -/
theorem State.fetchInstr_snd (s : State) :
    s.fetchInstr.2 =
      { s with
        pc := s.pc + 1 + BitVec.ofNat 16 (prefetchCount s.fetch.1)
        bus := s.fetchInstr.2.bus } := by
  have h := State.fetchBytes_snd (prefetchCount s.fetch.1) s.fetch.2
  unfold State.fetchInstr
  exact h

/-! ### The end of a step -/

theorem State.oamCopy_succ (page : Byte) (n : Nat) (s : State) :
    State.oamCopy page (n + 1) s =
      ((State.oamCopy page n s).read (mkWord page (BitVec.ofNat 8 n))).2.write 0x2004
        ((State.oamCopy page n s).read (mkWord page (BitVec.ofNat 8 n))).1 := rfl

theorem region_oamData : region 0x2004 = .ppu := by decide

/-- A write to a picture-unit register changes the record of accesses alone (R43). -/
theorem State.write_ppu_readOnly (s : State) (addr : Word) (v : Byte) (h : region addr = .ppu) :
    s.bus.ReadOnly (s.write addr v).bus := by
  have hb : (s.write addr v).bus = s.bus.record .write addr v := by simp [State.write, Bus.afterWrite, h]
  refine ⟨fun a => Bus.peek_congr ?_ ?_ a, ?_, ?_, ?_, ?_, ?_, ?_, ?_, State.write_pads s addr v⟩ <;> rw [hb] <;> rfl

theorem State.oamCopy_eq (page : Byte) (n : Nat) (s : State) :
    State.oamCopy page n s = { s with bus := (State.oamCopy page n s).bus } := by
  induction n with
  | zero => rfl
  | succ n ih => rw [State.oamCopy_succ, State.write_eq, State.read_snd, ih]

theorem State.oamCopy_readOnly (page : Byte) (n : Nat) (s : State) : s.bus.ReadOnly (State.oamCopy page n s).bus := by
  induction n with
  | zero => exact .refl _
  | succ n ih =>
    rw [State.oamCopy_succ]
    exact (ih.trans (State.read_readOnly _ _)).trans (State.write_ppu_readOnly _ _ _ region_oamData)

theorem State.oamCopies_cons (page : Byte) (rest : List Byte) (s : State) :
    State.oamCopies (page :: rest) s =
      (s.dmaStall + (State.oamCopies rest (State.oamCopy page 256 s)).1,
       (State.oamCopies rest (State.oamCopy page 256 s)).2) := rfl

theorem State.oamCopies_eq (pages : List Byte) (s : State) :
    (State.oamCopies pages s).2 = { s with bus := (State.oamCopies pages s).2.bus } := by
  induction pages generalizing s with
  | nil => rfl
  | cons page rest ih =>
    rw [State.oamCopies_cons]
    simp only
    rw [ih, State.oamCopy_eq]

theorem State.oamCopies_readOnly (pages : List Byte) (s : State) :
    s.bus.ReadOnly (State.oamCopies pages s).2.bus := by
  induction pages generalizing s with
  | nil => exact .refl _
  | cons page rest ih =>
    rw [State.oamCopies_cons]
    exact (State.oamCopy_readOnly page 256 s).trans (ih _)

/-- Each copy stalls for 513 or 514 cycles (R46). -/
theorem State.dmaStall_bounds (s : State) : 513 ≤ s.dmaStall ∧ s.dmaStall ≤ 514 := by
  unfold State.dmaStall
  split <;> omega

/-- The end of a step changes the counters and the platform alone. -/
theorem State.finish_eq (s : State) :
    s.finish =
      { s with cyclesTotal := s.finish.cyclesTotal, stepCycles := s.finish.stepCycles, bus := s.finish.bus } := by
  unfold State.finish
  simp only
  rw [State.oamCopies_eq]

theorem State.finish_peek (s : State) (a : Word) : s.finish.bus.peek a = s.bus.peek a :=
  (State.oamCopies_readOnly s.bus.oamPages s).peek a

theorem State.finish_inv (s : State) (h : s.Inv) : s.finish.Inv := by
  have hr := State.oamCopies_readOnly s.bus.oamPages s
  unfold State.Inv
  rw [show s.finish.bus.mem = s.bus.mem from hr.mem]
  exact h

/-- A step that starts no copy makes no further access and adds its own accesses to the cycle count. -/
theorem State.finish_of_no_copy (s : State) (h : s.bus.oamPages = []) :
    s.finish =
      { s with
        cyclesTotal := s.cyclesTotal + s.bus.cycle
        stepCycles := s.bus.cycle
        bus := { s.bus with stepNo := s.bus.stepNo + 1, cycle := 0, oamPages := [] } } := by
  simp [State.finish, h, State.oamCopies]

/-! ### The step -/

/-- What a step can do: from the boundary state it halts, resets, enters an interrupt or runs the decoded instruction. -/
theorem step_cases (s : State) :
    (∃ r, s.boundary.action = .halted r ∧ step s = .fault (.illegalOpcode r.addr r.opcode)) ∨
    (s.boundary.action = .reset ∧ step s = .next s.boundary.resetSequence.finish) ∨
    (s.boundary.action = .nmi ∧ step s = .next s.boundary.nmiEntry.finish) ∨
    (s.boundary.action = .irq ∧ step s = .next s.boundary.irqEntry.finish) ∨
    (s.boundary.action = .instruction ∧ ∃ i, decode s.boundary.fetchInstr.1 = some (i, []) ∧
      step s = finishResult (exec i s.boundary.fetchInstr.2)) := by
  unfold step
  cases h : s.boundary.action with
  | halted r => exact .inl ⟨r, rfl, rfl⟩
  | reset => exact .inr (.inl ⟨rfl, rfl⟩)
  | nmi => exact .inr (.inr (.inl ⟨rfl, rfl⟩))
  | irq => exact .inr (.inr (.inr (.inl ⟨rfl, rfl⟩)))
  | instruction =>
    obtain ⟨i, hi⟩ := fetchInstr_decodes s.boundary
    exact .inr (.inr (.inr (.inr ⟨rfl, i, hi, by simp [runInstruction, hi]⟩)))

/-- A step boundary changes the input lines, the controllers' host bytes and the step's counters, and nothing else. -/
theorem State.boundary_eq (s : State) :
    s.boundary =
      { s with
        nmiPending := s.boundary.nmiPending, irqLine := s.boundary.irqLine
        resetPending := s.boundary.resetPending, inputs := s.boundary.inputs, bus := s.boundary.bus } := by
  unfold State.boundary
  split <;> rfl

/-- A boundary with an input takes it and keeps the rest for the boundaries to come. -/
theorem State.boundary_cons {s : State} {e : BoundaryInput} {rest : List BoundaryInput} (h : s.inputs = e :: rest) :
    s.boundary =
      { ({ s with bus := { s.bus with cycle := 0, oamPages := [] } } : State).applyInput e with inputs := rest } := by
  simp [State.boundary, h]

/-- A boundary without an input keeps the latches and the controllers; the IRQ line has a free level. -/
theorem State.boundary_nil {s : State} (h : s.inputs = []) :
    s.boundary =
      { s with irqLine := Config.irqLevel s.bus.history, bus := { s.bus with cycle := 0, oamPages := [] } } := by
  simp [State.boundary, h]

@[simp] theorem State.boundary_a (s : State) : s.boundary.a = s.a := by rw [State.boundary_eq]
@[simp] theorem State.boundary_x (s : State) : s.boundary.x = s.x := by rw [State.boundary_eq]
@[simp] theorem State.boundary_y (s : State) : s.boundary.y = s.y := by rw [State.boundary_eq]
@[simp] theorem State.boundary_sp (s : State) : s.boundary.sp = s.sp := by rw [State.boundary_eq]
@[simp] theorem State.boundary_pc (s : State) : s.boundary.pc = s.pc := by rw [State.boundary_eq]
@[simp] theorem State.boundary_p (s : State) : s.boundary.p = s.p := by rw [State.boundary_eq]
@[simp] theorem State.boundary_halted (s : State) : s.boundary.halted = s.halted := by rw [State.boundary_eq]
@[simp] theorem State.boundary_cyclesTotal (s : State) : s.boundary.cyclesTotal = s.cyclesTotal := by
  rw [State.boundary_eq]

theorem State.boundary_mem (s : State) : s.boundary.bus.mem = s.bus.mem := by
  unfold State.boundary
  split <;> rfl

theorem State.boundary_mapperWrites (s : State) : s.boundary.bus.mapperWrites = s.bus.mapperWrites := by
  unfold State.boundary
  split <;> rfl

theorem State.boundary_history (s : State) : s.boundary.bus.history = s.bus.history := by
  unfold State.boundary
  split <;> rfl

theorem State.boundary_stepNo (s : State) : s.boundary.bus.stepNo = s.bus.stepNo := by
  unfold State.boundary
  split <;> rfl

theorem State.boundary_cycle (s : State) : s.boundary.bus.cycle = 0 := by
  unfold State.boundary
  split <;> rfl

theorem State.boundary_oamPages (s : State) : s.boundary.bus.oamPages = [] := by
  unfold State.boundary
  split <;> rfl

theorem State.boundary_peek (s : State) (a : Word) : s.boundary.bus.peek a = s.bus.peek a :=
  Bus.peek_congr (State.boundary_mem s) (State.boundary_mapperWrites s) a

theorem State.boundary_accesses (s : State) : s.boundary.bus.accesses = s.bus.accesses :=
  Bus.accesses_congr (State.boundary_history s)

theorem State.finish_accesses_of_no_copy (s : State) (h : s.bus.oamPages = []) :
    s.finish.bus.accesses = s.bus.accesses := by
  rw [State.finish_of_no_copy s h]
  rfl

/-- Where nothing interrupts, the choice of R144 is the instruction, and nowhere else. -/
theorem State.action_eq_instruction_iff (s : State) : s.boundary.action = .instruction ↔ s.Uninterrupted := by
  unfold State.Uninterrupted State.action
  rw [State.boundary_halted, State.boundary_p]
  cases s.halted with
  | some r => simp
  | none =>
    cases s.boundary.resetPending <;> cases s.boundary.nmiPending <;> cases s.boundary.irqLine <;>
      cases s.p.i <;> simp

/-- The state after reset is what the power-on state's first step gives (R32, R168). -/
theorem step_powerOn_zero : step (State.powerOn PowerOn.zero) = .next State.reset := by
  rfl

end Sys2Proof.Machine
end

