-- ==== Sys2Proof/Laws/Trace.lean ====
section
/-! SUPPORT. The record of accesses grows: every operation, every instruction and every part of a step adds its accesses
after the earlier ones, numbered one by one (R33, R67). -/

namespace Sys2Proof.Machine

/-- The accesses added from `b` to `b'` are numbered consecutively, and each write to OAMDMA left its page. -/
def Bus.Grows (b b' : Bus) : Prop :=
  ∃ new, b'.history = new ++ b.history ∧ b'.cycle = b.cycle + new.length ∧ b'.stepNo = b.stepNo ∧
    b'.oamPages.length = b.oamPages.length + (new.map fun e => (e.kind, e.addr)).count (.write, 0x4014) ∧
    ∀ k e, new.reverse[k]? = some e → e.step = b.stepNo ∧ e.index = b.cycle + k + 1

theorem Bus.Grows.refl (b : Bus) : b.Grows b := ⟨[], rfl, rfl, rfl, rfl, by simp⟩

theorem Bus.Grows.trans {b b' b'' : Bus} (h : b.Grows b') (h' : b'.Grows b'') : b.Grows b'' := by
  obtain ⟨n, e1, e2, e3, e4, e5⟩ := h
  obtain ⟨n', f1, f2, f3, f4, f5⟩ := h'
  refine ⟨n' ++ n, by rw [f1, e1, List.append_assoc], by rw [f2, e2, List.length_append]; omega, f3.trans e3, ?_, ?_⟩
  · rw [f4, e4, List.map_append, List.count_append]; omega
  · intro k e hk
    rw [List.reverse_append] at hk
    by_cases hlt : k < n.reverse.length
    · rw [List.getElem?_append_left hlt] at hk
      exact e5 k e hk
    · rw [List.getElem?_append_right (by omega)] at hk
      obtain ⟨g1, g2⟩ := f5 _ e hk
      rw [List.length_reverse] at *
      exact ⟨g1.trans e3, by omega⟩

theorem State.read_grows (s : State) (a : Word) : s.bus.Grows (s.read a).2.bus := by
  refine ⟨[_], State.read_history s a, State.read_cycle s a, (State.read_readOnly s a).stepNo, ?_, ?_⟩
  · rw [(State.read_readOnly s a).oamPages]
    simp
  · intro k e h
    simp at h
    cases k with
    | zero => simp at h; subst h; simp
    | succ k => simp at h

theorem State.write_grows (s : State) (a : Word) (v : Byte) : s.bus.Grows (s.write a v).bus := by
  refine ⟨[_], State.write_history s a v, State.write_cycle s a v, State.write_stepNo s a v, ?_, ?_⟩
  · by_cases h : a = 0x4014
    · rw [State.write_oamPages s a v ((region_oamDma_iff a).2 h)]; subst h; simp
    · rw [(State.write_storesOnlyTo s a v).oamPages (by simpa using fun hr => h ((region_oamDma_iff a).1 hr))]
      simp [List.count_cons]
      exact h
  · intro k e h
    simp at h
    cases k with
    | zero => simp at h; subst h; simp
    | succ k => simp at h

theorem State.dummyRead_grows (s : State) (a : Word) : s.bus.Grows (s.dummyRead a).bus := State.read_grows s a
theorem State.push_grows (s : State) (v : Byte) : s.bus.Grows (s.push v).bus := State.write_grows s _ v
theorem State.pull_grows (s : State) : s.bus.Grows s.pull.2.bus := State.read_grows s _
theorem State.dummyStack_grows (s : State) : s.bus.Grows s.dummyStack.bus := State.read_grows s _
theorem State.implied_grows (s : State) : s.bus.Grows s.implied.bus := State.read_grows s _
theorem State.fetch_grows (s : State) : s.bus.Grows s.fetch.2.bus := State.read_grows s _
theorem State.readZpPointer_grows (s : State) (p) :
    s.bus.Grows (s.readZpPointer p).2.bus :=
  (State.read_grows s _).trans (State.read_grows _ _)
theorem State.resolve_grows (s : State) (m : MemMode) : s.bus.Grows (s.resolve m).2.bus := by
  cases m with
  | zp | abs | absx | absy => exact .refl _
  | zpx | zpy => exact State.dummyRead_grows s _
  | izx p => exact (State.dummyRead_grows s _).trans (State.readZpPointer_grows _ _)
  | izy p => exact State.readZpPointer_grows s p
theorem State.readMem_grows (s : State) (m : MemMode) : s.bus.Grows (s.readMem m).2.bus := by
  refine (State.resolve_grows s m).trans ?_
  rw [State.readMem]
  split
  · exact (State.dummyRead_grows _ _).trans (State.read_grows _ _)
  · exact State.read_grows _ _
theorem State.readOperand_grows (s : State) (m : ReadMode) : s.bus.Grows (s.readOperand m).2.bus := by
  cases m with
  | imm v => exact .refl _
  | mem m => exact State.readMem_grows s m
theorem State.target_grows (s : State) (m : MemMode) : s.bus.Grows (s.target m).2.bus := by
  refine (State.resolve_grows s m).trans ?_
  rw [State.target]
  split
  · exact State.dummyRead_grows _ _
  · exact .refl _
theorem State.storeOperand_grows (s : State) (m : MemMode) (v : Byte) : s.bus.Grows (s.storeOperand m v).bus :=
  (State.target_grows s m).trans (State.write_grows _ _ _)
theorem State.modifyMem_grows (s : State) (m : MemMode) (f) : s.bus.Grows (s.modifyMem m f).2.bus :=
  (((State.target_grows s m).trans (State.read_grows _ _)).trans (State.write_grows _ _ _)).trans
    (State.write_grows _ _ _)
theorem State.modifyOperand_grows (s : State) (m : RmwMode) (f) : s.bus.Grows (s.modifyOperand m f).2.bus := by
  cases m with
  | acc => exact State.dummyRead_grows s _
  | mem m => exact State.modifyMem_grows s m f
theorem State.loadVector_grows (s : State) (vec : Word) : s.bus.Grows (s.loadVector vec).bus :=
  (State.read_grows (s.setP { s.p with i := true }) vec).trans (State.read_grows _ _)
theorem State.enterHandler_grows (s : State) (b) (vec : Word) : s.bus.Grows (s.enterHandler b vec).bus :=
  (((State.push_grows s _).trans (State.push_grows _ _)).trans (State.push_grows _ _)).trans
    (State.loadVector_grows _ vec)
theorem State.branch_grows (s : State) (c off) : s.bus.Grows (s.branch c off).bus := by
  unfold State.branch
  cases c
  · exact .refl _
  · simp only [if_true]
    split
    · exact State.dummyRead_grows s _
    · exact (State.dummyRead_grows s _).trans (State.dummyRead_grows _ _)
theorem State.readPointer_grows (s : State) (p) :
    s.bus.Grows (s.readPointer p).2.bus :=
  (State.read_grows s _).trans (State.read_grows _ _)
theorem State.returnFromInterrupt_grows (s : State) : s.bus.Grows s.returnFromInterrupt.bus := by
  have h1 := (State.dummyStack_grows s).trans (State.pull_grows _)
  have h2 := State.pull_grows (s.dummyStack.pull.2.setP (Flags.ofByte s.dummyStack.pull.1))
  have h3 := State.pull_grows (s.dummyStack.pull.2.setP (Flags.ofByte s.dummyStack.pull.1)).pull.2
  exact (h1.trans h2).trans h3

theorem exec_grows (i : Instr) (s t : State) (h : exec i s = .next t) : s.bus.Grows t.bus := by
  cases i
  case lda m => cases h; exact State.readOperand_grows s m
  case ldx m => cases h; exact State.readOperand_grows s m
  case ldy m => cases h; exact State.readOperand_grows s m
  case adc m => cases h; exact State.readOperand_grows s m
  case sbc m => cases h; exact State.readOperand_grows s m
  case and m => cases h; exact State.readOperand_grows s m
  case ora m => cases h; exact State.readOperand_grows s m
  case eor m => cases h; exact State.readOperand_grows s m
  case cmp m => cases h; exact State.readOperand_grows s m
  case cpx m => cases h; exact State.readOperand_grows s m
  case cpy m => cases h; exact State.readOperand_grows s m
  case bit m => cases h; exact State.readOperand_grows s m
  case sta m => cases h; exact State.storeOperand_grows s m _
  case stx m => cases h; exact State.storeOperand_grows s m _
  case sty m => cases h; exact State.storeOperand_grows s m _
  case inc m => cases h; exact State.modifyMem_grows s m (· + 1)
  case dec m => cases h; exact State.modifyMem_grows s m (· - 1)
  case asl m => cases h; exact State.modifyOperand_grows s m _
  case lsr m => cases h; exact State.modifyOperand_grows s m _
  case rol m => cases h; exact State.modifyOperand_grows s m _
  case ror m => cases h; exact State.modifyOperand_grows s m _
  case bpl off => cases h; exact State.branch_grows s _ _
  case bmi off => cases h; exact State.branch_grows s _ _
  case bvc off => cases h; exact State.branch_grows s _ _
  case bvs off => cases h; exact State.branch_grows s _ _
  case bcc off => cases h; exact State.branch_grows s _ _
  case bcs off => cases h; exact State.branch_grows s _ _
  case bne off => cases h; exact State.branch_grows s _ _
  case beq off => cases h; exact State.branch_grows s _ _
  case jmp m =>
    cases m
    case abs => cases h; exact .refl _
    case ind p => cases h; exact State.readPointer_grows s p
  case jsr w =>
    cases h
    have := (((State.dummyStack_grows s).trans (State.push_grows _ (hiByte s.pc))).trans
      (State.push_grows _ (loByte s.pc))).trans (State.fetch_grows _)
    exact this
  case rts =>
    cases h
    have h3 :=
      (((State.implied_grows s).trans (State.dummyStack_grows _)).trans (State.pull_grows _)).trans (State.pull_grows _)
    exact h3.trans (State.dummyRead_grows _ _)
  case rti =>
    cases h
    have := (State.implied_grows s).trans (State.returnFromInterrupt_grows _)
    exact this
  case brk =>
    cases h
    have := (State.implied_grows s).trans (State.enterHandler_grows (s.implied.setPc (s.pc + 1)) true irqVector)
    exact this
  case pha => cases h; have := (State.implied_grows s).trans (State.push_grows _ s.a); exact this
  case php => cases h; have := (State.implied_grows s).trans (State.push_grows _ (s.p.image true)); exact this
  case pla =>
    cases h
    have := ((State.implied_grows s).trans (State.dummyStack_grows _)).trans (State.pull_grows _)
    exact this
  case plp =>
    cases h
    have := ((State.implied_grows s).trans (State.dummyStack_grows _)).trans (State.pull_grows _)
    exact this
  case illegal op => cases h; exact .refl _
  all_goals cases h; exact State.implied_grows s

theorem State.fetchBytes_grows (k : Nat) (s : State) : s.bus.Grows (State.fetchBytes k s).2.bus := by
  induction k generalizing s with
  | zero => exact .refl _
  | succ k ih => exact (State.fetch_grows s).trans (ih _)

theorem State.fetchInstr_grows (s : State) : s.bus.Grows s.fetchInstr.2.bus :=
  (State.fetch_grows s).trans (State.fetchBytes_grows _ _)

theorem State.interruptEntry_grows (s : State) (vec) : s.bus.Grows (s.interruptEntry vec).bus :=
  ((State.dummyRead_grows _ _).trans (State.dummyRead_grows _ _)).trans (State.enterHandler_grows _ _ _)

theorem State.resetStackCycle_grows (s : State) : s.bus.Grows s.resetStackCycle.bus := State.dummyStack_grows s
theorem State.resetSequence_grows (s : State) : s.bus.Grows s.resetSequence.bus := by
  have h1 := (State.dummyRead_grows s s.pc).trans (State.dummyRead_grows _ s.pc)
  have h2 := ((h1.trans (State.resetStackCycle_grows _)).trans (State.resetStackCycle_grows _)).trans
    (State.resetStackCycle_grows _)
  have h3 := h2.trans (State.loadVector_grows _ resetVector)
  unfold State.resetSequence
  exact h3

theorem State.oamCopy_grows (page : Byte) (n : Nat) (s : State) : s.bus.Grows (State.oamCopy page n s).bus := by
  induction n with
  | zero => exact .refl _
  | succ n ih =>
    rw [State.oamCopy_succ]
    exact (ih.trans (State.read_grows _ _)).trans (State.write_grows _ _ _)

/-- The 512 accesses of one sprite-memory copy (R46). -/
theorem State.oamCopy_accesses (page : Byte) (n : Nat) (s : State) :
    (State.oamCopy page n s).bus.accesses = s.bus.accesses ++
      (List.range n).flatMap fun k => [(.read, mkWord page (BitVec.ofNat 8 k)), (.write, 0x2004)] := by
  induction n with
  | zero => simp [State.oamCopy]
  | succ n ih =>
    rw [State.oamCopy_succ, State.write_accesses, State.read_accesses, ih, List.range_succ]
    simp

theorem State.oamCopies_grows (pages : List Byte) (s : State) : s.bus.Grows (State.oamCopies pages s).2.bus := by
  induction pages generalizing s with
  | nil => exact .refl _
  | cons page rest ih =>
    rw [State.oamCopies_cons]
    exact (State.oamCopy_grows _ _ _).trans (ih _)

end Sys2Proof.Machine
end

