-- ==== Sys2Proof/Tests/Slice0.lean ====
section
/-! SUPPORT. Tests of the model on fixed values, and for each obligation with hypotheses a named theorem that shows a
concrete case meeting them. The expected results are those of spec/95_test_vectors.md (the vector is named at each test),
of the opcode table's encodings, or of the examples in the instruction rules. -/

namespace Sys2Proof.Tests

open Sys2Proof Sys2Proof.Machine

/-! ### Helpers -/

/-- The start state of spec/95_test_vectors.md: pc = 0x8000, S = 0xFD, I = 1, the other flags 0, the instruction's bytes
at pc and `data` in memory, and nothing comes in at the boundary before it ("No interrupt is pending"). -/
def at8000 (bytes : List Byte) (data : List (Word × Byte) := []) : State :=
  { State.reset with
    pc := 0x8000
    inputs := [.quiet]
    bus := { State.reset.bus with
      mem := data.foldl (fun m c => m.store (memKey c.1) c.2) (Memory.load [] 0x8000 bytes), history := [] } }

/-- The IRQ line at 1 at a step boundary, and nothing else. -/
def irqInput : BoundaryInput := { BoundaryInput.quiet with irq := true }

/-- The state after one step, or the same state if the step gives none. -/
def stepped (s : State) : State :=
  match step s with
  | .next t => t
  | .fault _ | .refused _ => s

/-- The accesses made so far, oldest first, with their values: the traces of L2.10 to L2.15. -/
def traceOf (s : State) : List (AccessKind × Word × Byte) := s.bus.history.reverse.map fun e => (e.kind, e.addr, e.value)

/-- The bytes decode to the instruction, with nothing left over, for every entry of the list. -/
def decodesTo (rows : List (List Byte × Instr)) : Bool := rows.all fun r => decode r.1 == some (r.2, [])

/-- A and the flags N, V, Z, C after one step of `op operand` with A and C as given. -/
def alu (op a operand : Byte) (c : Bool) : Byte × Bool × Bool × Bool × Bool :=
  let t := stepped { at8000 [op, operand] with a := a, p := { n := false, v := false, d := false, i := true, z := false, c := c } }
  (t.a, t.p.n, t.p.v, t.p.z, t.p.c)

/-- Flags N, Z and C after one step. -/
def nzc (s : State) : Bool × Bool × Bool := ((stepped s).p.n, (stepped s).p.z, (stepped s).p.c)

/-- pc and the cycle count after one step. -/
def pcCycles (s : State) : Word × Nat := ((stepped s).pc, (stepped s).stepCycles)

/-- Flags all `b`, but I = 1. -/
def flags (b : Bool) : Flags := { n := b, v := b, d := b, i := true, z := b, c := b }

/-! ### Ill-formed terms are refused, one for each check of `Instr.wf` -/

theorem test_wf_accumulatorForm : (Instr.lda (.mem (.zpy 0x10))).wf = false := by decide
theorem test_wf_ldxForm : (Instr.ldx (.mem (.zpx 0x10))).wf = false := by decide
theorem test_wf_ldyForm : (Instr.ldy (.mem (.absy 0x1234))).wf = false := by decide
theorem test_wf_indexCompareForm : (Instr.cpx (.mem (.zpx 0x10))).wf = false := by decide
theorem test_wf_bitForm : (Instr.bit (.imm 0x10)).wf = false := by decide
theorem test_wf_staForm : (Instr.sta (.zpy 0x10)).wf = false := by decide
theorem test_wf_stxForm : (Instr.stx (.absy 0x1234)).wf = false := by decide
theorem test_wf_styForm : (Instr.sty (.absx 0x1234)).wf = false := by decide
theorem test_wf_rmwForm : (Instr.inc (.absy 0x1234)).wf = false := by decide
theorem test_wf_shiftForm : (Instr.rol (.mem (.izx 0x10))).wf = false := by decide
theorem test_wf_illegal : (Instr.illegal 0xEA).wf = false := by decide

/-! ### Every documented row of the opcode table, its opcode bits as the table writes them -/

theorem test_decode_row0 : decodesTo [
    ([0b00000000], .brk), ([0b00000001, 0x10], .ora (.mem (.izx 0x10))),
    ([0b00000101, 0x10], .ora (.mem (.zp 0x10))), ([0b00000110, 0x10], .asl (.mem (.zp 0x10))),
    ([0b00001000], .php), ([0b00001001, 0x10], .ora (.imm 0x10)), ([0b00001010], .asl .acc),
    ([0b00001101, 0x34, 0x12], .ora (.mem (.abs 0x1234))),
    ([0b00001110, 0x34, 0x12], .asl (.mem (.abs 0x1234)))] = true := by decide

theorem test_decode_row1 : decodesTo [
    ([0b00010000, 0x10], .bpl 0x10), ([0b00010001, 0x10], .ora (.mem (.izy 0x10))),
    ([0b00010101, 0x10], .ora (.mem (.zpx 0x10))), ([0b00010110, 0x10], .asl (.mem (.zpx 0x10))),
    ([0b00011000], .clc), ([0b00011001, 0x34, 0x12], .ora (.mem (.absy 0x1234))),
    ([0b00011101, 0x34, 0x12], .ora (.mem (.absx 0x1234))),
    ([0b00011110, 0x34, 0x12], .asl (.mem (.absx 0x1234)))] = true := by decide

theorem test_decode_row2 : decodesTo [
    ([0b00100000, 0x34, 0x12], .jsr 0x1234), ([0b00100001, 0x10], .and (.mem (.izx 0x10))),
    ([0b00100100, 0x10], .bit (.mem (.zp 0x10))), ([0b00100101, 0x10], .and (.mem (.zp 0x10))),
    ([0b00100110, 0x10], .rol (.mem (.zp 0x10))), ([0b00101000], .plp), ([0b00101001, 0x10], .and (.imm 0x10)),
    ([0b00101010], .rol .acc), ([0b00101100, 0x34, 0x12], .bit (.mem (.abs 0x1234))),
    ([0b00101101, 0x34, 0x12], .and (.mem (.abs 0x1234))),
    ([0b00101110, 0x34, 0x12], .rol (.mem (.abs 0x1234)))] = true := by decide

theorem test_decode_row3 : decodesTo [
    ([0b00110000, 0x10], .bmi 0x10), ([0b00110001, 0x10], .and (.mem (.izy 0x10))),
    ([0b00110101, 0x10], .and (.mem (.zpx 0x10))), ([0b00110110, 0x10], .rol (.mem (.zpx 0x10))),
    ([0b00111000], .sec), ([0b00111001, 0x34, 0x12], .and (.mem (.absy 0x1234))),
    ([0b00111101, 0x34, 0x12], .and (.mem (.absx 0x1234))),
    ([0b00111110, 0x34, 0x12], .rol (.mem (.absx 0x1234)))] = true := by decide

theorem test_decode_row4 : decodesTo [
    ([0b01000000], .rti), ([0b01000001, 0x10], .eor (.mem (.izx 0x10))),
    ([0b01000101, 0x10], .eor (.mem (.zp 0x10))), ([0b01000110, 0x10], .lsr (.mem (.zp 0x10))),
    ([0b01001000], .pha), ([0b01001001, 0x10], .eor (.imm 0x10)), ([0b01001010], .lsr .acc),
    ([0b01001100, 0x34, 0x12], .jmp (.abs 0x1234)), ([0b01001101, 0x34, 0x12], .eor (.mem (.abs 0x1234))),
    ([0b01001110, 0x34, 0x12], .lsr (.mem (.abs 0x1234)))] = true := by decide

theorem test_decode_row5 : decodesTo [
    ([0b01010000, 0x10], .bvc 0x10), ([0b01010001, 0x10], .eor (.mem (.izy 0x10))),
    ([0b01010101, 0x10], .eor (.mem (.zpx 0x10))), ([0b01010110, 0x10], .lsr (.mem (.zpx 0x10))),
    ([0b01011000], .cli), ([0b01011001, 0x34, 0x12], .eor (.mem (.absy 0x1234))),
    ([0b01011101, 0x34, 0x12], .eor (.mem (.absx 0x1234))),
    ([0b01011110, 0x34, 0x12], .lsr (.mem (.absx 0x1234)))] = true := by decide

theorem test_decode_row6 : decodesTo [
    ([0b01100000], .rts), ([0b01100001, 0x10], .adc (.mem (.izx 0x10))),
    ([0b01100101, 0x10], .adc (.mem (.zp 0x10))), ([0b01100110, 0x10], .ror (.mem (.zp 0x10))),
    ([0b01101000], .pla), ([0b01101001, 0x10], .adc (.imm 0x10)), ([0b01101010], .ror .acc),
    ([0b01101100, 0x34, 0x12], .jmp (.ind 0x1234)), ([0b01101101, 0x34, 0x12], .adc (.mem (.abs 0x1234))),
    ([0b01101110, 0x34, 0x12], .ror (.mem (.abs 0x1234)))] = true := by decide

theorem test_decode_row7 : decodesTo [
    ([0b01110000, 0x10], .bvs 0x10), ([0b01110001, 0x10], .adc (.mem (.izy 0x10))),
    ([0b01110101, 0x10], .adc (.mem (.zpx 0x10))), ([0b01110110, 0x10], .ror (.mem (.zpx 0x10))),
    ([0b01111000], .sei), ([0b01111001, 0x34, 0x12], .adc (.mem (.absy 0x1234))),
    ([0b01111101, 0x34, 0x12], .adc (.mem (.absx 0x1234))),
    ([0b01111110, 0x34, 0x12], .ror (.mem (.absx 0x1234)))] = true := by decide

theorem test_decode_row8 : decodesTo [
    ([0b10000001, 0x10], .sta (.izx 0x10)), ([0b10000100, 0x10], .sty (.zp 0x10)),
    ([0b10000101, 0x10], .sta (.zp 0x10)), ([0b10000110, 0x10], .stx (.zp 0x10)), ([0b10001000], .dey),
    ([0b10001010], .txa), ([0b10001100, 0x34, 0x12], .sty (.abs 0x1234)),
    ([0b10001101, 0x34, 0x12], .sta (.abs 0x1234)), ([0b10001110, 0x34, 0x12], .stx (.abs 0x1234))] = true := by decide

theorem test_decode_row9 : decodesTo [
    ([0b10010000, 0x10], .bcc 0x10), ([0b10010001, 0x10], .sta (.izy 0x10)),
    ([0b10010100, 0x10], .sty (.zpx 0x10)), ([0b10010101, 0x10], .sta (.zpx 0x10)),
    ([0b10010110, 0x10], .stx (.zpy 0x10)), ([0b10011000], .tya),
    ([0b10011001, 0x34, 0x12], .sta (.absy 0x1234)), ([0b10011010], .txs),
    ([0b10011101, 0x34, 0x12], .sta (.absx 0x1234))] = true := by decide

theorem test_decode_rowA : decodesTo [
    ([0b10100000, 0x10], .ldy (.imm 0x10)), ([0b10100001, 0x10], .lda (.mem (.izx 0x10))),
    ([0b10100010, 0x10], .ldx (.imm 0x10)), ([0b10100100, 0x10], .ldy (.mem (.zp 0x10))),
    ([0b10100101, 0x10], .lda (.mem (.zp 0x10))), ([0b10100110, 0x10], .ldx (.mem (.zp 0x10))),
    ([0b10101000], .tay), ([0b10101001, 0x10], .lda (.imm 0x10)), ([0b10101010], .tax),
    ([0b10101100, 0x34, 0x12], .ldy (.mem (.abs 0x1234))),
    ([0b10101101, 0x34, 0x12], .lda (.mem (.abs 0x1234))),
    ([0b10101110, 0x34, 0x12], .ldx (.mem (.abs 0x1234)))] = true := by decide

theorem test_decode_rowB : decodesTo [
    ([0b10110000, 0x10], .bcs 0x10), ([0b10110001, 0x10], .lda (.mem (.izy 0x10))),
    ([0b10110100, 0x10], .ldy (.mem (.zpx 0x10))), ([0b10110101, 0x10], .lda (.mem (.zpx 0x10))),
    ([0b10110110, 0x10], .ldx (.mem (.zpy 0x10))), ([0b10111000], .clv),
    ([0b10111001, 0x34, 0x12], .lda (.mem (.absy 0x1234))), ([0b10111010], .tsx),
    ([0b10111100, 0x34, 0x12], .ldy (.mem (.absx 0x1234))),
    ([0b10111101, 0x34, 0x12], .lda (.mem (.absx 0x1234))),
    ([0b10111110, 0x34, 0x12], .ldx (.mem (.absy 0x1234)))] = true := by decide

theorem test_decode_rowC : decodesTo [
    ([0b11000000, 0x10], .cpy (.imm 0x10)), ([0b11000001, 0x10], .cmp (.mem (.izx 0x10))),
    ([0b11000100, 0x10], .cpy (.mem (.zp 0x10))), ([0b11000101, 0x10], .cmp (.mem (.zp 0x10))),
    ([0b11000110, 0x10], .dec (.zp 0x10)), ([0b11001000], .iny), ([0b11001001, 0x10], .cmp (.imm 0x10)),
    ([0b11001010], .dex), ([0b11001100, 0x34, 0x12], .cpy (.mem (.abs 0x1234))),
    ([0b11001101, 0x34, 0x12], .cmp (.mem (.abs 0x1234))), ([0b11001110, 0x34, 0x12], .dec (.abs 0x1234))] = true := by decide

theorem test_decode_rowD : decodesTo [
    ([0b11010000, 0x10], .bne 0x10), ([0b11010001, 0x10], .cmp (.mem (.izy 0x10))),
    ([0b11010101, 0x10], .cmp (.mem (.zpx 0x10))), ([0b11010110, 0x10], .dec (.zpx 0x10)),
    ([0b11011000], .cld), ([0b11011001, 0x34, 0x12], .cmp (.mem (.absy 0x1234))),
    ([0b11011101, 0x34, 0x12], .cmp (.mem (.absx 0x1234))), ([0b11011110, 0x34, 0x12], .dec (.absx 0x1234))] = true := by decide

theorem test_decode_rowE : decodesTo [
    ([0b11100000, 0x10], .cpx (.imm 0x10)), ([0b11100001, 0x10], .sbc (.mem (.izx 0x10))),
    ([0b11100100, 0x10], .cpx (.mem (.zp 0x10))), ([0b11100101, 0x10], .sbc (.mem (.zp 0x10))),
    ([0b11100110, 0x10], .inc (.zp 0x10)), ([0b11101000], .inx), ([0b11101001, 0x10], .sbc (.imm 0x10)),
    ([0b11101010], .nop), ([0b11101100, 0x34, 0x12], .cpx (.mem (.abs 0x1234))),
    ([0b11101101, 0x34, 0x12], .sbc (.mem (.abs 0x1234))), ([0b11101110, 0x34, 0x12], .inc (.abs 0x1234))] = true := by decide

theorem test_decode_rowF : decodesTo [
    ([0b11110000, 0x10], .beq 0x10), ([0b11110001, 0x10], .sbc (.mem (.izy 0x10))),
    ([0b11110101, 0x10], .sbc (.mem (.zpx 0x10))), ([0b11110110, 0x10], .inc (.zpx 0x10)),
    ([0b11111000], .sed), ([0b11111001, 0x34, 0x12], .sbc (.mem (.absy 0x1234))),
    ([0b11111101, 0x34, 0x12], .sbc (.mem (.absx 0x1234))), ([0b11111110, 0x34, 0x12], .inc (.absx 0x1234))] = true := by decide

/-- R62: values of each kind the source lists as undocumented. -/
theorem test_decode_illegal : decodesTo [
    ([0b00000010], .illegal 0x02), ([0b00011010], .illegal 0x1A), ([0b10000000], .illegal 0x80),
    ([0b10001001], .illegal 0x89), ([0b10011100], .illegal 0x9C), ([0b10011110], .illegal 0x9E),
    ([0b11101011], .illegal 0xEB), ([0b11111111], .illegal 0xFF)] = true := by decide

theorem test_decode_short : decode [] = none ∧ decode [0xA9] = none ∧ decode [0x4C, 0x34] = none := by decide

/-- The table numbers bits from the first byte: AD 34 12 is the word 0x1234AD, and a one-byte row leaves zeros above. -/
theorem test_decodeTableWord : decodeTableWord 24 0x1234AD = some (.lda (.mem (.abs 0x1234))) ∧
    decodeTableWord 8 0xA9 = some (.lda (.imm 0x00)) ∧ decodeTableWord 8 0x02 = some (.illegal 0x02) := by
  refine ⟨?_, ?_, ?_⟩ <;> decide

/-- The host's word runs as the first instruction after reset. -/
theorem test_withFetchWord : (stepped (State.reset.withFetchWord 16 0x80A9)).a = 0x80 := by decide

/-! ### L2.1: loads, stores, transfers -/

theorem test_lda_imm :
    (let t := stepped (at8000 [0xA9, 0x80]); (t.a, t.p.n, t.p.z, t.pc, t.stepCycles)) =
      (0x80, true, false, 0x8002, 2) := by decide

/-- L2.1 #4: the pointer's high byte comes from 0x0000. -/
theorem test_lda_izx_wraps :
    (let t := stepped (at8000 [0xA1, 0xFF] [(0x00FF, 0x34), (0x0000, 0x12), (0x0100, 0x99), (0x1234, 0xAB)])
     (t.a, t.p.n, t.stepCycles)) = (0xAB, true, 6) := by decide

theorem test_ldx_zpy_wraps :
    (let t := stepped { at8000 [0xB6, 0xFF] [(0x0001, 0x80)] with y := 0x02 }; (t.x, t.p.n, t.stepCycles)) =
      (0x80, true, 4) := by decide

theorem test_ldy_imm : (let t := stepped (at8000 [0xA0, 0xFF]); (t.y, t.p.n, t.p.z)) = (0xFF, true, false) := by decide

theorem test_sta_zp :
    (let t := stepped { at8000 [0x85, 0x20] with a := 0x37 }; (t.bus.peek 0x0020, t.p, t.stepCycles)) =
      (some 0x37, flags false, 3) := by decide

/-- L2.12: `STA ($10),Y` makes its dummy read at `partial`. -/
theorem test_sta_izy_trace :
    (let t := stepped { at8000 [0x91, 0x10] [(0x0010, 0xF0), (0x0011, 0x02)] with y := 0x20, a := 0x99 }
     (t.bus.peek 0x0310, t.bus.accesses)) =
      (some 0x99, [(.read, 0x8000), (.read, 0x8001), (.read, 0x0010), (.read, 0x0011), (.read, 0x0210),
        (.write, 0x0310)]) := by decide

/-- R83. -/
theorem test_stx_zp : (stepped { at8000 [0x86, 0x10] with x := 0x0A }).bus.peek 0x0010 = some 0x0A := by decide

theorem test_sty_zpx_wraps :
    (let t := stepped { at8000 [0x94, 0x01] with y := 0x05, x := 0xFF }; (t.bus.peek 0x0000, t.stepCycles)) =
      (some 0x05, 4) := by decide

theorem test_tax : (let t := stepped { at8000 [0xAA] with a := 0x00, x := 0x55 }; (t.x, t.p.z, t.p.n, t.stepCycles)) =
    (0x00, true, false, 2) := by decide
theorem test_tay : (let t := stepped { at8000 [0xA8] with a := 0x90 }; (t.y, t.p.n)) = (0x90, true) := by decide
/-- R87. -/
theorem test_txa : (let t := stepped { at8000 [0x8A] with x := 0x01 }; (t.a, t.p.n, t.p.z)) = (0x01, false, false) := by
  decide
/-- R88. -/
theorem test_tya : (let t := stepped { at8000 [0x98] with y := 0xFF }; (t.a, t.p.n)) = (0xFF, true) := by decide
theorem test_tsx : (let t := stepped (at8000 [0xBA]); (t.x, t.p.n, t.p.z)) = (0xFD, true, false) := by decide
theorem test_txs : (let t := stepped { at8000 [0x9A] with x := 0x00, p := { flags false with n := true } }
    (t.sp, t.p.n, t.p.z)) = (0x00, true, false) := by decide

/-! ### L2.2 to L2.7: arithmetic, logic, compare, increment, decrement -/

/-- L2.2: A, M and C in, then A, N, V, Z and C out. -/
theorem test_adc_table : ([
    (0x00, 0x00, false, 0x00, false, false, true, false), (0x01, 0x01, false, 0x02, false, false, false, false),
    (0x7F, 0x01, false, 0x80, true, true, false, false), (0x80, 0x80, false, 0x00, false, true, true, true),
    (0xFF, 0x01, false, 0x00, false, false, true, true), (0xFF, 0x00, true, 0x00, false, false, true, true),
    (0x50, 0xD0, false, 0x20, false, false, false, true), (0xD0, 0x90, false, 0x60, false, true, false, true),
    (0x7F, 0x7F, true, 0xFF, true, true, false, false), (0xFF, 0xFF, true, 0xFF, true, false, false, true),
    (0x50, 0x50, false, 0xA0, true, true, false, false)] : List (Byte × Byte × Bool × Byte × Bool × Bool × Bool × Bool)).all
      (fun r => alu 0x69 r.1 r.2.1 r.2.2.1 == r.2.2.2) = true := by decide

/-- L2.3. -/
theorem test_sbc_table : ([
    (0x05, 0x03, true, 0x02, false, false, false, true), (0x05, 0x06, true, 0xFF, true, false, false, false),
    (0x05, 0x05, true, 0x00, false, false, true, true), (0x05, 0x05, false, 0xFF, true, false, false, false),
    (0x80, 0x01, true, 0x7F, false, true, false, true), (0x7F, 0xFF, true, 0x80, true, true, false, false),
    (0x00, 0x00, false, 0xFF, true, false, false, false), (0x50, 0xF0, true, 0x60, false, false, false, false),
    (0xD0, 0x70, true, 0x60, false, true, false, true),
    (0x50, 0xB0, true, 0xA0, true, true, false, false)] : List (Byte × Byte × Bool × Byte × Bool × Bool × Bool × Bool)).all
      (fun r => alu 0xE9 r.1 r.2.1 r.2.2.1 == r.2.2.2) = true := by decide

/-- L2.2: "With D = 1 every row is the same". -/
theorem test_adc_decimal : (stepped { at8000 [0x69, 0x05] with a := 0x05, p := { flags false with d := true } }).a = 0x0A := by
  decide

theorem test_and : alu 0x29 0xF0 0x3C true = (0x30, false, false, false, true) := by decide
theorem test_and_zero : alu 0x29 0xF0 0x0F false = (0x00, false, false, true, false) := by decide
theorem test_ora : alu 0x09 0x01 0x80 true = (0x81, true, false, false, true) := by decide
theorem test_ora_zero : alu 0x09 0x00 0x00 false = (0x00, false, false, true, false) := by decide
theorem test_eor : alu 0x49 0xAA 0xFF true = (0x55, false, false, false, true) := by decide
theorem test_eor_zero : alu 0x49 0xAA 0xAA false = (0x00, false, false, true, false) := by decide

/-- L2.5: A and M, then N, Z and C. -/
theorem test_cmp_table : ([
    (0x40, 0x40, false, true, true), (0x41, 0x40, false, false, true), (0x40, 0x41, true, false, false),
    (0x00, 0xFF, false, false, false), (0xFF, 0x00, true, false, true),
    (0x80, 0x01, false, false, true)] : List (Byte × Byte × Bool × Bool × Bool)).all
      (fun r => nzc { at8000 [0xC9, r.2.1] with a := r.1 } == r.2.2) = true := by decide
theorem test_cpx : nzc { at8000 [0xE0, 0x03] with x := 0x03 } = (false, true, true) := by decide
theorem test_cpy : nzc { at8000 [0xC0, 0x03] with y := 0x02 } = (true, false, false) := by decide

/-- L2.6: A and M, then N, V and Z. -/
theorem test_bit_table : ([
    (0xFF, 0x00, false, false, true), (0x00, 0xFF, true, true, true), (0x3F, 0x40, false, true, true),
    (0x80, 0x80, true, false, false), (0x01, 0xC0, true, true, true)] : List (Byte × Byte × Bool × Bool × Bool)).all
      (fun r =>
        let t := stepped { at8000 [0x24, 0x10] [(0x0010, r.2.1)] with a := r.1 }
        (t.a, t.p.n, t.p.v, t.p.z) == (r.1, r.2.2)) = true := by decide

theorem test_inc_zp :
    (let t := stepped { at8000 [0xE6, 0x10] [(0x0010, 0xFF)] with p := { flags false with c := true } }
     (t.bus.peek 0x0010, t.p.z, t.p.n, t.p.c, t.stepCycles)) = (some 0x00, true, false, true, 5) := by decide

/-- L2.12: `INC $12FF,X`, its trace and its end. -/
theorem test_inc_absx_trace :
    (let t := stepped { at8000 [0xFE, 0xFF, 0x12] [(0x1300, 0x7F)] with x := 0x01 }; (t.p.n, t.pc, traceOf t)) =
      (true, 0x8003, [(.read, 0x8000, 0xFE), (.read, 0x8001, 0xFF), (.read, 0x8002, 0x12),
         (.read, 0x1200, 0x00), (.read, 0x1300, 0x7F), (.write, 0x1300, 0x7F), (.write, 0x1300, 0x80)]) := by decide

theorem test_dec_abs : (let t := stepped (at8000 [0xCE, 0x00, 0x03] [(0x0300, 0x01)])
    (t.bus.peek 0x0300, t.p.z, t.stepCycles)) = (some 0x00, true, 6) := by decide
theorem test_dec_zp : (let t := stepped (at8000 [0xC6, 0x10]); (t.bus.peek 0x0010, t.p.n)) = (some 0xFF, true) := by decide
theorem test_inx : (let t := stepped { at8000 [0xE8] with x := 0xFF }; (t.x, t.p.z, t.stepCycles)) = (0x00, true, 2) := by
  decide
theorem test_iny : (let t := stepped { at8000 [0xC8] with y := 0x02 }; (t.y, t.p.z, t.p.n)) = (0x03, false, false) := by
  decide
theorem test_dex : (let t := stepped { at8000 [0xCA] with x := 0x01 }; (t.x, t.p.z)) = (0x00, true) := by decide
theorem test_dey : (let t := stepped { at8000 [0x88] with y := 0x00 }; (t.y, t.p.n)) = (0xFF, true) := by decide

/-! ### L2.8: shifts and rotates -/

/-- One step of an accumulator form, then A, N, Z and C. -/
def accShift (op a : Byte) (c : Bool) : Byte × Bool × Bool × Bool :=
  let t := stepped { at8000 [op] with a := a, p := { flags false with c := c } }
  (t.a, t.p.n, t.p.z, t.p.c)

theorem test_asl : [accShift 0x0A 0x80 false, accShift 0x0A 0xFF true, accShift 0x0A 0x41 false] =
    [(0x00, false, true, true), (0xFE, true, false, true), (0x82, true, false, false)] := by decide
theorem test_lsr : [accShift 0x4A 0x01 false, accShift 0x4A 0xFF true, accShift 0x4A 0x80 false] =
    [(0x00, false, true, true), (0x7F, false, false, true), (0x40, false, false, false)] := by decide
theorem test_rol : [accShift 0x2A 0x80 false, accShift 0x2A 0x00 true, accShift 0x2A 0x80 true] =
    [(0x00, false, true, true), (0x01, false, false, false), (0x01, false, false, true)] := by decide
theorem test_ror : [accShift 0x6A 0x01 false, accShift 0x6A 0x00 true, accShift 0x6A 0xFF true] =
    [(0x00, false, true, true), (0x80, true, false, false), (0xFF, true, false, true)] := by decide
theorem test_ror_zp :
    (let t := stepped { at8000 [0x66, 0x10] [(0x0010, 0x01)] with p := { flags false with c := true } }
     (t.bus.peek 0x0010, t.p.c, t.p.n, t.stepCycles)) = (some 0x80, true, true, 5) := by decide

/-! ### L2.9, L2.10: branches, jumps, subroutines, BRK -/

/-- A branch placed at `addr`, with the flags given. -/
def branchAt (addr : Word) (op off : Byte) (p : Flags) : State :=
  { at8000 [] [(addr, op), (addr + 1, off)] with pc := addr, p := p }

theorem test_bne : [pcCycles (branchAt 0x8000 0xD0 0x05 (flags false)), pcCycles (branchAt 0x8000 0xD0 0x05 (flags true))] =
    [(0x8007, 3), (0x8002, 2)] := by decide
theorem test_beq_trace :
    (let t := stepped (branchAt 0x80FD 0xF0 0x01 (flags true)); (t.pc, t.stepCycles, t.bus.accesses)) =
      (0x8100, 4, [(.read, 0x80FD), (.read, 0x80FE), (.read, 0x80FF), (.read, 0x8000)]) := by decide
theorem test_bpl : pcCycles (branchAt 0x8000 0x10 0x80 (flags false)) = (0x7F82, 4) := by decide
theorem test_bcs : pcCycles (branchAt 0xFFFE 0xB0 0x01 (flags true)) = (0x0001, 3) := by decide
/-- R118. -/
theorem test_bcc : pcCycles (branchAt 0x8010 0x90 0x80 (flags false)) = (0x7F92, 4) := by decide
theorem test_bmi : [pcCycles (branchAt 0x8080 0x30 0x7F (flags true)), pcCycles (branchAt 0x8080 0x30 0x7F (flags false))] =
    [(0x8101, 4), (0x8082, 2)] := by decide
theorem test_bvs : pcCycles (branchAt 0x8000 0x70 0xFE (flags true)) = (0x8000, 3) := by decide
theorem test_bvc : pcCycles (branchAt 0x80F0 0x50 0x20 (flags false)) = (0x8112, 4) := by decide

theorem test_jmp_abs : pcCycles (at8000 [0x4C, 0x14, 0x80]) = (0x8014, 3) := by decide
theorem test_jmp_ind : pcCycles (at8000 [0x6C, 0xFF, 0x10] [(0x10FF, 0x34), (0x1000, 0x12), (0x1100, 0x56)]) =
    (0x1234, 5) := by decide

theorem test_jsr_trace :
    (let t := stepped { at8000 [0x20, 0x00, 0x90] with sp := 0xFF }
     (t.sp, t.pc, traceOf t)) =
      (0xFD, 0x9000, [(.read, 0x8000, 0x20), (.read, 0x8001, 0x00), (.read, 0x01FF, 0x00), (.write, 0x01FF, 0x80),
        (.write, 0x01FE, 0x02), (.read, 0x8002, 0x90)]) := by decide
/-- R51: a JSR whose last byte lies at the pushed stack address reads the pushed byte. Here J = 0x01FD and S = 0xFF, so
0x01FF holds the pushed high byte 0x01 when the target's high byte is fetched. -/
theorem test_jsr_reads_the_push :
    (stepped { at8000 [] [(0x01FD, 0x20), (0x01FE, 0x34), (0x01FF, 0x12)] with pc := 0x01FD, sp := 0xFF }).pc = 0x0134 := by
  decide

theorem test_rts_trace :
    (let t := stepped (at8000 [0x60] [(0x01FE, 0x02), (0x01FF, 0x80)]); (t.pc, t.sp, t.bus.accesses)) =
      (0x8003, 0xFF, [(.read, 0x8000), (.read, 0x8001), (.read, 0x01FD), (.read, 0x01FE), (.read, 0x01FF),
        (.read, 0x8002)]) := by decide
theorem test_rti :
    (let t := stepped { at8000 [0x40] [(0x01FD, 0xB0), (0x01FE, 0x06), (0x01FF, 0x80)] with sp := 0xFC }
     (t.p, t.pc, t.sp, t.stepCycles)) =
      ({ n := true, v := false, d := false, i := false, z := false, c := false }, 0x8006, 0xFF, 6) := by decide
theorem test_brk_trace :
    (let t := stepped { at8000 [] [(0x8004, 0x00), (0xFFFF, 0x90)] with
       pc := 0x8004, sp := 0xFF, p := { n := true, v := false, d := false, i := false, z := false, c := false } }
     (t.sp, t.p.i, t.pc, traceOf t)) =
      (0xFC, true, 0x9000, [(.read, 0x8004, 0x00), (.read, 0x8005, 0x00), (.write, 0x01FF, 0x80), (.write, 0x01FE, 0x06),
        (.write, 0x01FD, 0xB0), (.read, 0xFFFE, 0x00), (.read, 0xFFFF, 0x90)]) := by decide

/-! ### L2.11: stack and flag instructions -/

theorem test_php : (let t := stepped (at8000 [0x08]); (t.bus.peek 0x01FD, t.sp, t.stepCycles)) = (some 0x34, 0xFC, 3) := by
  decide
theorem test_php_all : (stepped { at8000 [0x08] with p := flags true }).bus.peek 0x01FD = some 0xFF := by decide
theorem test_plp : (let t := stepped (at8000 [0x28] [(0x01FE, 0xC3)]); (t.p, t.sp, t.stepCycles)) =
    ({ n := true, v := true, d := false, i := false, z := true, c := true }, 0xFE, 4) := by decide
theorem test_plp_bits : (stepped { at8000 [0x28] [(0x01FE, 0x30)] with p := flags true }).p =
    { flags false with i := false } := by decide
theorem test_pha_wraps : (let t := stepped { at8000 [0x48] with sp := 0x00, a := 0x99 }; (t.bus.peek 0x0100, t.sp)) =
    (some 0x99, 0xFF) := by decide
theorem test_pla_wraps : (let t := stepped { at8000 [0x68] with sp := 0xFF, a := 0x55 }; (t.a, t.p.z, t.p.n, t.sp)) =
    (0x00, true, false, 0x00) := by decide
theorem test_pla : (let t := stepped { at8000 [0x68] [(0x01FD, 0x82)] with sp := 0xFC }; (t.a, t.p.n, t.sp)) =
    (0x82, true, 0xFD) := by decide

/-- The flags after one step of a flag instruction. -/
def flagStep (op : Byte) (p : Flags) : Flags := (stepped { at8000 [op] with p := p }).p

theorem test_clc : flagStep 0x18 (flags true) = { flags true with c := false } := by decide
theorem test_sec : flagStep 0x38 (flags false) = { flags false with c := true } := by decide
theorem test_cli : flagStep 0x58 (flags false) = { flags false with i := false } := by decide
theorem test_sei : flagStep 0x78 { flags false with i := false } = flags false := by decide
theorem test_cld : flagStep 0xD8 (flags true) = { flags true with d := false } := by decide
theorem test_sed : flagStep 0xF8 (flags false) = { flags false with d := true } := by decide
theorem test_clv : flagStep 0xB8 (flags true) = { flags true with v := false } := by decide
theorem test_nop : (let t := stepped (at8000 [0xEA]); (t.pc, t.stepCycles, t.p)) = (0x8001, 2, flags false) := by decide

/-- L2.16. -/
theorem test_illegal :
    (let t := stepped (at8000 [0x02]); (t.pc, t.halted, t.stepCycles, t.bus.accesses)) =
      (0x8000, some ⟨0x8000, 0x02⟩, 1, [(.read, 0x8000)]) := by decide
theorem test_illegal_no_further_step :
    step { stepped (at8000 [0x02]) with nmiPending := true, resetPending := true } =
      .fault (.illegalOpcode 0x8000 0x02) := rfl

/-- R157: "the halted state is a fault, never final". -/
theorem test_illegal_is_not_safe : ¬SafeFor 1 (at8000 [0x02]) := by
  rintro ⟨t, ht, hh⟩
  have hs : (core.run 1 (at8000 [0x02])) = .next (stepped (at8000 [0x02])) := rfl
  have hd : (stepped (at8000 [0x02])).halted = some ⟨0x8000, 0x02⟩ := by decide
  rw [hs] at ht
  cases ht
  exact absurd (hd.symm.trans hh) nofun

/-! ### L2.14, L2.15: interrupts and reset -/

theorem test_nmi_trace :
    (let t := stepped { at8000 [] [(0xFFFB, 0xC0)] with
       sp := 0xFF, nmiPending := true, p := { flags false with i := false, c := true } }
     (t.sp, t.pc, t.nmiPending, traceOf t)) =
      (0xFC, 0xC000, false, [(.read, 0x8000, 0x00), (.read, 0x8000, 0x00), (.write, 0x01FF, 0x80),
        (.write, 0x01FE, 0x00), (.write, 0x01FD, 0x21), (.read, 0xFFFA, 0x00), (.read, 0xFFFB, 0xC0)]) := by decide
theorem test_irq_masked : pcCycles { at8000 [0xEA] with inputs := [irqInput] } = (0x8001, 2) := by decide
theorem test_irq :
    (let t := stepped { at8000 [] [(0xFFFF, 0xD0)] with
       sp := 0xFF, inputs := [irqInput], p := { flags false with i := false, n := true } }
     (t.bus.peek 0x01FD, t.sp, t.p.i, t.pc, t.irqLine)) = (some 0xA0, 0xFC, true, 0xD000, true) := by decide
/-- L2.14 #5: CLI, then the IRQ entry. -/
theorem test_cli_irq :
    (let t := stepped (stepped { at8000 [0x58] [(0xFFFF, 0xD0)] with inputs := [irqInput, irqInput] })
     (t.bus.peek 0x01FD, t.bus.peek 0x01FC, t.pc)) = (some 0x80, some 0x01, 0xD000) := by decide
/-- L2.14 #4 and #8: NMI before IRQ, reset before NMI. The inputs come from outside at the boundary. -/
theorem test_priority :
    (stepped { at8000 [] [(0xFFFB, 0xC0), (0xFFFF, 0xD0)] with
      p := { flags false with i := false }, inputs := [⟨true, true, false, none, none⟩] }).pc = 0xC000 ∧
    (let t := stepped { at8000 [] [(0xFFFB, 0xC0), (0xFFFD, 0x90)] with inputs := [⟨true, true, true, none, none⟩] }
     (t.pc, t.nmiPending, t.irqLine, t.resetPending)) = (0x9000, false, true, false) := by
  refine ⟨?_, ?_⟩ <;> decide

/-- L2.15: the power-on reset sequence. -/
theorem test_reset_trace :
    (let t := stepped (State.powerOn { PowerOn.zero with pc := 0x1234, a := 0x11, mem := [(0xFFFD, 0x80)] })
     (t.pc, t.sp, t.p.i, t.cyclesTotal, t.bus.accesses)) =
      (0x8000, 0xFD, true, 7, [(.read, 0x1234), (.read, 0x1234), (.read, 0x0100), (.read, 0x01FF),
        (.read, 0x01FE), (.read, 0xFFFC), (.read, 0xFFFD)]) := by decide
/-- L2.15: a warm reset with S = 0xF0. -/
theorem test_warm_reset : (stepped { at8000 [] with sp := 0xF0, inputs := [⟨false, false, true, none, none⟩] }).sp = 0xED := by
  decide

/-! ### L2.17: devices -/

/-- The bit that the next read of port 1 returns, after n reads. -/
def padBit (s : State) (n : Nat) : Bool :=
  let t := (fun t : State => t.dummyRead 0x4016)^[n] s
  (t.bus.pad1.current t.bus.strobe).getLsbD 7

/-- The latch 0x90 (A and Start), strobed: eight reads and a ninth. -/
theorem test_controller :
    (let s := { at8000 [] with bus := { (at8000 []).bus with pad1 := ⟨0x90, 0x00⟩ } }
     (List.range 9).map (padBit ((s.write 0x4016 0x01).write 0x4016 0x00))) =
      [true, false, false, true, false, false, false, false, true] := by decide

/-- R41: an address of the picture unit's window reaches 0x2000 + (a & 7); R172: 0x2102 is a mirror of 0x2002. -/
theorem test_ppu_mirror : [ppuRegister 0x2000, ppuRegister 0x2102, ppuRegister 0x3FFF] = [0x2000, 0x2002, 0x2007] := by
  decide

/-- R27, R28, R47: what comes in at a boundary. -/
theorem test_boundary_inputs :
    (let t := { at8000 [] with inputs := [⟨true, true, false, some 0x90, none⟩, irqInput] }.boundary
     (t.nmiPending, t.irqLine, t.resetPending, t.bus.pad1.latch, t.bus.pad2.latch, t.inputs)) =
      (true, true, false, 0x90, 0x00, [irqInput]) := by decide

theorem test_ram_mirror :
    (let t := (at8000 []).write 0x0801 0x5A; [t.bus.peek 0x0001, t.bus.peek 0x1001, t.bus.peek 0x1801]) =
      [some 0x5A, some 0x5A, some 0x5A] := by decide

/-- The first two pairs of a sprite copy of page 2. -/
theorem test_oamCopy :
    traceOf (State.oamCopy 0x02 2 (at8000 [] [(0x0200, 0x11), (0x0201, 0x22)])) =
      [(.read, 0x0200, 0x11), (.write, 0x2004, 0x11), (.read, 0x0201, 0x22), (.write, 0x2004, 0x22)] := by decide

/-- The store that starts it: its own four accesses come first, and the page is noted. -/
theorem test_sta_oamDma :
    (let t := { at8000 [] with a := 0x02 }.storeOperand (.abs 0x4014) 0x02; (t.bus.oamPages, t.bus.accesses)) =
      ([0x02], [(.write, 0x4014)]) := by decide

/-! ### Witnesses: for each obligation with hypotheses, a case that meets all of them -/

/-- The outcome is a next state. -/
def isNext : Result → Bool
  | .next _ => true
  | .fault _ | .refused _ => false

theorem exists_of_isNext {r : Result} (h : isNext r = true) : ∃ t, r = .next t := by
  cases r with
  | next t => exact ⟨t, rfl⟩
  | fault _ => exact Bool.noConfusion h
  | refused _ => exact Bool.noConfusion h

theorem witness_DecodeOfEncode : (Instr.lda (.mem (.absx 0xFFFF))).wf = true ∧ (Instr.illegal 0xFF).wf = true := by decide
theorem witness_EncodeOfDecode : decode [0xA9, 0x10, 0xFF] = some (.lda (.imm 0x10), [0xFF]) := by decide
theorem witness_EveryOpcode :
    (0x02 : Byte) ∈ undocumentedOpcodes ∧ (0xFF : Byte) ∈ undocumentedOpcodes ∧ (0x00 : Byte) ∉ undocumentedOpcodes ∧
      (0xFE : Byte) ∉ undocumentedOpcodes := by decide
theorem witness_OpcodeByteFixesTheLength :
    (Instr.jmp (.abs 0x1234)).wf = true ∧ encode (.jmp (.abs 0x1234)) = 0x4C :: [0x34, 0x12] ∧
      (Instr.jmp (.abs 0xFFFF)).wf = true ∧
      (encode (.jmp (.abs 0x1234))).head? = (encode (.jmp (.abs 0xFFFF))).head? := by
  refine ⟨?_, ?_, ?_, ?_⟩ <;> decide

/-- An instruction across the top of memory, from the cartridge into RAM (R16), and a JSR. -/
theorem witness_StepRuns :
    (let s := { at8000 [] [(0xFFFE, 0x4C), (0xFFFF, 0x34), (0x0000, 0x12)] with pc := 0xFFFE }
     s.Uninterrupted ∧ ∀ k < (encode (.jmp (.abs 0x1234))).length,
       s.bus.peek (s.pc + BitVec.ofNat 16 k) = (encode (.jmp (.abs 0x1234)))[k]?) ∧
    (let s := at8000 [0x20, 0x00, 0x90]
     s.Uninterrupted ∧ ∀ k < (encode (.jsr 0x9000)).length,
       s.bus.peek (s.pc + BitVec.ofNat 16 k) = (encode (.jsr 0x9000))[k]?) := by
  exact ⟨⟨⟨rfl, rfl, rfl, .inl rfl⟩, by decide⟩, ⟨rfl, rfl, rfl, .inr rfl⟩, by decide⟩

theorem witness_EveryStepOfARunningCore : State.reset.halted = none := rfl
theorem witness_HaltedCore :
    (at8000 [0x02]).boundary.fetch.2.pc = 0x8000 + 1 ∧ (stepped (at8000 [0x02])).halted = some ⟨0x8000, 0x02⟩ := by
  refine ⟨?_, ?_⟩ <;> decide

/-- At power-on, and a reset that the host requests while an NMI and an IRQ are pending. -/
theorem witness_ResetSequence :
    (State.powerOn PowerOn.zero).halted = none ∧ (State.powerOn PowerOn.zero).boundary.resetPending = true ∧
    (let s := { at8000 [] with inputs := [⟨true, true, true, none, none⟩] }
     s.halted = none ∧ s.boundary.resetPending = true) := by
  refine ⟨?_, ?_, ?_, ?_⟩ <;> decide

/-- An NMI that I does not mask and that comes before an IRQ. -/
theorem witness_Nmi :
    (let s := { at8000 [0xEA] [(0xFFFB, 0xC0)] with nmiPending := true, inputs := [irqInput] }
     s.Inv ∧ s.halted = none ∧ s.boundary.resetPending = false ∧ s.boundary.nmiPending = true ∧
       s.bus.peek 0xFFFA = some 0x00 ∧ s.bus.peek 0xFFFB = some 0xC0) := by
  refine ⟨⟨?_, ?_⟩, ?_, ?_, ?_, ?_, ?_⟩ <;> decide
theorem witness_Irq :
    (let s := { at8000 [0xEA] with inputs := [irqInput], p := { flags false with i := false } }
     s.Inv ∧ s.halted = none ∧ s.boundary.resetPending = false ∧ s.boundary.nmiPending = false ∧
       s.boundary.irqLine = true ∧ s.p.i = false) := by
  refine ⟨⟨?_, ?_⟩, ?_, ?_, ?_, ?_, ?_⟩ <;> decide

/-- Both clauses of the interrupt mask: CLI leaves I = 0 and SEI leaves I = 1, each with the line at 1. -/
theorem witness_InterruptMask :
    State.reset.p.i = true ∧ ∀ i ∈ [Instr.cli, .sei], ∃ t, exec i { at8000 [] with inputs := [irqInput] } = .next t ∧
      t.finish.boundary.resetPending = false ∧ t.finish.boundary.nmiPending = false ∧
      t.finish.boundary.irqLine = true ∧ t.p.i = (i == .sei) := by
  refine ⟨rfl, fun i hi => ?_⟩
  simp only [List.mem_cons, List.not_mem_nil, or_false] at hi
  rcases hi with rfl | rfl
  · exact ⟨_, rfl, by decide⟩
  · exact ⟨_, rfl, by decide⟩

/-- A state that meets the invariant and steps: a store to RAM. -/
theorem witness_Invariant : (at8000 [0x85, 0x20]).Inv ∧ ∃ t, step (at8000 [0x85, 0x20]) = .next t :=
  ⟨⟨by decide, by decide⟩, exists_of_isNext (by decide)⟩
theorem witness_ResetInvariant : Memory.wf [(0x07FF, 0x01), (0x4020, 0x02), (0xFFFF, 0x03)] = true ∧
    Memory.mapped [(0x07FF, 0x01), (0x4020, 0x02), (0xFFFF, 0x03)] = true := by decide
/-- For the two statements about every step's accesses. -/
theorem witness_StepAccesses : ∃ t, step State.reset = .next t := exists_of_isNext (by decide)

/-- For the frames of registers, flags and memory: an instruction that writes none of them, and one that does not store. -/
theorem witness_Frames :
    (∃ t, exec .nop State.reset = .next t) ∧ Instr.nop.writesA = false ∧ Instr.nop.writesX = false ∧
      Instr.nop.writesY = false ∧ Instr.nop.writesS = false ∧ Instr.nop.setsNZ = false ∧ Instr.nop.tests = false ∧
      Instr.nop.loadsP = false ∧ Instr.nop.writesV = false ∧ Instr.nop.writesD = false ∧ Instr.nop.writesI = false ∧
      Instr.nop.writesC = false ∧ Instr.nop.stores = false ∧ ∀ op, Instr.nop ≠ .illegal op :=
  ⟨⟨_, rfl⟩, rfl, rfl, rfl, rfl, rfl, rfl, rfl, rfl, rfl, rfl, rfl, rfl, nofun⟩
theorem witness_DecimalFlag : Instr.adc (.imm 0x05) ≠ .php ∧ Instr.adc (.imm 0x05) ≠ .brk ∧
    ∃ t, exec (.adc (.imm 0x05)) State.reset = .next t := ⟨nofun, nofun, _, rfl⟩
theorem witness_OperandAtTheAddress :
    (at8000 [] [(0x1234, 0x77)]).bus.peek (effectiveAddress (at8000 []) (.abs 0x1234)) = some 0x77 := by decide
theorem witness_TableCycles : (at8000 [0xA9, 0x10]).Uninterrupted ∧
    decode (at8000 [0xA9, 0x10]).boundary.fetchInstr.1 = some (.lda (.imm 0x10), []) := by
  exact ⟨⟨rfl, rfl, rfl, .inl rfl⟩, by decide⟩

/-- The last RAM cell through the first and the last mirror, and two cells that differ. -/
theorem witness_RamMirrors : State.reset.Inv ∧ (0x07FF : Word).toNat < 0x2000 ∧ (0x1FFF : Word).toNat < 0x2000 ∧
    (0x07FF : Word).toNat % 0x0800 = (0x1FFF : Word).toNat % 0x0800 ∧
    (0x0000 : Word).toNat % 0x0800 ≠ (0x1FFF : Word).toNat % 0x0800 :=
  ⟨⟨rfl, rfl⟩, by decide, by decide, by decide, by decide⟩
theorem witness_Controller : (0x01 : Byte).getLsbD 0 = true ∧ (0xFE : Byte).getLsbD 0 = false := by decide
theorem witness_SpriteCopy :
    (let s := (at8000 []).write 0x4014 0x02
     s.bus.oamPages = [0x02] ∧ ∀ k < 256, s.bus.peek (mkWord 0x02 (BitVec.ofNat 8 k)) = some 0x00) := by
  have h : ∀ b : Byte, ((at8000 []).write 0x4014 0x02).bus.peek (mkWord 0x02 b) = some 0x00 := by decide
  exact ⟨by decide, fun k _ => h (BitVec.ofNat 8 k)⟩
/-- Mirrors of one picture-unit register, at the ends of its window. -/
theorem witness_Mirrors : ∀ r ∈ [((0x2000 : Word), (0x3FF8 : Word)), (0x2007, 0x3FFF), (0x2002, 0x200A)],
    (0x2000 ≤ r.1.toNat ∧ r.1.toNat < 0x4000) ∧ (0x2000 ≤ r.2.toNat ∧ r.2.toNat < 0x4000) ∧
      r.1.toNat % 8 = r.2.toNat % 8 := by simp
/-- The ends of the device ranges. -/
theorem witness_Devices : (∀ a ∈ [(0x2000 : Word), 0x3FFF, 0x4000, 0x4013, 0x4015, 0x4017, 0x401F],
      (0x2000 ≤ a.toNat ∧ a.toNat < 0x4020) ∧ a.toNat ≠ 0x4014 ∧ a.toNat ≠ 0x4016) ∧
    ∀ a ∈ [(0x0000 : Word), 0x2002, 0x4014, 0x4015, 0x4018, 0xFFFF], a.toNat ≠ 0x4016 ∧ a.toNat ≠ 0x4017 := by
  simp

/-- Where a store lands, one case for each clause about it. -/
theorem witness_Stores : State.reset.bus.mem.wf = true ∧ region 0x0000 = .ram ∧ region 0x1FFF = .ram ∧
    sharesStorage 0x0000 0x1800 = true ∧ region 0x4020 = .cartridge ∧ region 0xFFFF = .cartridge ∧
    region 0x4014 = .oamDma ∧ region 0x4016 = .port1 := by decide

/-- The lists that the grouped statements range over have members. -/
theorem witness_Groups :
    (Instr.cpx (.imm 0x03), State.reset.x) ∈ [(Instr.cmp (.imm 0x03), State.reset.a), (.cpx (.imm 0x03), State.reset.x)] ∧
    (Instr.php, State.reset.p.image true) ∈ [(Instr.pha, State.reset.a), (.php, State.reset.p.image true)] ∧
    (Instr.sei, 0x78, fun p : Flags => { p with i := true }) ∈
      [(Instr.sei, (0x78 : Byte), fun p : Flags => { p with i := true })] ∧
    (Instr.beq, fun p : Flags => p.z) ∈ [(Instr.bne, fun p : Flags => !p.z), (Instr.beq, fun p : Flags => p.z)] ∧
    (Instr.lsr (.mem (.zp 0x10)), fun v => v / 2, fun v => decide (v % 2 = 1)) ∈
      [(Instr.lsr (.mem (.zp 0x10)), fun v : Nat => v / 2, fun v : Nat => decide (v % 2 = 1))] := by
  simp

/-- The pointer, vector and stack bytes that the jump, return and interrupt statements read stand in plain memory. -/
theorem witness_PlainBytes : (at8000 []).Inv ∧
    (at8000 [] [(0x10FF, 0x34), (0x1000, 0x12)]).bus.peek 0x10FF = some 0x34 ∧
    (at8000 [] [(0x10FF, 0x34), (0x1000, 0x12)]).bus.peek 0x1000 = some 0x12 ∧
    (at8000 [0x20, 0x00, 0x90]).bus.peek 0x8002 = some 0x90 ∧
    (at8000 [] [(0xFFFD, 0x80)]).bus.peek 0xFFFD = some 0x80 := by
  refine ⟨⟨?_, ?_⟩, ?_, ?_, ?_, ?_⟩ <;> decide

/-- For the statements that undo an entry or a push: the state after it is one in which the pushed bytes still stand. -/
theorem witness_Undo : ∀ i ∈ [Instr.jsr 0x9000, .brk, .pha, .php], ∃ t, exec i (at8000 []) = .next t := by
  intro i hi
  simp only [List.mem_cons, List.not_mem_nil, or_false] at hi
  rcases hi with rfl | rfl | rfl | rfl <;> exact exists_of_isNext (by decide)
theorem witness_UndoEntry :
    (let s := { at8000 [] with nmiPending := true }; s.boundary.action = .nmi ∧ ∃ t, step s = .next t) ∧
    (let s := { at8000 [] with inputs := [irqInput], p := { flags false with i := false } }
     s.boundary.action = .irq ∧ ∃ t, step s = .next t) :=
  ⟨⟨by decide, exists_of_isNext (by decide)⟩, by decide, exists_of_isNext (by decide)⟩
theorem witness_Nop : (at8000 [0xEA]).Uninterrupted ∧ (at8000 [0xEA]).boundary.fetch.1 = 0xEA :=
  ⟨⟨rfl, rfl, rfl, .inl rfl⟩, by decide⟩
theorem witness_Undocumented : (0x02 : Byte) ∈ undocumentedOpcodes ∧ (at8000 [0x02]).Uninterrupted ∧
    (at8000 [0x02]).boundary.fetch.1 = 0x02 :=
  ⟨by decide, ⟨rfl, rfl, rfl, .inl rfl⟩, by decide⟩

/-- The two ways the IRQ line lets an instruction run: at 0 with I = 0, and at 1 with I = 1. -/
theorem witness_Uninterrupted :
    (let s := { at8000 [] with p := { flags false with i := false } }
     s.Uninterrupted ∧ s.boundary.irqLine = false ∧ s.p.i = false) ∧
    (let s := { at8000 [] with inputs := [irqInput] }; s.Uninterrupted ∧ s.boundary.irqLine = true ∧ s.p.i = true) :=
  ⟨⟨⟨rfl, rfl, rfl, .inl rfl⟩, rfl, rfl⟩, ⟨rfl, rfl, rfl, .inr rfl⟩, rfl, rfl⟩

/-- Both cases of the inputs: one for the coming boundary, and none. -/
theorem witness_Inputs : (at8000 []).inputs = [.quiet] ∧ State.reset.inputs = [] := ⟨rfl, rfl⟩

end Sys2Proof.Tests
end

/-! ## Proofs: the state (spec/10_state.md)

What every instruction leaves unchanged, what it reads of P, the step boundary, and the step at plain bytes of an
instruction. -/

namespace Sys2Proof

open Machine

/-! ### What an instruction may write -/

/-- Only the illegal instruction halts the core (R141). -/
def Instr.halts : Instr → Bool
  | .illegal _ => true
  | _ => false

theorem Instr.halts_eq_false {i : Instr} (h : ∀ op, i ≠ .illegal op) : i.halts = false := by
  cases i with
  | illegal op => exact absurd rfl (h op)
  | _ => rfl

/-- N and Z: the instructions that call `SetNZ`, the comparisons and BIT, and those that load P (R20, R24). -/
def Instr.writesNZ (i : Instr) : Bool := i.setsNZ || i.tests || i.loadsP

/-- `s` with what `i` may write taken from `t`: the registers and flags whose lists have `i`, the halt record if `i` is
illegal, pc and the platform. -/
def Instr.overwrite (i : Instr) (s t : State) : State :=
  { s with
    a := if i.writesA then t.a else s.a
    x := if i.writesX then t.x else s.x
    y := if i.writesY then t.y else s.y
    sp := if i.writesS then t.sp else s.sp
    pc := t.pc
    p :=
      { n := if i.writesNZ then t.p.n else s.p.n
        v := if i.writesV then t.p.v else s.p.v
        d := if i.writesD then t.p.d else s.p.d
        i := if i.writesI then t.p.i else s.p.i
        z := if i.writesNZ then t.p.z else s.p.z
        c := if i.writesC then t.p.c else s.p.c }
    halted := if i.halts then t.halted else s.halted
    bus := t.bus }

/-! ### Decoding an instruction that stands in memory -/

/-- A 16-bit operand is read back from its two bytes, low byte first (R35). -/
theorem decode_wordArg {op : Byte} {k : Word → Instr} (w : Word) (rest : List Byte)
    (he : opcodeEntry op = wordArg k) :
    decode (op :: loByte w :: hiByte w :: rest) = some (k w, rest) := by
  rw [decode, he, wordArg, mkWord_hiByte_loByte]

/-- Each of the 105 undocumented values has the entry that rejects it by name (R62). -/
theorem opcodeEntry_undocumented : ∀ op ∈ undocumentedOpcodes, opcodeEntry op = illegalEntry op := by
  intro op h
  fin_cases h <;> rfl

/-- R53, R61: the bytes of a well-formed instruction decode to it, whatever follows them. -/
theorem decode_encode {i : Instr} (h : i.wf = true) (rest : List Byte) :
    decode (encode i ++ rest) = some (i, rest) := by
  cases i with
  | lda m | adc m | sbc m | and m | ora m | eor m | cmp m =>
    cases m with
    | imm => rfl
    | mem m =>
      cases m with
      | zp | zpx | izx | izy => rfl
      | abs | absx | absy => apply decode_wordArg; rfl
      | zpy => cases h
  | ldx m =>
    cases m with
    | imm => rfl
    | mem m =>
      cases m with
      | zp | zpy => rfl
      | abs | absy => apply decode_wordArg; rfl
      | zpx | absx | izx | izy => cases h
  | ldy m =>
    cases m with
    | imm => rfl
    | mem m =>
      cases m with
      | zp | zpx => rfl
      | abs | absx => apply decode_wordArg; rfl
      | zpy | absy | izx | izy => cases h
  | cpx m | cpy m =>
    cases m with
    | imm => rfl
    | mem m =>
      cases m with
      | zp => rfl
      | abs => apply decode_wordArg; rfl
      | zpx | zpy | absx | absy | izx | izy => cases h
  | bit m =>
    cases m with
    | imm => cases h
    | mem m =>
      cases m with
      | zp => rfl
      | abs => apply decode_wordArg; rfl
      | zpx | zpy | absx | absy | izx | izy => cases h
  | sta m =>
    cases m with
    | zp | zpx | izx | izy => rfl
    | abs | absx | absy => apply decode_wordArg; rfl
    | zpy => cases h
  | stx m =>
    cases m with
    | zp | zpy => rfl
    | abs => apply decode_wordArg; rfl
    | zpx | absx | absy | izx | izy => cases h
  | sty m =>
    cases m with
    | zp | zpx => rfl
    | abs => apply decode_wordArg; rfl
    | zpy | absx | absy | izx | izy => cases h
  | inc m | dec m =>
    cases m with
    | zp | zpx => rfl
    | abs | absx => apply decode_wordArg; rfl
    | zpy | absy | izx | izy => cases h
  | asl m | lsr m | rol m | ror m =>
    cases m with
    | acc => rfl
    | mem m =>
      cases m with
      | zp | zpx => rfl
      | abs | absx => apply decode_wordArg; rfl
      | zpy | absy | izx | izy => cases h
  | jmp m => cases m with | abs | ind => apply decode_wordArg; rfl
  | jsr => apply decode_wordArg; rfl
  | illegal op =>
    have hop : op ∈ undocumentedOpcodes := by simpa [Instr.wf] using h
    exact congrFun (opcodeEntry_undocumented op hop) rest
  | _ => rfl

/-- What decodes with nothing left over has as many operand bytes as its opcode asks for (R54). -/
theorem length_of_decode {op : Byte} {operands : List Byte} {i : Instr} (h : decode (op :: operands) = some (i, [])) :
    operands.length = operandCount op := by
  rw [decode] at h
  unfold operandCount
  rcases opcodeEntry_hasFormat op with ⟨j, he⟩ | ⟨k, he⟩ | ⟨k, he⟩ <;> rw [he] at h ⊢
  · simp_all [noArg]
  · cases operands <;> simp_all [byteArg]
  · rcases operands with _ | ⟨lo, _ | ⟨hi, rest⟩⟩ <;> simp_all [wordArg]

/-- Only JSR has JSR's opcode. -/
theorem eq_jsr_of_decode {operands rest : List Byte} {i : Instr} (h : decode (jsrOpcode :: operands) = some (i, rest)) :
    ∃ w, i = .jsr w := by
  rw [decode, show opcodeEntry jsrOpcode = wordArg .jsr from rfl] at h
  rcases operands with _ | ⟨lo, _ | ⟨hi, tail⟩⟩ <;> cases h
  exact ⟨_, rfl⟩

/-- The bytes fetched before an instruction executes are its opcode and the operand bytes of the prefetch (R51, R67). -/
theorem fetchedLength_eq {op : Byte} {operands : List Byte} {i : Instr} (hi : i.wf = true)
    (he : encode i = op :: operands) : fetchedLength i = prefetchCount op + 1 := by
  have hd : decode (op :: operands) = some (i, []) := by simpa [he] using decode_encode hi []
  by_cases hop : op = jsrOpcode
  · subst hop
    obtain ⟨w, rfl⟩ := eq_jsr_of_decode hd
    rfl
  · have hlen : fetchedLength i = (encode i).length := by
      cases i with
      | jsr w => exact absurd (List.cons.inj he).1.symm hop
      | _ => rfl
    rw [hlen, he, List.length_cons, length_of_decode hd, prefetchCount, if_neg hop]

end Sys2Proof

namespace Sys2Proof.Machine

/-! ### The frame of every instruction -/

/-- A branch writes pc and the platform alone. -/
theorem State.branch_eq (s : State) (taken : Bool) (off : Byte) :
    s.branch taken off = { s with pc := (s.branch taken off).pc, bus := (s.branch taken off).bus } := by
  unfold State.branch
  cases taken with
  | false => rfl
  | true => simp only [if_true]; split <;> rfl

/-- Returning from an interrupt writes S, P, pc and the platform alone. -/
theorem State.returnFromInterrupt_eq (s : State) :
    s.returnFromInterrupt =
      { s with
        sp := s.returnFromInterrupt.sp, p := s.returnFromInterrupt.p, pc := s.returnFromInterrupt.pc
        bus := s.returnFromInterrupt.bus } := by
  unfold State.returnFromInterrupt
  simp only
  rw [State.pull_snd, State.pull_snd (State.setP _ _), State.pull_snd]
  rfl

/-- The frame of every instruction: it writes nothing but what its lists name, pc and the platform. (An operation of
several accesses is first told by the fields it changes, so that `rfl` compares fields and unfolds no access.) -/
theorem exec_eq_overwrite {i : Instr} {s t : State} (h : exec i s = .next t) : t = i.overwrite s t := by
  cases i
  case lda m | ldx m | ldy m | adc m | sbc m | and m | ora m | eor m | cmp m | cpx m | cpy m | bit m =>
    cases h; rw [State.readOperand_snd]; rfl
  case sta m | stx m | sty m => cases h; rw [State.storeOperand_eq]; rfl
  case inc m | dec m => cases h; rw [State.modifyMem_snd]; rfl
  case asl m | lsr m | rol m | ror m =>
    cases m with
    | acc => cases h; rfl
    | mem m => cases h; rw [State.modifyOperand, State.modifyMem_snd]; rfl
  case bpl | bmi | bvc | bvs | bcc | bcs | bne | beq => cases h; rw [State.branch_eq]; rfl
  case jmp m => cases m <;> cases h <;> rfl
  case jsr => cases h; rw [State.push_eq (State.push _ _), State.push_eq]; rfl
  case rts => cases h; rw [State.dummyRead_eq, State.pull_snd (State.pull _).2, State.pull_snd]; rfl
  case rti => cases h; rw [State.returnFromInterrupt_eq]; rfl
  case brk => cases h; rw [State.enterHandler_eq]; rfl
  case pla | plp => cases h; rw [State.pull_snd]; rfl
  all_goals cases h; rfl

/-! ### The step boundary -/

theorem Pad.input_eq (p : Pad) (v : Option Byte) : p.input v = { p with latch := v.getD p.latch } := by
  cases v <;> rfl

/-- A boundary writes the input lines, the inputs to come, the controllers and the step's counters, and nothing else. -/
theorem State.boundary_frame (s : State) :
    s.boundary =
      { s with
        nmiPending := s.boundary.nmiPending, irqLine := s.boundary.irqLine
        resetPending := s.boundary.resetPending, inputs := s.boundary.inputs
        bus :=
          { s.bus with pad1 := s.boundary.bus.pad1, pad2 := s.boundary.bus.pad2, cycle := 0, oamPages := [] } } := by
  unfold State.boundary
  split <;> rfl

/-! ### Operands do not read P

Each operand operation, started with another P, makes the same accesses, gives the same bytes and leaves that P. -/

section
variable (s : State) (q : Flags)

theorem State.resolve_setP (m : MemMode) :
    (s.setP q).resolve m = ((s.resolve m).1, (s.resolve m).2.setP q) := by
  cases m <;> rfl

theorem State.readMem_setP (m : MemMode) : (s.setP q).readMem m = ((s.readMem m).1, (s.readMem m).2.setP q) := by
  simp only [State.readMem, State.resolve_setP]
  split <;> rfl

theorem State.readOperand_setP (m : ReadMode) :
    (s.setP q).readOperand m = ((s.readOperand m).1, (s.readOperand m).2.setP q) := by
  cases m with
  | imm v => rfl
  | mem m => exact State.readMem_setP s q m

theorem State.target_setP (m : MemMode) : (s.setP q).target m = ((s.target m).1, (s.target m).2.setP q) := by
  simp only [State.target, State.resolve_setP]
  split <;> rfl

theorem State.storeOperand_setP (m : MemMode) (v : Byte) :
    (s.setP q).storeOperand m v = (s.storeOperand m v).setP q := by
  rw [State.storeOperand, State.target_setP]
  rfl

theorem State.modifyMem_setP (m : MemMode) (f : Byte → Byte) :
    (s.setP q).modifyMem m f = ((s.modifyMem m f).1, (s.modifyMem m f).2.setP q) := by
  rw [State.modifyMem, State.target_setP]
  rfl

theorem State.modifyOperand_setP (m : RmwMode) (f : Byte → Byte) :
    (s.setP q).modifyOperand m f = ((s.modifyOperand m f).1, (s.modifyOperand m f).2.setP q) := by
  cases m with
  | acc => rfl
  | mem m => exact State.modifyMem_setP s q m f

theorem State.branch_setP (taken : Bool) (off : Byte) : (s.setP q).branch taken off = (s.branch taken off).setP q := by
  cases taken with
  | false => rfl
  | true =>
    by_cases hpage : hiByte (s.pc + sext16 off) = hiByte s.pc <;>
      simp only [State.branch, State.setP_pc, hpage, if_true, if_false] <;> rfl
end

/-! ### Fetching an instruction that stands in plain memory -/

/-- Plain memory from `addr` on holds `bytes`. -/
def Bus.Holds (b : Bus) (addr : Word) (bytes : List Byte) : Prop :=
  ∀ k < bytes.length, b.peek (addr + BitVec.ofNat 16 k) = bytes[k]?

theorem word_add_one_add_ofNat (a : Word) (k : Nat) : a + 1 + BitVec.ofNat 16 k = a + BitVec.ofNat 16 (k + 1) := by
  rw [BitVec.ofNat_add, BitVec.add_assoc, BitVec.add_comm (1 : Word)]
  rfl

theorem Bus.holds_cons {b : Bus} {addr : Word} {v : Byte} {bytes : List Byte} :
    b.Holds addr (v :: bytes) ↔ b.peek addr = some v ∧ b.Holds (addr + 1) bytes := by
  constructor
  · intro h
    refine ⟨by simpa using h 0 (by simp), fun k hk => ?_⟩
    rw [word_add_one_add_ofNat]
    exact h (k + 1) (Nat.succ_lt_succ hk)
  · rintro ⟨h0, h⟩ k hk
    cases k with
    | zero => simpa using h0
    | succ k =>
      rw [← word_add_one_add_ofNat]
      exact h k (Nat.lt_of_succ_lt_succ hk)

theorem Bus.Holds.congr {b b' : Bus} {addr : Word} {bytes : List Byte} (h : b.Holds addr bytes) (hb : b.ReadOnly b') :
    b'.Holds addr bytes := fun k hk => (hb.peek _).trans (h k hk)

theorem Bus.answer_of_peek {b : Bus} {addr : Word} {v : Byte} (dot : Int) (h : b.peek addr = some v) :
    b.answer dot addr = v := by
  unfold Bus.peek at h
  unfold Bus.answer
  split at h <;> simp_all

theorem State.fetch_fst_of_peek (s : State) (v : Byte) (h : s.bus.peek s.pc = some v) : s.fetch.1 = v :=
  State.read_fst_of_peek s s.pc v h

/-- Fetching plain bytes gives them, in order; the bytes after the fetched ones still stand at pc. -/
theorem State.fetchBytes_of_holds (bytes more : List Byte) (s : State) (h : s.bus.Holds s.pc (bytes ++ more)) :
    (State.fetchBytes bytes.length s).1 = bytes ∧
      (State.fetchBytes bytes.length s).2.bus.Holds (State.fetchBytes bytes.length s).2.pc more := by
  induction bytes generalizing s with
  | nil => exact ⟨rfl, h⟩
  | cons b bytes ih =>
    obtain ⟨hb, hrest⟩ := Bus.holds_cons.1 h
    obtain ⟨h1, h2⟩ := ih s.fetch.2 (hrest.congr (State.fetch_readOnly s))
    exact ⟨by rw [List.length_cons, State.fetchBytes_succ, h1, State.fetch_fst_of_peek s b hb], h2⟩

/-- The fetches of an instruction's bytes: one read at each address from pc on, one cycle each (R67). -/
theorem State.fetchBytes_accesses (k : Nat) (s : State) :
    (State.fetchBytes k s).2.bus.accesses =
      s.bus.accesses ++ (List.range k).map fun j => (.read, s.pc + BitVec.ofNat 16 j) := by
  induction k generalizing s with
  | zero => simp [State.fetchBytes]
  | succ k ih =>
    rw [State.fetchBytes_succ, ih, List.range_succ_eq_map]
    simp only [State.fetch_accesses, State.fetch_pc, word_add_one_add_ofNat, List.map_cons, List.map_map,
      List.append_assoc, List.singleton_append, BitVec.add_zero, Function.comp_def, Nat.succ_eq_add_one]

theorem State.fetchBytes_cycle (k : Nat) (s : State) : (State.fetchBytes k s).2.bus.cycle = s.bus.cycle + k := by
  induction k generalizing s with
  | zero => rfl
  | succ k ih =>
    rw [State.fetchBytes_succ, ih, State.fetch_bus, State.read_cycle]
    omega

/-- An instruction's fetch is the fetch of its opcode and of the prefetched operand bytes, in one. -/
theorem State.fetchInstr_snd_eq_fetchBytes (s : State) :
    s.fetchInstr.2 = (State.fetchBytes (prefetchCount s.fetch.1 + 1) s).2 := rfl

/-- What the decoder is shown beyond the fetched bytes is what stands at pc. -/
theorem State.lookahead_of_holds {s : State} {op : Byte} {more : List Byte} (h : s.bus.Holds s.pc more)
    (hlen : more.length = (s.lookahead op).length) : s.lookahead op = more := by
  unfold State.lookahead at hlen ⊢
  by_cases hop : op = jsrOpcode
  · rw [if_pos hop] at hlen ⊢
    obtain ⟨v, rfl⟩ := List.length_eq_one_iff.1 hlen
    rw [Bus.answer_of_peek s.dot (Bus.holds_cons.1 h).1]
  · rw [if_neg hop] at hlen ⊢
    exact (List.length_eq_zero_iff.1 hlen).symm

/-- Where plain memory at pc holds a well-formed instruction, the decoder is shown its bytes, and those the instruction
does not fetch itself have been fetched in order. -/
theorem State.fetchInstr_of_holds {s : State} {i : Instr} (hi : i.wf = true) (h : s.bus.Holds s.pc (encode i)) :
    s.fetchInstr.1 = encode i ∧ s.fetchInstr.2 = (State.fetchBytes (fetchedLength i) s).2 := by
  have hd : decode (encode i) = some (i, []) := by simpa using decode_encode hi []
  cases he : encode i with
  | nil => rw [he] at hd; cases hd
  | cons op operands =>
    rw [he] at h hd
    obtain ⟨hop, hrest⟩ := Bus.holds_cons.1 h
    have hfetch : s.fetch.1 = op := State.fetch_fst_of_peek s op hop
    have hcount := length_of_decode hd
    have hlook := prefetch_add_lookahead op (State.fetchBytes (prefetchCount op) s.fetch.2).2
    have hk : (operands.take (prefetchCount op)).length = prefetchCount op := by
      rw [List.length_take]
      omega
    obtain ⟨h1, h2⟩ := State.fetchBytes_of_holds (operands.take (prefetchCount op)) (operands.drop (prefetchCount op))
      s.fetch.2 (by rw [List.take_append_drop]; exact hrest.congr (State.fetch_readOnly s))
    rw [hk] at h1 h2
    constructor
    · have h3 := State.lookahead_of_holds (op := op) h2 (by rw [List.length_drop]; omega)
      simp only [State.fetchInstr, hfetch, h1, h3, List.take_append_drop]
    · rw [State.fetchInstr_snd_eq_fetchBytes, hfetch, fetchedLength_eq hi he]

/-! ### The pushed image of P -/

/-- The image as a number: the flags at their bits, bit 5 set, bit 4 as given (R18). -/
theorem Flags.image_toNat (p : Flags) (b : Bool) :
    (p.image b).toNat =
      carryNat p.n * 128 + carryNat p.v * 64 + 32 + carryNat b * 16 + carryNat p.d * 8 + carryNat p.i * 4 +
        carryNat p.z * 2 + carryNat p.c := by
  obtain ⟨n, v, d, i, z, c⟩ := p
  revert n v d i z c b
  decide

/-- Loading P from its image undoes the push, whatever bit 4 was (R19). -/
theorem Flags.ofByte_image (p : Flags) (b : Bool) : Flags.ofByte (p.image b) = p := by
  obtain ⟨n, v, d, i, z, c⟩ := p
  revert n v d i z c b
  decide

/-! ### The obligations -/

/-- Settles O18: from the frame of every instruction, the record of accesses for the step number, and the two forms of a
boundary. -/
theorem instructionsLeaveTheInputsAlone : Obligations.InstructionsLeaveTheInputsAlone := by
  refine ⟨fun i s t h => ?_, fun s e rest hs => ?_, fun s hs => ?_, State.boundary_frame⟩
  · obtain ⟨_, _, _, hstep, _⟩ := exec_grows i s t h
    have field {α : Type} (f : State → α) : f t = f (i.overwrite s t) := congrArg f (exec_eq_overwrite h)
    refine ⟨field State.cyclesTotal, field State.nmiPending, field State.irqLine, field State.resetPending,
      field State.inputs, hstep, fun hi => ?_⟩
    rw [field State.halted]
    simp [Instr.overwrite, Instr.halts_eq_false hi]
  · rw [State.boundary_cons hs]
    simp [State.applyInput, Pad.input_eq]
  · rw [State.boundary_nil hs]
    exact ⟨rfl, rfl, hs, rfl, rfl⟩

/-- Settles O19, from the frame of every instruction. -/
theorem onlyTheirWritersChangeRegisters : Obligations.OnlyTheirWritersChangeRegisters := by
  intro i s t h
  have e := exec_eq_overwrite h
  refine ⟨fun w => ?_, fun w => ?_, fun w => ?_, fun w => ?_⟩ <;> rw [e] <;> simp [Instr.overwrite, w]

/-- Settles O20, from the frame of every instruction. -/
theorem onlyTheirWritersChangeFlags : Obligations.OnlyTheirWritersChangeFlags := by
  intro i s t h
  rw [exec_eq_overwrite h]
  simp +contextual [Instr.overwrite, Instr.writesNZ]

/-- Settles O22: the operand operations do not read P, and what an instruction itself reads of P is not D. -/
theorem decimalFlagIsReadOnlyWhenPushed : Obligations.DecimalFlagIsReadOnlyWhenPushed := by
  intro i s t d hphp hbrk h
  cases i
  case php => exact absurd rfl hphp
  case brk => exact absurd rfl hbrk
  case lda m | ldx m | ldy m | adc m | sbc m | and m | ora m | eor m | cmp m | cpx m | cpy m | bit m =>
    cases h
    simp only [exec, execLda, execLdx, execLdy, execAdc, execSbc, execAnd, execOra, execEor, execCmp, execCpx, execCpy,
      execBit, State.readOperand_setP]
    rw [State.readOperand_snd]
    rfl
  case sta m | stx m | sty m =>
    cases h
    simp only [exec, execSta, execStx, execSty, State.setP_a, State.setP_x, State.setP_y, State.storeOperand_setP]
    rw [State.storeOperand_eq]
    rfl
  case inc m | dec m =>
    cases h
    simp only [exec, execInc, execDec, State.modifyMem_setP]
    rw [State.modifyMem_snd]
    rfl
  case asl m | lsr m | rol m | ror m =>
    cases h
    simp only [exec, execAsl, execLsr, execRol, execRor, State.modifyOperand_setP]
    rfl
  case bpl | bmi | bvc | bvs | bcc | bcs | bne | beq =>
    cases h
    simp only [exec, execBpl, execBmi, execBvc, execBvs, execBcc, execBcs, execBne, execBeq, State.setP_p,
      State.branch_setP]
    rw [State.branch_eq]
    rfl
  case jmp m => cases m <;> cases h <;> rfl
  all_goals cases h; rfl

/-- Settles O6: the fetch shows the decoder the bytes of the instruction, and decoding undoes encoding. -/
theorem stepRunsTheDecodedInstruction : Obligations.StepRunsTheDecodedInstruction := by
  intro s i hi hun hbytes
  have hh : s.boundary.bus.Holds s.boundary.pc (encode i) := by
    intro k hk
    rw [State.boundary_peek, State.boundary_pc]
    exact hbytes k hk
  obtain ⟨hfst, hsnd⟩ := State.fetchInstr_of_holds hi hh
  have hd : decode s.boundary.fetchInstr.1 = some (i, []) := by simpa [hfst] using decode_encode hi []
  refine ⟨s.boundary.fetchInstr.2.bus, ?_, State.fetchInstr_readOnly _, ?_, ?_⟩
  · rw [step, (State.action_eq_instruction_iff s).2 hun]
    simp only [runInstruction, hd]
    rw [hsnd, State.fetchBytes_snd, State.boundary_pc]
  · rw [hsnd, State.fetchBytes_cycle, State.boundary_cycle, Nat.zero_add]
  · rw [hsnd, State.fetchBytes_accesses, State.boundary_accesses, State.boundary_pc]

/-- Settles O15: the reset memory is empty, and power-on takes the draw's memory as it is. -/
theorem resetMeetsTheMemoryInvariant : Obligations.ResetMeetsTheMemoryInvariant :=
  ⟨⟨rfl, rfl⟩, fun _ hwf hmapped => ⟨hwf, hmapped⟩⟩

/-- Settles O57, from the image as a number and from loading it back. -/
theorem pushedImageHoldsTheFlags : Obligations.PushedImageHoldsTheFlags :=
  fun p b => ⟨Flags.image_toNat p b, Flags.ofByte_image p b⟩

end Sys2Proof.Machine

/-! ## Proofs: the memory and the platform (spec/20_memory.md)

The memory invariant and the numbering of the accesses over every step, RAM and its mirrors, the controllers, the
sprite-memory copy, and the accesses of the other devices. -/

namespace Sys2Proof.Machine

/-! ### Instructions that store nothing -/

theorem State.branch_readOnly (s : State) (taken : Bool) (off : Byte) : s.bus.ReadOnly (s.branch taken off).bus := by
  unfold State.branch
  cases taken with
  | false => exact .refl _
  | true =>
    simp only [if_true]
    split
    · exact State.dummyRead_readOnly s _
    · exact (State.dummyRead_readOnly s _).trans (State.dummyRead_readOnly _ _)

theorem State.readPointer_readOnly (s : State) (ptr : Word) : s.bus.ReadOnly (s.readPointer ptr).2.bus :=
  (State.read_readOnly s _).trans (State.read_readOnly _ _)

theorem State.returnFromInterrupt_readOnly (s : State) : s.bus.ReadOnly s.returnFromInterrupt.bus := by
  have hflags := (State.dummyStack_readOnly s).trans (State.pull_readOnly _)
  have hlow := State.pull_readOnly (s.dummyStack.pull.2.setP (Flags.ofByte s.dummyStack.pull.1))
  exact (hflags.trans hlow).trans (State.pull_readOnly _)

/-- An instruction outside the write and read-modify-write classes that pushes nothing only reads the bus (R68). -/
theorem exec_readOnly {i : Instr} (hi : i.stores = false) {s t : State} (h : exec i s = .next t) :
    s.bus.ReadOnly t.bus := by
  cases i
  case lda m | ldx m | ldy m | adc m | sbc m | and m | ora m | eor m | cmp m | cpx m | cpy m | bit m =>
    cases h; exact State.readOperand_readOnly s m
  case sta | stx | sty | inc | dec | jsr | brk | pha | php => cases hi
  case asl m | lsr m | rol m | ror m =>
    cases m with
    | acc => cases h; exact State.implied_readOnly s
    | mem m => cases hi
  case bpl | bmi | bvc | bvs | bcc | bcs | bne | beq => cases h; exact State.branch_readOnly s _ _
  case jmp m =>
    cases m with
    | abs => cases h; exact .refl _
    | ind p => cases h; exact State.readPointer_readOnly s p
  case rts =>
    cases h
    have hpulls := (((State.implied_readOnly s).trans (State.dummyStack_readOnly _)).trans
      (State.pull_readOnly _)).trans (State.pull_readOnly _)
    exact hpulls.trans (State.dummyRead_readOnly _ _)
  case rti => cases h; exact (State.implied_readOnly s).trans (State.returnFromInterrupt_readOnly _)
  case pla | plp =>
    cases h
    exact ((State.implied_readOnly s).trans (State.dummyStack_readOnly _)).trans (State.pull_readOnly _)
  case illegal => cases h; exact .refl _
  all_goals cases h; exact State.implied_readOnly s

/-! ### The memory invariant -/

theorem State.implied_inv (s : State) (h : s.Inv) : s.implied.Inv := h.of_readOnly (State.implied_readOnly s)

/-- Every instruction keeps the memory invariant: it stores nothing, or its stores are writes of the bus. -/
theorem exec_inv {i : Instr} {s t : State} (hs : s.Inv) (h : exec i s = .next t) : t.Inv := by
  cases hi : i.stores with
  | false => exact hs.of_readOnly (exec_readOnly hi h)
  | true =>
    cases i
    case sta m | stx m | sty m => cases h; exact State.storeOperand_inv s m _ hs
    case inc m => cases h; exact State.modifyMem_inv s m (· + 1) hs
    case dec m => cases h; exact State.modifyMem_inv s m (· - 1) hs
    case asl m | lsr m | rol m | ror m =>
      cases m with
      | acc => cases hi
      | mem m => cases h; exact State.modifyMem_inv s m _ hs
    case jsr =>
      cases h
      have hpushes := State.push_inv _ (loByte s.pc) (State.push_inv _ (hiByte s.pc)
        (hs.of_readOnly (State.dummyStack_readOnly s)))
      exact hpushes.of_readOnly (State.fetch_readOnly _)
    case brk =>
      cases h
      exact State.enterHandler_inv (s.implied.setPc (s.pc + 1)) true irqVector (State.implied_inv s hs)
    case pha => cases h; exact State.push_inv _ s.a (State.implied_inv s hs)
    case php => cases h; exact State.push_inv _ (s.p.image true) (State.implied_inv s hs)
    all_goals cases hi

theorem State.interruptEntry_inv (s : State) (vec : Word) (h : s.Inv) : (s.interruptEntry vec).Inv :=
  State.enterHandler_inv _ false vec
    (h.of_readOnly ((State.dummyRead_readOnly s s.pc).trans (State.dummyRead_readOnly _ s.pc)))

theorem State.boundary_inv (s : State) (h : s.Inv) : s.boundary.Inv := by
  unfold State.Inv
  rw [State.boundary_mem]
  exact h

/-! ### What a completed step did -/

/-- From the boundary state `s` the step came to `u`, and what is left is to end it (R144). -/
inductive Acted (s u : State) : Prop where
  | reset (h : u = s.resetSequence)
  | nmi (h : u = ({ s with nmiPending := false } : State).interruptEntry nmiVector)
  | irq (h : u = s.interruptEntry irqVector)
  | instruction (i : Instr) (h : exec i s.fetchInstr.2 = .next u)

/-- A step that answers a next state ended a reset sequence, an interrupt entry or an instruction. -/
theorem exists_acted_of_step {s t : State} (h : step s = .next t) : ∃ u, Acted s.boundary u ∧ t = u.finish := by
  rcases step_cases s with ⟨r, _, e⟩ | ⟨_, e⟩ | ⟨_, e⟩ | ⟨_, e⟩ | ⟨_, i, _, e⟩ <;> rw [e] at h
  · cases h
  · cases h; exact ⟨_, .reset rfl, rfl⟩
  · cases h; exact ⟨_, .nmi rfl, rfl⟩
  · cases h; exact ⟨_, .irq rfl, rfl⟩
  · cases hx : exec i s.boundary.fetchInstr.2 with
    | next u => rw [hx] at h; cases h; exact ⟨u, .instruction i hx, rfl⟩
    | fault r => rw [hx] at h; cases h
    | refused r => rw [hx] at h; cases h

theorem Acted.inv {s u : State} (h : Acted s u) (hs : s.Inv) : u.Inv := by
  cases h with
  | reset h => rw [h]; exact hs.of_readOnly (State.resetSequence_readOnly s)
  | nmi h => rw [h]; exact State.interruptEntry_inv _ _ hs
  | irq h => rw [h]; exact State.interruptEntry_inv _ _ hs
  | instruction i h => exact exec_inv (hs.of_readOnly (State.fetchInstr_readOnly s)) h

theorem Acted.grows {s u : State} (h : Acted s u) : s.bus.Grows u.bus := by
  cases h with
  | reset h => rw [h]; exact State.resetSequence_grows s
  | nmi h => rw [h]; exact State.interruptEntry_grows _ _
  | irq h => rw [h]; exact State.interruptEntry_grows _ _
  | instruction i h => exact (State.fetchInstr_grows s).trans (exec_grows i _ u h)

/-- Settles O14: the boundary, what the step does, and its end each keep the invariant. -/
theorem everyStepKeepsTheMemoryInvariant : Obligations.EveryStepKeepsTheMemoryInvariant := by
  intro s t hs h
  obtain ⟨u, hu, rfl⟩ := exists_acted_of_step h
  exact State.finish_inv u (hu.inv (State.boundary_inv s hs))

/-- Settles O17: from the boundary on, where the cycle index is 0, the record grows to the end of the last copy. -/
theorem everyStepNumbersItsAccesses : Obligations.EveryStepNumbersItsAccesses := by
  intro s t h
  obtain ⟨u, hu, rfl⟩ := exists_acted_of_step h
  obtain ⟨new, hhist, _, _, _, hnum⟩ := hu.grows.trans (State.oamCopies_grows u.bus.oamPages u)
  have hstep : u.bus.stepNo = s.bus.stepNo := by
    obtain ⟨_, _, _, hstep, _⟩ := hu.grows
    rw [hstep, State.boundary_stepNo]
  refine ⟨congrArg (· + 1) hstep, new, hhist.trans (by rw [State.boundary_history]), fun k e he => ?_⟩
  simpa [State.boundary_stepNo, State.boundary_cycle] using hnum k e he

/-! ### RAM and its mirrors -/

/-- A read of RAM gives the byte of its cell (R42). -/
theorem State.read_ram (s : State) {a : Word} (h : region a = .ram) : (s.read a).1 = s.bus.mem.lookup (memKey a) :=
  State.read_fst_of_peek s a _ (by simp [Bus.peek, h])

/-- A write to RAM stores to its cell (R42). -/
theorem State.write_mem_ram (s : State) {a : Word} (v : Byte) (h : region a = .ram) :
    (s.write a v).bus.mem = s.bus.mem.store (memKey a) v := by
  simp [State.write, Bus.record, Bus.afterWrite, h]

/-- Settles O29: a store gives its own key the byte written and every other key what it gave before. -/
theorem ramIsReadBackThroughEveryMirror : Obligations.RamIsReadBackThroughEveryMirror := by
  have reads : ∀ (s : State) (a b : Word) (v : Byte), region a = .ram → region b = .ram →
      ((s.write a v).read b).1 = (s.bus.mem.store (a.toNat % 0x0800) v).lookup (b.toNat % 0x0800) := by
    intro s a b v ha hb
    rw [State.read_ram _ hb, State.write_mem_ram s v ha, memKey_ram ha, memKey_ram hb]
  constructor
  · intro s a b v hinv ha hb hab
    rw [reads s a b v (region_of_lt a ha) (region_of_lt b hb), Memory.lookup_store _ hinv.1, if_pos hab]
  · intro s a b v ha hb hab
    have hr := region_of_lt b hb
    rw [reads s a b v (region_of_lt a ha) hr, Memory.lookup_store_ne _ _ _ _ hab, State.read_ram s hr, memKey_ram hr]

/-! ### The controllers -/

/-- The controller port that answers at an address: 0x4017 is port 2, 0x4016 port 1 (R47). -/
def Bus.padAt (b : Bus) (addr : Word) : Pad := if addr = 0x4017 then b.pad2 else b.pad1

/-- The addresses of the two controller ports. -/
def IsPort (addr : Word) : Prop := addr = 0x4016 ∨ addr = 0x4017

/-- A controller read has the register's top bit in bit 0 (R47). -/
theorem padByte_getLsbD_zero (openBus reg : Byte) : (padByte openBus reg).getLsbD 0 = reg.getLsbD 7 := by
  unfold padByte bitAt
  cases reg.getLsbD 7 <;> simp

theorem State.read_port (s : State) {a : Word} (ha : IsPort a) :
    (s.read a).1.getLsbD 0 = ((s.bus.padAt a).current s.bus.strobe).getLsbD 7 := by
  rcases ha with rfl | rfl <;> exact padByte_getLsbD_zero _ _

theorem State.dummyRead_padAt (s : State) {a : Word} (ha : IsPort a) :
    (s.dummyRead a).bus.padAt a = (s.bus.padAt a).afterRead s.bus.strobe := by
  rcases ha with rfl | rfl <;> rfl

theorem State.strobe_iterate_dummyRead (s : State) (a : Word) (n : Nat) :
    ((fun t : State => t.dummyRead a)^[n] s).bus.strobe = s.bus.strobe := by
  induction n with
  | zero => rfl
  | succ n ih =>
    rw [Function.iterate_succ_apply', ← ih]
    exact (State.dummyRead_readOnly _ a).strobe

/-- Reading a port n times moves its register on n times. -/
theorem State.padAt_iterate_dummyRead (s : State) {a : Word} (ha : IsPort a) (n : Nat) :
    ((fun t : State => t.dummyRead a)^[n] s).bus.padAt a =
      (fun p : Pad => p.afterRead s.bus.strobe)^[n] (s.bus.padAt a) := by
  induction n with
  | zero => rfl
  | succ n ih =>
    rw [Function.iterate_succ_apply', Function.iterate_succ_apply', State.dummyRead_padAt _ ha, ih,
      State.strobe_iterate_dummyRead]

/-- One shift of the register, told bit by bit: a 1 comes in at the bottom (R47). -/
theorem Pad.afterRead_shift_getLsbD (p : Pad) (j : Nat) (hj : j < 8) :
    (p.afterRead false).shift.getLsbD j = if j = 0 then true else p.shift.getLsbD (j - 1) := by
  cases j with
  | zero => simp [Pad.afterRead]
  | succ j => simp [Pad.afterRead, hj, BitVec.getLsbD_eq_getElem (Nat.lt_of_succ_lt hj)]

/-- After n shifts bit j is the bit that stood n places below, or a 1 that came in. -/
theorem Pad.iterate_afterRead_getLsbD (p : Pad) (n j : Nat) (hj : j < 8) :
    ((fun q : Pad => q.afterRead false)^[n] p).shift.getLsbD j = if n ≤ j then p.shift.getLsbD (j - n) else true := by
  induction n generalizing j with
  | zero => simp
  | succ n ih =>
    rw [Function.iterate_succ_apply', Pad.afterRead_shift_getLsbD _ j hj]
    cases j with
    | zero => simp
    | succ j => simp [ih j (by omega)]

/-- With the strobe 1 a read leaves the port as it is. -/
theorem Pad.iterate_afterRead_strobed (p : Pad) (n : Nat) : (fun q : Pad => q.afterRead true)^[n] p = p :=
  Function.iterate_fixed rfl n

theorem region_strobe : region 0x4016 = .port1 := by decide

/-- A write of the strobe acts on both ports alike (R47). -/
theorem State.write_padAt (s : State) (v : Byte) (a : Word) :
    (s.write 0x4016 v).bus.padAt a = (s.bus.padAt a).afterStrobe s.bus.strobe (v.getLsbD 0) := by
  unfold Bus.padAt
  split <;> rfl

/-- Reading a port after n reads of it, told by the strobe and the port before them. -/
theorem State.read_port_iterate (s : State) {a : Word} (ha : IsPort a) (n : Nat) :
    (((fun t : State => t.dummyRead a)^[n] s).read a).1.getLsbD 0 =
      (((fun p : Pad => p.afterRead s.bus.strobe)^[n] (s.bus.padAt a)).current s.bus.strobe).getLsbD 7 := by
  rw [State.read_port _ ha, State.padAt_iterate_dummyRead s ha, State.strobe_iterate_dummyRead]

/-- Reads after the strobe was written 1 and then 0: the latch's bits from bit 7 down to bit 0, then 1 (R47). -/
theorem State.read_port_released (s : State) {a : Word} (ha : IsPort a) {on off : Byte} (hon : on.getLsbD 0 = true)
    (hoff : off.getLsbD 0 = false) (n : Nat) :
    (((fun t : State => t.dummyRead a)^[n] ((s.write 0x4016 on).write 0x4016 off)).read a).1.getLsbD 0 =
      if n < 8 then (s.bus.padAt a).latch.getLsbD (7 - n) else true := by
  have hstrobe : ((s.write 0x4016 on).write 0x4016 off).bus.strobe = false := by
    rw [State.write_strobe _ _ _ region_strobe, hoff]
  have hshift : (((s.write 0x4016 on).write 0x4016 off).bus.padAt a).shift = (s.bus.padAt a).latch := by
    rw [State.write_padAt, State.write_padAt, State.write_strobe _ _ _ region_strobe, hon, hoff]
    simp [Pad.afterStrobe]
  rw [State.read_port_iterate _ ha, hstrobe]
  simp only [Pad.current, Bool.false_eq_true, if_false]
  rw [Pad.iterate_afterRead_getLsbD _ n 7 (by decide), hshift]
  exact if_congr (Nat.lt_succ_iff (m := n) (n := 7)).symm rfl rfl

/-- Every read while the strobe is 1: the latch's bit 7 (R47). -/
theorem State.read_port_strobed (s : State) {a : Word} (ha : IsPort a) {on : Byte} (hon : on.getLsbD 0 = true)
    (n : Nat) :
    (((fun t : State => t.dummyRead a)^[n] (s.write 0x4016 on)).read a).1.getLsbD 0 =
      (s.bus.padAt a).latch.getLsbD 7 := by
  have hstrobe : (s.write 0x4016 on).bus.strobe = true := by
    rw [State.write_strobe _ _ _ region_strobe, hon]
  rw [State.read_port_iterate _ ha, hstrobe, Pad.iterate_afterRead_strobed, State.write_padAt, hon]
  simp [Pad.current, Pad.afterStrobe]

/-- Settles O30, for each port from what its reads give while the strobe is 1 and after it went back to 0. -/
theorem controllerReadsShiftTheButtonsOut : Obligations.ControllerReadsShiftTheButtonsOut := by
  intro s on off hon hoff
  have port1 : IsPort 0x4016 := .inl rfl
  have port2 : IsPort 0x4017 := .inr rfl
  exact ⟨State.read_port_released s port1 hon hoff, State.read_port_released s port2 hon hoff,
    State.read_port_strobed s port1 hon, State.read_port_strobed s port2 hon⟩

/-! ### The sprite-memory copy -/

/-- The byte that a copy reads as its k-th, from what the copy before it left (R46). -/
def State.copiedByte (page : Byte) (s : State) (k : Nat) : Byte :=
  ((State.oamCopy page k s).read (mkWord page (BitVec.ofNat 8 k))).1

/-- Where the page is plain memory, the copy reads the page's own bytes: nothing it did before stored there. -/
theorem State.copiedByte_of_peek {page : Byte} {s : State} {k : Nat} {v : Byte}
    (h : s.bus.peek (mkWord page (BitVec.ofNat 8 k)) = some v) : s.copiedByte page k = v :=
  State.read_fst_of_peek _ _ v (((State.oamCopy_readOnly page k s).peek _).trans h)

/-- Each byte of a copy stands twice in the record: as it was read, and as it was written (R46). -/
theorem State.oamCopy_values (page : Byte) (n : Nat) (s : State) :
    (State.oamCopy page n s).bus.history.map BusEvent.value =
      ((List.range n).flatMap fun k => [s.copiedByte page k, s.copiedByte page k]).reverse ++
        s.bus.history.map BusEvent.value := by
  induction n with
  | zero => rfl
  | succ n ih =>
    rw [State.oamCopy_succ, State.write_history, State.read_history, List.map_cons, List.map_cons, ih, List.range_succ]
    simp [State.copiedByte]

/-- A step that noted one page ends with the copy of it. -/
theorem State.finish_of_one_copy {s : State} {page : Byte} (h : s.bus.oamPages = [page]) :
    s.finish.stepCycles = s.bus.cycle + s.dmaStall ∧
      s.finish.bus.history = (State.oamCopy page 256 s).bus.history := by
  simp [State.finish, h, State.oamCopies]

/-- Settles O31, from the copy's accesses, its bytes and the bounds of its stall. -/
theorem spriteCopyMovesAPage : Obligations.SpriteCopyMovesAPage := by
  refine ⟨fun s page => State.write_oamPages s _ page (by decide), State.finish_eq, fun s page h => ?_⟩
  obtain ⟨hcycles, hhist⟩ := State.finish_of_one_copy h
  obtain ⟨hlo, hhi⟩ := State.dmaStall_bounds s
  refine ⟨?_, by omega, rfl, State.finish_peek s, s.copiedByte page, ?_, fun k _ b => State.copiedByte_of_peek⟩
  · rw [Bus.accesses_congr hhist, State.oamCopy_accesses]
  · rw [hhist, State.oamCopy_values]

/-! ### The other devices -/

theorem region_ppu {a : Word} (h : 0x2000 ≤ a.toNat ∧ a.toNat < 0x4000) : region a = .ppu := by
  rw [region_eq_nat, if_neg (by omega), if_pos h.2]

/-- The register an address reaches, told on numbers: the address modulo 8 (R41). -/
theorem ppuRegister_toNat (a : Word) : (ppuRegister a).toNat = 0x2000 + a.toNat % 8 := by
  have hmask : (a &&& 0x0007).toNat = a.toNat % 8 := by
    rw [BitVec.toNat_and]
    exact Nat.and_two_pow_sub_one_eq_mod a.toNat 3
  have hlt := Nat.mod_lt a.toNat (by decide : 8 > 0)
  rw [ppuRegister, BitVec.toNat_add, hmask]
  exact Nat.mod_eq_of_lt (by simp; omega)

/-- A write to a device other than the copy register and the strobe has no effect on the platform (R43, R45). -/
theorem Bus.afterWrite_device (b : Bus) {a : Word} (v : Byte) (h : 0x2000 ≤ a.toNat ∧ a.toNat < 0x4020)
    (hdma : a.toNat ≠ 0x4014) (hstrobe : a.toNat ≠ 0x4016) : b.afterWrite a v = b := by
  have hr : region a = .ppu ∨ region a = .port2 ∨ region a = .undriven := by
    rw [region_eq_nat, if_neg (by omega), if_neg hdma, if_neg hstrobe, if_pos h.2]
    split_ifs <;> simp
  rcases hr with hr | hr | hr <;> simp [Bus.afterWrite, hr]

/-- A read of any address but a controller's has no effect on the platform (R39). -/
theorem Bus.afterRead_of_not_port (b : Bus) {a : Word} (h1 : a.toNat ≠ 0x4016) (h2 : a.toNat ≠ 0x4017) :
    b.afterRead a = b := by
  have hr : region a ≠ .port1 ∧ region a ≠ .port2 := by
    rw [region_eq_nat, if_neg h1, if_neg h2]
    split_ifs <;> simp
  unfold Bus.afterRead
  split <;> simp_all

/-- Settles O32: mirrors reach one register, and these accesses have no effect on the platform. -/
theorem deviceAccessesOnlyLeaveARecord : Obligations.DeviceAccessesOnlyLeaveARecord := by
  refine ⟨fun s a b ha hb hab => ?_, fun s a v ha hdma hstrobe => ?_, fun s a h1 h2 => ?_⟩
  · have hreg : ppuRegister a = ppuRegister b := BitVec.eq_of_toNat_eq (by simp only [ppuRegister_toNat, hab])
    simp only [State.read, Bus.answer, region_ppu ha, region_ppu hb, hreg]
  · rw [State.write, Bus.afterWrite_device _ v ha hdma hstrobe]
    rfl
  · simp only [State.read, Bus.afterRead_of_not_port _ h1 h2]
    rfl

end Sys2Proof.Machine

/-! ## Proofs: the encoding (spec/30_encoding.md)

`decode_encode`, proved above, is one direction: encoding, then decoding, gives the instruction back. The other
direction goes over the entries of the opcode map: each answers a well-formed instruction whose encoding is what was
read. -/

namespace Sys2Proof

/-! ### What an entry of the opcode map answers -/

/-- What `e` answers from the bytes after the opcode `op` is well formed, and its encoding is what was read. -/
def ReadsEncoding (op : Byte) (e : OpcodeEntry) : Prop :=
  ∀ bytes i rest, e bytes = some (i, rest) → i.wf = true ∧ encode i ++ rest = op :: bytes

/-! In each of the three formats of R53 this says that the encoding is the opcode and the operand bytes. -/

section Formats
variable {op : Byte}

theorem readsEncoding_noArg {i : Instr} : ReadsEncoding op (noArg i) ↔ i.wf = true ∧ encode i = [op] := by
  constructor
  · intro h
    simpa using h [] i [] rfl
  · rintro ⟨hwf, henc⟩ bytes _ _ ⟨⟩
    exact ⟨hwf, by rw [henc]; rfl⟩

theorem readsEncoding_byteArg {k : Byte → Instr} :
    ReadsEncoding op (byteArg k) ↔ ∀ b, (k b).wf = true ∧ encode (k b) = [op, b] := by
  constructor
  · intro h b
    simpa using h [b] (k b) [] rfl
  · rintro h (_ | ⟨b, bytes⟩) _ _ ⟨⟩
    obtain ⟨hwf, henc⟩ := h b
    exact ⟨hwf, by rw [henc]; rfl⟩

/-- The operand's two bytes stand low byte first (R35). -/
theorem readsEncoding_wordArg {k : Word → Instr} :
    ReadsEncoding op (wordArg k) ↔ ∀ w, (k w).wf = true ∧ encode (k w) = [op, loByte w, hiByte w] := by
  constructor
  · intro h w
    simpa using h [loByte w, hiByte w] (k w) [] (by rw [wordArg, mkWord_hiByte_loByte])
  · rintro h (_ | ⟨lo, _ | ⟨hi, bytes⟩⟩) _ _ ⟨⟩
    obtain ⟨hwf, henc⟩ := h (mkWord hi lo)
    exact ⟨hwf, by rw [henc, loByte_mkWord, hiByte_mkWord]; rfl⟩

end Formats

/-- R61: the entry in row `r` and column `c` of the map reads encodings whose first byte is `16 * r + c`. Told by
formats, this compares the opcode lists of `encode` and the forms of `Instr.wf` with the map, entry by entry. -/
theorem opcodeMap_readsEncoding : ∀ row ∈ opcodeMap.zipIdx, ∀ e ∈ row.1.zipIdx,
    ReadsEncoding (BitVec.ofNat 8 (16 * row.2 + e.2)) e.1 := by
  simp only [opcodeMap, opcodeRow0, opcodeRow1, opcodeRow2, opcodeRow3, opcodeRow4, opcodeRow5, opcodeRow6, opcodeRow7,
    opcodeRow8, opcodeRow9, opcodeRowA, opcodeRowB, opcodeRowC, opcodeRowD, opcodeRowE, opcodeRowF, illegalEntry,
    immArg, zpArg, zpxArg, zpyArg, izxArg, izyArg, absArg, absxArg, absyArg, List.cons_append, List.nil_append,
    List.zipIdx_cons, List.zipIdx_nil, List.forall_mem_cons, List.not_mem_nil, false_implies, implies_true, and_true,
    readsEncoding_noArg, readsEncoding_byteArg, readsEncoding_wordArg, forall_and]
  and_intros <;> intros <;> rfl

/-- R61: the map has sixteen rows of sixteen columns. -/
theorem opcodeMap_row_length : ∀ row ∈ opcodeMap, row.length = 16 := by decide

theorem getD_mem_zipIdx {α : Type} {l : List α} {n : Nat} (h : n < l.length) (d : α) :
    (l.getD n d, n) ∈ l.zipIdx := by
  rw [List.getD_eq_getElem _ _ h]
  exact List.mk_mem_zipIdx_iff_getElem?.2 (List.getElem?_eq_getElem h)

/-- R53, R61: whatever the entry of an opcode byte answers is a well-formed instruction with that opcode. -/
theorem opcodeEntry_readsEncoding (op : Byte) : ReadsEncoding op (opcodeEntry op) := by
  have hr : op.toNat / 16 < opcodeMap.length := Nat.div_lt_of_lt_mul op.isLt
  have hrow := getD_mem_zipIdx hr []
  have hlen := opcodeMap_row_length _ (List.fst_mem_of_mem_zipIdx hrow)
  have hc : op.toNat % 16 < (opcodeMap.getD (op.toNat / 16) []).length := by
    rw [hlen]
    exact Nat.mod_lt _ (by decide)
  simpa [opcodeEntry, Nat.div_add_mod] using opcodeMap_readsEncoding _ hrow _ (getD_mem_zipIdx hc (illegalEntry op))

/-! ### Facts about `decode` -/

/-- R53, R61: whatever decodes is well formed, and its encoding is what was read. -/
theorem encode_of_decode {bytes rest : List Byte} {i : Instr} (h : decode bytes = some (i, rest)) :
    i.wf = true ∧ encode i ++ rest = bytes := by
  cases bytes with
  | nil => cases h
  | cons op bytes => exact opcodeEntry_readsEncoding op bytes i rest h

theorem decode_undocumented {op : Byte} (h : op ∈ undocumentedOpcodes) (rest : List Byte) :
    decode (op :: rest) = some (.illegal op, rest) :=
  congrFun (opcodeEntry_undocumented op h) rest

theorem mem_undocumentedOpcodes_of_decode_illegal {op o : Byte} {bytes rest : List Byte}
    (h : decode (op :: bytes) = some (.illegal o, rest)) : op ∈ undocumentedOpcodes := by
  obtain ⟨hwf, henc⟩ := encode_of_decode h
  obtain ⟨rfl, -⟩ := List.cons.inj henc
  simpa [Instr.wf] using hwf

/-- R54: the bytes of a well-formed instruction after its opcode are as many as the opcode asks for. -/
theorem length_operands_of_encode {op : Byte} {operands : List Byte} {i : Instr} (hi : i.wf = true)
    (he : encode i = op :: operands) : operands.length = operandCount op :=
  length_of_decode (by simpa [he] using decode_encode hi [])

theorem exists_encode_eq_cons {i : Instr} (hi : i.wf = true) : ∃ op operands, encode i = op :: operands := by
  cases he : encode i with
  | nil =>
    have hd := decode_encode hi []
    rw [he] at hd
    cases hd
  | cons op operands => exact ⟨op, operands, rfl⟩

/-! ### The obligations -/

/-- Settles O1: decoding undoes encoding. -/
theorem decodeOfEncodeIsTheInstruction : Obligations.DecodeOfEncodeIsTheInstruction :=
  fun _ rest hi => decode_encode hi rest

/-- Settles O2, from what every entry of the opcode map answers. -/
theorem encodeOfDecodeIsTheBytes : Obligations.EncodeOfDecodeIsTheBytes :=
  fun _ _ _ h => encode_of_decode h

/-- Settles O3: an undocumented value has the illegal entry, and an illegal instruction that decodes is well formed. -/
theorem everyOpcodeIsDocumentedOrIllegal : Obligations.EveryOpcodeIsDocumentedOrIllegal := by
  refine ⟨rfl, by decide, fun op rest => ⟨fun h => decode_undocumented h rest, fun h o r hd => ?_⟩⟩
  exact h (mem_undocumentedOpcodes_of_decode_illegal hd)

/-- Settles O4: both lengths are one more than the operand count of the shared opcode. -/
theorem opcodeByteFixesTheLength : Obligations.OpcodeByteFixesTheLength := by
  refine ⟨fun op operands i hi he => length_operands_of_encode hi he, fun i j hi hj hhead => ?_⟩
  obtain ⟨op, operands, hei⟩ := exists_encode_eq_cons hi
  obtain ⟨op', operands', hej⟩ := exists_encode_eq_cons hj
  obtain rfl : op = op' := by simpa [hei, hej] using hhead
  rw [hei, hej, List.length_cons, List.length_cons, length_operands_of_encode hi hei, length_operands_of_encode hj hej]

/-- Settles O5: each of the words is looked up in the opcode map. -/
theorem sampleWordsDecode : Obligations.SampleWordsDecode := by
  unfold Obligations.SampleWordsDecode
  and_intros <;> rfl

end Sys2Proof

/-! ## Proofs: the operand modes and the cycle count (spec/40_addressing.md)

The effective addresses, the access columns of the read, write and read-modify-write classes, and the cycle count of a
step as the number of its accesses and stalls. -/

namespace Sys2Proof.Machine

/-! ### Effective addresses (R66) -/

/-- The byte at a zero-page address (R37). -/
theorem State.read_zext16 (s : State) (a : Byte) : (s.read (zext16 a)).1 = s.bus.mem.lookup a.toNat := by
  rw [State.read_ram s (region_zext16 a), memKey_zext16]

/-- The pointer read in two accesses is the one that page zero holds: the first read stores nothing. -/
theorem State.readZpPointer_fst (s : State) (ptr : Byte) : (s.readZpPointer ptr).1 = s.bus.zpPointer ptr := by
  simp only [State.readZpPointer, State.read_zext16, (State.read_readOnly s _).mem, Bus.zpPointer]

/-- A dummy read leaves the pointers in page zero as they are (R39). -/
theorem State.zpPointer_dummyRead (s : State) (addr : Word) (ptr : Byte) :
    (s.dummyRead addr).bus.zpPointer ptr = s.bus.zpPointer ptr := by
  rw [Bus.zpPointer, (State.dummyRead_readOnly s addr).mem, Bus.zpPointer]

/-- The operand modes give the addresses of R66. -/
theorem State.resolve_addr (s : State) (m : MemMode) : (s.resolve m).1.addr = effectiveAddress s m := by
  cases m with
  | abs | absx | absy => rfl
  | zp | zpx | zpy => exact zext16_eq_mkWord _
  | izx p => exact (State.readZpPointer_fst _ _).trans (State.zpPointer_dummyRead s _ _)
  | izy p => exact congrArg (· + zext16 s.y) (State.readZpPointer_fst s p)

theorem State.target_fst (s : State) (m : MemMode) : (s.target m).1 = effectiveAddress s m := State.resolve_addr s m

/-! ### Sequences of accesses -/

/-- No access is made to a platform that stays as it is. -/
theorem Accessed.refl (s : State) : Accessed s s.bus [] := ⟨by simp, rfl⟩

/-- Sequences made one after the other. -/
theorem Accessed.trans {s t : State} {bus : Bus} {l l' : List (AccessKind × Word)} (h : Accessed s t.bus l)
    (h' : Accessed t bus l') : Accessed s bus (l ++ l') :=
  ⟨by rw [h'.accesses, h.accesses, List.append_assoc], by rw [h'.cycle, h.cycle, List.length_append, Nat.add_assoc]⟩

theorem State.read_accessed (s : State) (addr : Word) : Accessed s (s.read addr).2.bus [(.read, addr)] :=
  ⟨State.read_accesses s addr, State.read_cycle s addr⟩

theorem State.dummyRead_accessed (s : State) (addr : Word) : Accessed s (s.dummyRead addr).bus [(.read, addr)] :=
  State.read_accessed s addr

theorem State.write_accessed (s : State) (addr : Word) (v : Byte) : Accessed s (s.write addr v).bus [(.write, addr)] :=
  ⟨State.write_accesses s addr v, State.write_cycle s addr v⟩

theorem State.readZpPointer_accessed (s : State) (ptr : Byte) :
    Accessed s (s.readZpPointer ptr).2.bus (pointerReads ptr) := by
  rw [pointerReads, ← zext16_eq_mkWord, ← zext16_eq_mkWord]
  exact (State.read_accessed s _).trans (State.read_accessed _ _)

/-! ### The columns of R71 to R77

Every column begins with the accesses that find the address; the partial address is what an indexed mode reads next. -/

/-- The accesses that find the address of a memory operand (R71 to R77). -/
def resolveSequence (s : State) (m : MemMode) : List (AccessKind × Word) :=
  match m with
  | .zp _ | .abs _ | .absx _ | .absy _ => []
  | .zpx a | .zpy a => [(.read, mkWord 0x00 a)]
  | .izx p => (.read, mkWord 0x00 p) :: pointerReads (p + s.x)
  | .izy p => pointerReads p

theorem State.resolve_accessed (s : State) (m : MemMode) : Accessed s (s.resolve m).2.bus (resolveSequence s m) := by
  cases m with
  | zp | abs | absx | absy => exact .refl s
  | zpx a | zpy a => rw [resolveSequence, ← zext16_eq_mkWord]; exact State.dummyRead_accessed s _
  | izx p =>
    rw [resolveSequence, ← zext16_eq_mkWord]
    exact (State.dummyRead_accessed s _).trans (State.readZpPointer_accessed _ _)
  | izy p => exact State.readZpPointer_accessed s p

/-- The read column: the partial address only when the page is crossed, then the effective address (R74, R77). -/
theorem readSequence_eq (s : State) (m : MemMode) :
    readSequence s m = resolveSequence s m ++
      ((if (s.resolve m).1.crossed then [(.read, (s.resolve m).1.uncarried)] else []) ++
        [(.read, effectiveAddress s m)]) := by
  cases m with
  | zp | zpx | zpy | abs | izx => rfl
  | absx | absy =>
    simp only [readSequence, resolveSequence, State.resolve, EffAddr.indexed, effectiveAddress, indexedRead,
      decide_eq_true_eq]
    split <;> rfl
  | izy p =>
    simp only [readSequence, resolveSequence, State.resolve, EffAddr.indexed, effectiveAddress, indexedRead,
      decide_eq_true_eq, State.readZpPointer_fst]
    split <;> rfl

/-- The write and read-modify-write columns up to the effective address: an indexed mode always reads the partial
address (R74, R77). -/
theorem targetSequence_eq (s : State) (m : MemMode) :
    targetSequence s m = resolveSequence s m ++
      if addsIndex m then [(.read, (s.resolve m).1.uncarried)] else [] := by
  cases m with
  | zp | zpx | zpy | abs | absx | absy | izx => rfl
  | izy p =>
    simp only [targetSequence, resolveSequence, State.resolve, EffAddr.indexed, indexedDummy, addsIndex, if_true,
      State.readZpPointer_fst]

theorem State.readMem_accessed (s : State) (m : MemMode) : Accessed s (s.readMem m).2.bus (readSequence s m) := by
  rw [readSequence_eq, ← State.resolve_addr, State.readMem]
  refine (State.resolve_accessed s m).trans ?_
  cases (s.resolve m).1.crossed with
  | false => exact State.read_accessed _ _
  | true => exact (State.dummyRead_accessed _ _).trans (State.read_accessed _ _)

theorem State.readOperand_accessed (s : State) (m : ReadMode) :
    Accessed s (s.readOperand m).2.bus (operandSequence s m) := by
  cases m with
  | imm v => exact .refl s
  | mem m => exact State.readMem_accessed s m

theorem State.target_accessed (s : State) (m : MemMode) : Accessed s (s.target m).2.bus (targetSequence s m) := by
  rw [targetSequence_eq, State.target]
  refine (State.resolve_accessed s m).trans ?_
  cases addsIndex m with
  | false => exact .refl _
  | true => exact State.dummyRead_accessed _ _

theorem State.storeOperand_accessed (s : State) (m : MemMode) (v : Byte) :
    Accessed s (s.storeOperand m v).bus (writeSequence s m) := by
  rw [writeSequence, ← State.target_fst]
  exact (State.target_accessed s m).trans (State.write_accessed _ _ v)

theorem State.modifyMem_accessed (s : State) (m : MemMode) (f : Byte → Byte) :
    Accessed s (s.modifyMem m f).2.bus (modifySequence s m) := by
  rw [modifySequence, ← State.target_fst]
  have hread := State.read_accessed (s.target m).2 (s.target m).1
  have hdummy := hread.trans (State.write_accessed _ (s.target m).1 (s.modifyMem m f).1)
  exact (State.target_accessed s m).trans (hdummy.trans (State.write_accessed _ _ (f (s.modifyMem m f).1)))

/-- A memory operand of the read class is the byte that plain memory holds at its address: nothing read before it
stores (R68). -/
theorem State.readMem_fst_of_peek {s : State} {m : MemMode} {v : Byte}
    (h : s.bus.peek (effectiveAddress s m) = some v) : (s.readMem m).1 = v := by
  have hresolve := State.resolve_readOnly s m
  rw [State.readMem, State.resolve_addr]
  apply State.read_fst_of_peek
  split
  · rw [(hresolve.trans (State.dummyRead_readOnly _ _)).peek, h]
  · rw [hresolve.peek, h]

/-! ### The cycle count of a step (R67, R175) -/

theorem State.oamCopy_cycle (page : Byte) (n : Nat) (s : State) :
    (State.oamCopy page n s).bus.cycle = s.bus.cycle + 2 * n := by
  induction n with
  | zero => rfl
  | succ n ih => rw [State.oamCopy_succ, State.write_cycle, State.read_cycle, ih]; omega

/-- Each sprite-memory copy makes 512 accesses (R46). -/
theorem State.oamCopies_cycle (pages : List Byte) (s : State) :
    (State.oamCopies pages s).2.bus.cycle = s.bus.cycle + 512 * pages.length := by
  induction pages generalizing s with
  | nil => rfl
  | cons page rest ih => rw [State.oamCopies_cons, ih, State.oamCopy_cycle, List.length_cons]; omega

/-- The stall of a step is 513 or 514 cycles for each copy (R46). -/
theorem State.oamCopies_stall (pages : List Byte) (s : State) :
    513 * pages.length ≤ (State.oamCopies pages s).1 ∧ (State.oamCopies pages s).1 ≤ 514 * pages.length := by
  induction pages generalizing s with
  | nil => exact ⟨Nat.le_refl 0, Nat.le_refl 0⟩
  | cons page rest ih =>
    have hrest := ih (State.oamCopy page 256 s)
    have hpage := State.dmaStall_bounds s
    rw [State.oamCopies_cons, List.length_cons]
    omega

/-- Before its end a step leaves the cycle counter as it was (R26). -/
theorem Acted.cyclesTotal {s u : State} (h : Acted s u) : u.cyclesTotal = s.cyclesTotal := by
  cases h with
  | reset h => rw [h, State.resetSequence_eq]
  | nmi h => rw [h, State.interruptEntry_eq]
  | irq h => rw [h, State.interruptEntry_eq]
  | instruction i h =>
    have hexec : u.cyclesTotal = (i.overwrite s.fetchInstr.2 u).cyclesTotal :=
      congrArg State.cyclesTotal (exec_eq_overwrite h)
    rw [hexec, Instr.overwrite, State.fetchInstr_snd]

/-- The accesses that a growing record adds are as many as the cycles it counts, and each write to 0x4014 among them
left its page. -/
theorem Bus.Grows.accesses {b b' : Bus} (h : b.Grows b') :
    ∃ new, b'.accesses = b.accesses ++ new ∧ b'.cycle = b.cycle + new.length ∧
      b'.oamPages.length = b.oamPages.length + new.count (.write, 0x4014) := by
  obtain ⟨new, hhist, hcycle, _, hpages, _⟩ := h
  refine ⟨(new.map fun e => (e.kind, e.addr)).reverse, by simp [Bus.accesses, hhist], by simpa using hcycle, ?_⟩
  rwa [List.count_reverse]

/-! ### The obligations -/

/-- Settles O16: the record grows by one access a cycle up to the end of the last copy. Each write to 0x4014 left a
page, and the copies note no further one, so these writes are as many as the copies. -/
theorem everyStepCountsItsAccesses : Obligations.EveryStepCountsItsAccesses := by
  intro s t h
  obtain ⟨u, hu, rfl⟩ := exists_acted_of_step h
  obtain ⟨new, hacc, hcycle, hcount⟩ := (hu.grows.trans (State.oamCopies_grows u.bus.oamPages u)).accesses
  rw [State.oamCopies_cycle, State.boundary_cycle] at hcycle
  rw [(State.oamCopies_readOnly u.bus.oamPages u).oamPages, State.boundary_oamPages, List.length_nil] at hcount
  have hstall := State.oamCopies_stall u.bus.oamPages u
  have htotal : u.finish.cyclesTotal = s.cyclesTotal + u.finish.stepCycles := by
    rw [← State.boundary_cyclesTotal s, ← hu.cyclesTotal]
    rfl
  have hcycles : u.finish.stepCycles = u.bus.cycle + (State.oamCopies u.bus.oamPages u).1 := rfl
  exact ⟨htotal, new, (State.oamCopies u.bus.oamPages u).1, hacc.trans (by rw [State.boundary_accesses]),
    by omega, by omega, by omega⟩

/-- Settles O21: the instructions outside these classes only read the bus. -/
theorem onlyStoringInstructionsChangeMemory : Obligations.OnlyStoringInstructionsChangeMemory :=
  fun _ _ _ h hi => exec_readOnly hi h

/-- Settles O23: the address of each mode, and its three wraps told on numbers. -/
theorem effectiveAddressesFollowTheModes : Obligations.EffectiveAddressesFollowTheModes := by
  intro s m
  refine ⟨State.resolve_addr s m, State.target_fst s m, ⟨_, State.target_snd s m, State.target_readOnly s m⟩,
    ?_, ?_, ?_⟩
  · rintro a rfl
    simp [effectiveAddress, mkWord_toNat]
  · rintro w rfl
    simp [effectiveAddress, zext16_toNat]
  · rintro p rfl
    simp [effectiveAddress, Bus.zpPointer, mkWord_toNat, zext16_toNat]

/-- Settles O24: an immediate operand is its byte, a memory operand the byte that stands at its address. -/
theorem readOperandIsTheByteAtTheAddress : Obligations.ReadOperandIsTheByteAtTheAddress :=
  ⟨fun _ _ => rfl, fun s m => ⟨(s.readMem m).1, (s.readMem m).2.bus,
    Prod.ext rfl (State.readMem_snd s m), State.readMem_readOnly s m, fun _ h => State.readMem_fst_of_peek h⟩⟩

/-- Settles O25, from the accesses that find the address and the read column told by them. -/
theorem readClassFollowsItsSequence : Obligations.ReadClassFollowsItsSequence :=
  fun s m => ⟨(State.readMem_accessed s m).accesses, (State.readMem_accessed s m).cycle⟩

/-- Settles O26: a store makes the accesses of its target and then one write. -/
theorem writeClassFollowsItsSequence : Obligations.WriteClassFollowsItsSequence := by
  intro s m v
  obtain ⟨hacc, hcycle⟩ := State.storeOperand_accessed s m v
  exact ⟨by rw [hacc, writeSequence, List.append_assoc], by rw [hcycle, writeSequence, List.length_append]; rfl⟩

/-- Settles O27: a read-modify-write makes the accesses of its target, then a read and two writes. -/
theorem modifyClassFollowsItsSequence : Obligations.ModifyClassFollowsItsSequence := by
  intro s m f
  obtain ⟨hacc, hcycle⟩ := State.modifyMem_accessed s m f
  exact ⟨by rw [hacc, modifySequence, List.append_assoc], by rw [hcycle, modifySequence, List.length_append]; rfl⟩

end Sys2Proof.Machine

/-! ## Proofs: loads, stores and transfers (spec/41_load_store_transfer.md)

SetNZ told on the value of its byte, and the one dummy read of an implied form; what a load or a store does on the bus
is what its operand does. -/

namespace Sys2Proof.Machine

/-- R8: SetNZ takes N from bit 7 and Z from a comparison, which is the byte's sign and zero told by its value. -/
theorem Flags.setNZ_eq_withNZ (p : Flags) (v : Byte) : p.setNZ v = p.withNZ v := by
  have hn : v.getLsbD 7 = decide (128 ≤ v.toNat) := BitVec.msb_eq_getLsbD_last v ▸ BitVec.msb_eq_decide v
  have hz : (v == 0) = decide (v.toNat = 0) := by
    rw [beq_eq_decide]
    exact decide_eq_decide.2 BitVec.toNat_inj.symm
  rw [Flags.setNZ, hn, hz, Flags.withNZ]

/-- R69: an implied form makes one dummy read and stores nothing. -/
theorem State.implied_impliedRead (s : State) : ImpliedRead s s.implied.bus :=
  ⟨State.implied_accesses s, State.dummyRead_cycle s s.pc, State.implied_readOnly s⟩

/-- Settles O33: reading the operand changes the platform alone, and the load writes its register, N and Z. -/
theorem loadsPutTheOperandInTheRegister : Obligations.LoadsPutTheOperandInTheRegister := by
  intro m s
  have hframe := State.readOperand_snd s m
  refine ⟨(s.readOperand m).2.bus, State.readOperand_readOnly s m, State.readOperand_accessed s m, ?_⟩
  rw [← Flags.setNZ_eq_withNZ]
  have load : ∀ put : State → State, Host.Outcome.next (put (s.readOperand m).2) =
      (.next (put { s with bus := (s.readOperand m).2.bus }) : Result) := fun put => congrArg _ (congrArg put hframe)
  exact ⟨load fun t => (t.setA _).setP _, load fun t => (t.setX _).setP _, load fun t => (t.setY _).setP _⟩

/-- Settles O34: each store is the store of its register's byte at its operand. -/
theorem storesWriteTheRegister : Obligations.StoresWriteTheRegister := by
  intro m s
  have store : ∀ v, ∃ bus, Host.Outcome.next (s.storeOperand m v) = (.next { s with bus := bus } : Result) ∧
      Stored s bus (s.target m).1 v ∧ Accessed s bus (writeSequence s m) := fun v =>
    ⟨(s.storeOperand m v).bus, congrArg _ (State.storeOperand_eq s m v), State.storeOperand_stored s m v,
      State.storeOperand_accessed s m v⟩
  exact ⟨store s.a, store s.x, store s.y⟩

/-- Settles O35: the opcodes are those of `encode`, and each transfer is its dummy read followed by the copy. -/
theorem transfersCopyARegister : Obligations.TransfersCopyARegister := by
  refine ⟨decode_encode (i := .tax) rfl [], decode_encode (i := .tay) rfl [], decode_encode (i := .txa) rfl [],
    decode_encode (i := .tya) rfl [], decode_encode (i := .tsx) rfl [], decode_encode (i := .txs) rfl [],
    fun s => ⟨s.implied.bus, State.implied_impliedRead s, ?_⟩⟩
  simp only [← Flags.setNZ_eq_withNZ]
  exact ⟨rfl, rfl, rfl, rfl, rfl, rfl⟩

end Sys2Proof.Machine

/-! ## Proofs: arithmetic, logic, compare, increment and decrement (spec/42_arith_logic.md)

The adder and the flag computations told on the integers; what an instruction does on the bus is what its operand
does. -/

namespace Sys2Proof.Machine

/-! ### Bytes as numbers -/

theorem byte_msb (v : Byte) : v.msb = decide (128 ≤ v.toNat) := BitVec.msb_eq_decide v

theorem byte_getLsbD_seven (v : Byte) : v.getLsbD 7 = decide (128 ≤ v.toNat) :=
  (BitVec.msb_eq_getLsbD_last v).symm.trans (byte_msb v)

theorem byte_beq (u v : Byte) : (u == v) = decide (u.toNat = v.toNat) := by
  rw [beq_eq_decide]
  exact decide_eq_decide.2 BitVec.toNat_inj.symm

/-- The signed value of a byte, told on its unsigned value. -/
theorem byte_toInt (v : Byte) : v.toInt = if 128 ≤ v.toNat then (v.toNat : Int) - 256 else v.toNat := by
  rw [BitVec.toInt_eq_msb_cond, byte_msb]
  simp

theorem byte_add_one_toNat (v : Byte) : (v + 1).toNat = (v.toNat + 1) % 256 := BitVec.toNat_add v 1

theorem byte_sub_one_toNat (v : Byte) : (v - 1).toNat = (v.toNat + 255) % 256 :=
  (BitVec.toNat_sub v 1).trans (congrArg (· % 256) (Nat.add_comm 255 v.toNat))

theorem xor_0xFF_toNat (v : Byte) : (v ^^^ 0xFF).toNat = 255 - v.toNat := by
  have hnot : v ^^^ 0xFF = ~~~v := BitVec.xor_allOnes
  rw [hnot, BitVec.toNat_not]

theorem xor_0xFF_toInt (v : Byte) : (v ^^^ 0xFF).toInt = -v.toInt - 1 := by
  have := v.isLt
  rw [byte_toInt, byte_toInt, xor_0xFF_toNat]
  split <;> split <;> omega

/-- Masking a byte with 0x80 leaves its sign bit. -/
theorem and_0x80_ne_zero (v : Byte) : (v &&& 0x80 != 0) = v.msb := by
  have hmask : v &&& 0x80 = if v.getLsbD 7 = true then 0x80 else 0 := BitVec.and_twoPow v 7
  rw [hmask, BitVec.msb_eq_getLsbD_last]
  cases v.getLsbD 7 <;> rfl

theorem carryNat_eq_toNat (c : Bool) : carryNat c = c.toNat := by cases c <;> rfl

theorem carryNat_le_one (c : Bool) : carryNat c ≤ 1 := by cases c <;> decide

/-! ### The adder (R91) -/

/-- The integer sum of the adder. -/
theorem addSum_eq (a b : Byte) (c : Bool) : addSum a b c = a.toNat + b.toNat + carryNat c := by
  rw [addSum, carryNat_eq_toNat]

theorem addResult_toNat (a b : Byte) (c : Bool) :
    (addResult a b c).toNat = (a.toNat + b.toNat + carryNat c) % 256 := by
  rw [addResult, BitVec.toNat_ofNat, addSum_eq]

theorem addCarry_eq (a b : Byte) (c : Bool) : addCarry a b c = decide (256 ≤ a.toNat + b.toNat + carryNat c) := by
  rw [addCarry, addSum_eq]

/-- The overflow formula says that both operands differ from the result in sign. -/
theorem addOverflow_eq_msb (a b : Byte) (c : Bool) :
    addOverflow a b c = ((a.msb ^^ (addResult a b c).msb) && (b.msb ^^ (addResult a b c).msb)) := by
  rw [addOverflow, and_0x80_ne_zero, BitVec.msb_and, BitVec.msb_xor, BitVec.msb_xor]

/-- The result's sign differs from both operands' exactly when the signed sum leaves the signed range: operands of
different signs keep the sum in the range, and two of one sign leave it when the result has the other. -/
theorem addOverflow_eq (a b : Byte) (c : Bool) :
    addOverflow a b c = decide (¬(-128 ≤ a.toInt + b.toInt + carryNat c ∧ a.toInt + b.toInt + carryNat c ≤ 127)) := by
  have hc := carryNat_le_one c
  have ha := a.isLt
  have hb := b.isLt
  rw [addOverflow_eq_msb, byte_msb, byte_msb, byte_msb, addResult_toNat, byte_toInt, byte_toInt, Bool.eq_iff_iff]
  by_cases hna : 128 ≤ a.toNat <;> by_cases hnb : 128 ≤ b.toNat <;> simp [hna, hnb] <;> omega

/-! ### The flags on numbers -/

/-- R92: N, V, Z and C after an addition. -/
theorem Flags.afterAdd_eq (p : Flags) (a b : Byte) :
    p.afterAdd a b =
      { p.withNZ (addResult a b p.c) with
        c := decide (256 ≤ a.toNat + b.toNat + carryNat p.c)
        v := decide (¬(-128 ≤ a.toInt + b.toInt + carryNat p.c ∧ a.toInt + b.toInt + carryNat p.c ≤ 127)) } := by
  rw [Flags.afterAdd, Flags.setNZ_eq_withNZ, addCarry_eq, addOverflow_eq]

/-- R93: adding the complement of `m` leaves the carry and the overflow of the difference with the borrow. -/
theorem Flags.afterAdd_xor_0xFF (p : Flags) (a m : Byte) :
    p.afterAdd a (m ^^^ 0xFF) =
      { p.withNZ (addResult a (m ^^^ 0xFF) p.c) with
        c := decide (0 ≤ (a.toNat : Int) - m.toNat - (1 - (carryNat p.c : Int)))
        v := decide (¬(-128 ≤ a.toInt - m.toInt - (1 - (carryNat p.c : Int)) ∧
          a.toInt - m.toInt - (1 - (carryNat p.c : Int)) ≤ 127)) } := by
  have hm := m.isLt
  have hcarry : 256 ≤ a.toNat + (255 - m.toNat) + carryNat p.c ↔
      0 ≤ (a.toNat : Int) - m.toNat - (1 - (carryNat p.c : Int)) := by omega
  have hsigned : a.toInt + (-m.toInt - 1) + carryNat p.c = a.toInt - m.toInt - (1 - (carryNat p.c : Int)) := by omega
  rw [Flags.afterAdd_eq, xor_0xFF_toNat, xor_0xFF_toInt, hsigned, decide_eq_decide.2 hcarry]

/-- R93: adding the complement of `m` gives the difference with the borrow, modulo 256. -/
theorem addResult_xor_0xFF_toNat (a m : Byte) (c : Bool) :
    ((addResult a (m ^^^ 0xFF) c).toNat : Int) = ((a.toNat : Int) - m.toNat - (1 - (carryNat c : Int))) % 256 := by
  have hm := m.isLt
  rw [addResult_toNat, xor_0xFF_toNat]
  omega

/-- R97: C, Z and N after a comparison. -/
theorem Flags.compare_eq (p : Flags) (r m : Byte) :
    p.compare r m =
      { p with
        c := decide (m.toNat ≤ r.toNat)
        z := decide (r.toNat = m.toNat)
        n := decide (128 ≤ (r.toNat + 256 - m.toNat) % 256) } := by
  have hsub : (r - m).toNat = (r.toNat + 256 - m.toNat) % 256 := by
    have := m.isLt
    rw [BitVec.toNat_sub]
    omega
  rw [Flags.compare, byte_beq, byte_getLsbD_seven, hsub]

/-- R101: Z, N and V after BIT. -/
theorem Flags.bitTest_eq (p : Flags) (a m : Byte) :
    p.bitTest a m =
      { p with
        z := decide ((a &&& m).toNat = 0)
        n := decide (128 ≤ m.toNat)
        v := decide (m.toNat / 64 % 2 = 1) } := by
  have hv : m.getLsbD 6 = decide (m.toNat / 64 % 2 = 1) :=
    (BitVec.testBit_toNat m).symm.trans Nat.testBit_eq_decide_div_mod_eq
  rw [Flags.bitTest, byte_beq, byte_getLsbD_seven, hv]
  rfl

/-! ### What an operand operation leaves to the instruction -/

/-- What is done with a state in which an operand operation changed the platform alone is done with the state before it,
but for the platform. -/
theorem next_congr {s t : State} (h : t = { s with bus := t.bus }) (put : State → State) :
    (Host.Outcome.next (put t) : Result) = .next (put { s with bus := t.bus }) :=
  congrArg _ (congrArg put h)

/-- A read-modify-write that sets N and Z from its result changes those and the platform alone. -/
theorem State.next_modifyMem (s : State) (m : MemMode) (f : Byte → Byte) :
    (Host.Outcome.next ((s.modifyMem m f).2.setP (s.p.setNZ (f (s.modifyMem m f).1))) : Result) =
      .next { s with p := s.p.withNZ (f (s.modifyMem m f).1), bus := (s.modifyMem m f).2.bus } := by
  rw [← Flags.setNZ_eq_withNZ]
  exact next_congr (State.modifyMem_snd s m f) fun t => t.setP (s.p.setNZ (f (s.modifyMem m f).1))

/-! ### The obligations -/

/-- Settles O36, from the sum as an integer and the overflow as the signs' disagreement. -/
theorem adderMatchesTheIntegers : Obligations.AdderMatchesTheIntegers := fun a b c =>
  ⟨addResult_toNat a b c, by rw [addCarry_eq, decide_eq_true_iff], by rw [addOverflow_eq, decide_eq_true_iff]⟩

/-- Settles O37: ADC puts the sum of A and the operand. -/
theorem adcAddsWithCarry : Obligations.AdcAddsWithCarry := by
  intro m s
  refine ⟨(s.readOperand m).2.bus, addResult s.a (s.readOperand m).1 s.p.c, ?_, addResult_toNat _ _ _,
    State.readOperand_readOnly s m, State.readOperand_accessed s m⟩
  rw [← Flags.afterAdd_eq]
  exact next_congr (State.readOperand_snd s m) fun t => t.putSum (s.readOperand m).1

/-- Settles O38: SBC puts the sum of A and the operand's complement, which is the difference with the borrow. -/
theorem sbcSubtractsWithBorrow : Obligations.SbcSubtractsWithBorrow := by
  intro m s
  refine ⟨(s.readOperand m).2.bus, addResult s.a ((s.readOperand m).1 ^^^ 0xFF) s.p.c, ?_,
    addResult_xor_0xFF_toNat _ _ _, State.readOperand_readOnly s m, State.readOperand_accessed s m⟩
  rw [← Flags.afterAdd_xor_0xFF]
  exact next_congr (State.readOperand_snd s m) fun t => t.putSum ((s.readOperand m).1 ^^^ 0xFF)

/-- Settles O39: the bits of a bitwise operation are those of its operands. -/
theorem logicWorksBitByBit : Obligations.LogicWorksBitByBit := by
  intro m s
  have put : ∀ v : Byte, (Host.Outcome.next ((s.readOperand m).2.putLogic v) : Result) =
      .next { s with a := v, p := s.p.withNZ v, bus := (s.readOperand m).2.bus } := fun v => by
    rw [← Flags.setNZ_eq_withNZ]
    exact next_congr (State.readOperand_snd s m) fun t => t.putLogic v
  exact ⟨_, _, _, _, State.readOperand_readOnly s m, State.readOperand_accessed s m, put _, put _, put _,
    fun _ => ⟨BitVec.getLsbD_and, BitVec.getLsbD_or, BitVec.getLsbD_xor⟩⟩

/-- Settles O40: each comparison puts the flags of its register and the operand. -/
theorem comparisonsSetTheFlags : Obligations.ComparisonsSetTheFlags := by
  intro m s
  refine ⟨_, State.readOperand_readOnly s m, State.readOperand_accessed s m, fun i r hi => ?_⟩
  have put := next_congr (State.readOperand_snd s m) fun t => t.setP (s.p.compare r (s.readOperand m).1)
  rw [← Flags.compare_eq]
  simp only [List.mem_cons, Prod.mk.injEq, List.not_mem_nil, or_false] at hi
  obtain ⟨rfl, rfl⟩ | ⟨rfl, rfl⟩ | ⟨rfl, rfl⟩ := hi <;> exact put

/-- Settles O41: BIT puts the flags of A and the operand. -/
theorem bitTestsTheOperand : Obligations.BitTestsTheOperand := by
  intro m s
  refine ⟨_, State.readOperand_readOnly s m, State.readOperand_accessed s m, ?_⟩
  rw [← Flags.bitTest_eq]
  exact next_congr (State.readOperand_snd s m) fun t => t.setP (s.p.bitTest s.a (s.readOperand m).1)

/-- Settles O42: both are read-modify-writes of the target. -/
theorem incrementsModifyMemory : Obligations.IncrementsModifyMemory := fun m s =>
  ⟨⟨_, _, _, State.next_modifyMem s m (· + 1), byte_add_one_toNat _, State.modifyMem_modified s m (· + 1),
    State.modifyMem_accessed s m (· + 1)⟩,
   ⟨_, _, _, State.next_modifyMem s m (· - 1), byte_sub_one_toNat _, State.modifyMem_modified s m (· - 1),
    State.modifyMem_accessed s m (· - 1)⟩⟩

/-- Settles O43: the opcodes are those of `encode`, and each is its dummy read followed by the count. -/
theorem indexRegistersCountModulo256 : Obligations.IndexRegistersCountModulo256 := by
  refine ⟨decode_encode (i := .inx) rfl [], decode_encode (i := .iny) rfl [], decode_encode (i := .dex) rfl [],
    decode_encode (i := .dey) rfl [], fun s => ⟨s.implied.bus, s.x + 1, s.y + 1, s.x - 1, s.y - 1,
      State.implied_impliedRead s, byte_add_one_toNat _, byte_add_one_toNat _, byte_sub_one_toNat _,
      byte_sub_one_toNat _, ?_⟩⟩
  simp only [← Flags.setNZ_eq_withNZ]
  exact ⟨rfl, rfl, rfl, rfl⟩

end Sys2Proof.Machine

/-! ## Proofs: shifts and rotates (spec/43_shift_rotate.md)

The shift functions and the bit shifted out told on the numbers; what an accumulator or a memory form does is said once
for the four. -/

namespace Sys2Proof.Machine

/-! ### The shift functions on numbers -/

theorem byte_getLsbD_zero (v : Byte) : v.getLsbD 0 = decide (v.toNat % 2 = 1) := Nat.testBit_zero v.toNat

theorem aslByte_eq_ofNat (v : Byte) : aslByte v = BitVec.ofNat 8 (v.toNat * 2 % 256) := by
  apply BitVec.eq_of_toNat_eq
  rw [aslByte, BitVec.toNat_shiftLeft, Nat.shiftLeft_eq, BitVec.toNat_ofNat, Nat.mod_mod]

theorem lsrByte_eq_ofNat (v : Byte) : lsrByte v = BitVec.ofNat 8 (v.toNat / 2) := by
  apply BitVec.eq_of_toNat_eq
  rw [lsrByte, BitVec.toNat_ushiftRight, Nat.shiftRight_eq_div_pow, BitVec.toNat_ofNat,
    Nat.mod_eq_of_lt (Nat.lt_of_le_of_lt (Nat.div_le_self _ _) v.isLt)]

/-- A bit that is 0 is set by adding it. -/
theorem or_bitAt (v : Byte) (k : Nat) (c : Bool) (h : v.getLsbD k = false) : v ||| bitAt k c = v + bitAt k c := by
  have hempty : v &&& bitAt k c = 0#8 := by
    cases c with
    | false => exact BitVec.and_zero
    | true => exact (BitVec.and_twoPow v k).trans (if_neg (Bool.eq_false_iff.1 h))
  exact (BitVec.add_eq_or_of_and_eq_zero _ _ hempty).symm

/-- R111: the carry comes in at bit 0, which the shift left empty. -/
theorem rolByte_eq_ofNat (c : Bool) (v : Byte) :
    rolByte c v = BitVec.ofNat 8 ((v.toNat * 2 + carryNat c) % 256) := by
  have hbit : (bitAt 0 c).toNat = carryNat c := by cases c <;> rfl
  have hempty : (v <<< 1).getLsbD 0 = false := by simp
  apply BitVec.eq_of_toNat_eq
  rw [rolByte, or_bitAt _ _ _ hempty, BitVec.toNat_add, hbit, BitVec.toNat_shiftLeft, Nat.shiftLeft_eq,
    Nat.mod_add_mod, BitVec.toNat_ofNat, Nat.mod_mod]

/-- R112: the carry comes in at bit 7, which the shift left empty. -/
theorem rorByte_eq_ofNat (c : Bool) (v : Byte) :
    rorByte c v = BitVec.ofNat 8 (v.toNat / 2 + 128 * carryNat c) := by
  have hbit : (bitAt 7 c).toNat = 128 * carryNat c := by cases c <;> rfl
  have hempty : (v >>> 1).getLsbD 7 = false := by simp
  apply BitVec.eq_of_toNat_eq
  rw [rorByte, or_bitAt _ _ _ hempty, BitVec.toNat_add, hbit, BitVec.toNat_ushiftRight, Nat.shiftRight_eq_div_pow,
    BitVec.toNat_ofNat]

/-! ### What the four have in common -/

theorem Flags.afterShift_eq (p : Flags) (r : Byte) (out : Bool) : p.afterShift r out = { p.withNZ r with c := out } := by
  rw [Flags.afterShift, Flags.setNZ_eq_withNZ]

/-- An accumulator form is its dummy read (R69) and the shift of A. -/
theorem State.next_modifyOperand_acc (s : State) (g : Byte → Byte) (out : Bool) :
    (Host.Outcome.next ((s.modifyOperand .acc g).2.setP (s.p.afterShift (g s.a) out)) : Result) =
      .next { s with a := g s.a, p := { s.p.withNZ (g s.a) with c := out }, bus := s.implied.bus } := by
  rw [← Flags.afterShift_eq]
  rfl

/-- A memory form is the read-modify-write of its target by `g`, with bit `k` shifted out: told by `f` and `out` on the
value of the byte read. -/
theorem exists_modified_of_exec (m : MemMode) (s : State) (i : Instr) (f : Nat → Nat) (out : Nat → Bool)
    (g : Byte → Byte) (k : Nat)
    (hexec : exec i s = .next ((s.modifyMem m g).2.setP
      (s.p.afterShift (g (s.modifyMem m g).1) ((s.modifyMem m g).1.getLsbD k))))
    (hg : ∀ v, g v = BitVec.ofNat 8 (f v.toNat)) (hk : ∀ v : Byte, v.getLsbD k = out v.toNat) :
    ∃ bus old, exec i s = .next { s with
        p := { s.p.withNZ (BitVec.ofNat 8 (f old.toNat)) with c := out old.toNat }
        bus := bus } ∧
      Modified s bus (s.target m).1 old (BitVec.ofNat 8 (f old.toNat)) ∧ Accessed s bus (modifySequence s m) := by
  refine ⟨(s.modifyMem m g).2.bus, (s.modifyMem m g).1, ?_, ?_, State.modifyMem_accessed s m g⟩
  · rw [hexec, ← hg, ← hk, ← Flags.afterShift_eq]
    exact next_congr (State.modifyMem_snd s m g) fun t => t.setP _
  · rw [← hg]
    exact State.modifyMem_modified s m g

/-! ### The obligations -/

/-- Settles O44: the four accumulator forms differ in their function and in the bit of A shifted out. -/
theorem accumulatorShiftsMoveOneBit : Obligations.AccumulatorShiftsMoveOneBit := by
  intro s
  refine ⟨s.implied.bus, State.implied_impliedRead s, fun i r c hi => ?_⟩
  simp only [List.mem_cons, Prod.mk.injEq, List.not_mem_nil, or_false] at hi
  obtain ⟨rfl, rfl, rfl⟩ | ⟨rfl, rfl, rfl⟩ | ⟨rfl, rfl, rfl⟩ | ⟨rfl, rfl, rfl⟩ := hi
  · rw [← aslByte_eq_ofNat, ← byte_getLsbD_seven]
    exact State.next_modifyOperand_acc s _ _
  · rw [← lsrByte_eq_ofNat, ← byte_getLsbD_zero]
    exact State.next_modifyOperand_acc s _ _
  · rw [← rolByte_eq_ofNat, ← byte_getLsbD_seven]
    exact State.next_modifyOperand_acc s _ _
  · rw [← rorByte_eq_ofNat, ← byte_getLsbD_zero]
    exact State.next_modifyOperand_acc s _ _

/-- Settles O45: the four memory forms differ in their function and in the bit of the byte shifted out. -/
theorem memoryShiftsModifyMemory : Obligations.MemoryShiftsModifyMemory := by
  intro m s i f out hi
  have shift := exists_modified_of_exec m s i f out
  simp only [List.mem_cons, Prod.mk.injEq, List.not_mem_nil, or_false] at hi
  obtain ⟨rfl, rfl, rfl⟩ | ⟨rfl, rfl, rfl⟩ | ⟨rfl, rfl, rfl⟩ | ⟨rfl, rfl, rfl⟩ := hi
  · exact shift aslByte 7 rfl aslByte_eq_ofNat byte_getLsbD_seven
  · exact shift lsrByte 0 rfl lsrByte_eq_ofNat byte_getLsbD_zero
  · exact shift (rolByte s.p.c) 7 rfl (rolByte_eq_ofNat s.p.c) byte_getLsbD_seven
  · exact shift (rorByte s.p.c) 0 rfl (rorByte_eq_ofNat s.p.c) byte_getLsbD_zero

end Sys2Proof.Machine

/-! ## Proofs: control transfer (spec/44_control_transfer.md)

A branch told by its target and its dummy reads; a 16-bit word pushed and pulled, which is what JSR, RTS, RTI, BRK and
the interrupt entries have in common; the entry of a handler, whole. -/

namespace Sys2Proof.Machine

/-! ### Addresses as numbers -/

theorem hiByte_eq_iff (u v : Word) : hiByte u = hiByte v ↔ u.toNat / 256 = v.toNat / 256 := by
  rw [← BitVec.toNat_inj, hiByte_toNat, hiByte_toNat]

/-- R59: adding the sign-extended offset adds its signed value modulo 2^16. -/
theorem add_sext16 (w : Word) (off : Byte) : w + sext16 off = BitVec.ofInt 16 (w.toNat + off.toInt) := by
  rw [BitVec.ofInt_add, BitVec.ofInt_natCast, BitVec.ofNat_toNat, BitVec.setWidth_eq]
  rfl

/-- The address after `w` in `w`'s page, told on numbers (R37). -/
theorem mkWord_loByte_add_one (w : Word) :
    mkWord (hiByte w) (loByte w + 1) = BitVec.ofNat 16 (w.toNat / 256 * 256 + (w.toNat + 1) % 256) := by
  apply BitVec.eq_of_toNat_eq
  rw [mkWord_toNat, hiByte_toNat, byte_add_one_toNat, loByte_toNat, BitVec.toNat_ofNat]
  omega

/-! ### Branches (R113) -/

theorem State.branch_pc (s : State) (taken : Bool) (off : Byte) :
    (s.branch taken off).pc = if taken then s.pc + sext16 off else s.pc := by
  cases taken <;> rfl

/-- A taken branch reads at `pc_next`, and once more in its page when the target lies in another one. -/
theorem State.branch_accesses (s : State) (taken : Bool) (off : Byte) :
    (s.branch taken off).bus.accesses = s.bus.accesses ++
      if taken then
        if hiByte (s.pc + sext16 off) = hiByte s.pc then [(.read, s.pc)]
        else [(.read, s.pc), (.read, mkWord (hiByte s.pc) (loByte (s.pc + sext16 off)))]
      else [] := by
  cases taken with
  | false => simp [State.branch]
  | true =>
    simp only [State.branch, if_true]
    split <;> simp

/-- Settles O46: the eight differ in their condition, and a branch is told by its target and its dummy reads. -/
theorem branchesTestTheirFlag : Obligations.BranchesTestTheirFlag := by
  intro branch cond h off s
  have hexec : exec (branch off) s = .next (s.branch (cond s.p) off) := by
    simp only [List.mem_cons, Prod.mk.injEq, List.not_mem_nil, or_false] at h
    obtain ⟨rfl, rfl⟩ | ⟨rfl, rfl⟩ | ⟨rfl, rfl⟩ | ⟨rfl, rfl⟩ | ⟨rfl, rfl⟩ | ⟨rfl, rfl⟩ | ⟨rfl, rfl⟩ | ⟨rfl, rfl⟩ :=
      h <;> rfl
  refine ⟨(s.branch (cond s.p) off).bus, s.pc + sext16 off, add_sext16 s.pc off, ?_,
    State.branch_readOnly s _ off, ?_⟩
  · rw [hexec, ← State.branch_pc, ← State.branch_eq]
  · simp only [State.branch_accesses, hiByte_eq_iff]

/-! ### Jumps (R122, R123) -/

theorem State.readPointer_accesses (s : State) (ptr : Word) :
    (s.readPointer ptr).2.bus.accesses =
      s.bus.accesses ++ [(.read, ptr), (.read, mkWord (hiByte ptr) (loByte ptr + 1))] := by
  simp [State.readPointer]

/-- Where both bytes of the pointer are plain memory, it is the word they hold: its first read stores nothing. -/
theorem State.readPointer_fst_of_peek {s : State} {ptr : Word} {lo hi : Byte} (hlo : s.bus.peek ptr = some lo)
    (hhi : s.bus.peek (mkWord (hiByte ptr) (loByte ptr + 1)) = some hi) : (s.readPointer ptr).1 = mkWord hi lo := by
  have hhi' := ((State.read_readOnly s ptr).peek _).trans hhi
  rw [State.readPointer, State.read_fst_of_peek s _ _ hlo, State.read_fst_of_peek _ _ _ hhi']

/-- Settles O47: the absolute form writes pc alone; the indirect form goes where its pointer points. -/
theorem jumpsLoadTheProgramCounter : Obligations.JumpsLoadTheProgramCounter := by
  refine ⟨fun _ _ => rfl, fun ptr s => ⟨(s.readPointer ptr).1, (s.readPointer ptr).2.bus, rfl,
    State.readPointer_readOnly s ptr, ?_⟩⟩
  rw [← mkWord_loByte_add_one]
  exact ⟨State.readPointer_accesses s ptr, fun _ _ => State.readPointer_fst_of_peek⟩

/-! ### The stack bytes around the stack pointer -/

theorem byte_add_one_add_one (v : Byte) : v + 1 + 1 = v + 2 := BitVec.add_assoc v 1 1

theorem byte_add_one_add_two (v : Byte) : v + 1 + 2 = v + 3 := BitVec.add_assoc v 1 2

theorem byte_sub_one_sub_one (v : Byte) : v - 1 - 1 = v - 2 := BitVec.sub_sub v 1 1

theorem byte_sub_one_sub_one_sub_one (v : Byte) : v - 1 - 1 - 1 = v - 3 := by
  rw [byte_sub_one_sub_one v]
  exact BitVec.sub_sub v 2 1

theorem byte_sub_two_add_one (v : Byte) : v - 2 + 1 = v - 1 := by bv_omega

theorem byte_sub_one_ne (v : Byte) : v - 1 ≠ v := by bv_omega

theorem byte_sub_two_ne (v : Byte) : v - 2 ≠ v := by bv_omega

theorem byte_sub_two_ne_sub_one (v : Byte) : v - 2 ≠ v - 1 := by bv_omega

/-- A push leaves every other stack byte as it was. -/
theorem State.push_peek_of_ne (s : State) (v : Byte) {q : Byte} (h : s.sp ≠ q) :
    (s.push v).bus.peek (stackAddr q) = s.bus.peek (stackAddr q) :=
  State.write_peek s _ v _ (by rw [sharesStorage_stackAddr, decide_eq_false h])

theorem State.push_wf (s : State) (v : Byte) (h : s.bus.mem.wf = true) : (s.push v).bus.mem.wf = true :=
  State.write_wf s _ v h

/-! ### Pushing and pulling a word (R35)

A word goes to the stack high byte first and comes back low byte first. -/

/-- Push a word: its high byte, then its low byte. -/
def State.pushWord (s : State) (w : Word) : State := (s.push (hiByte w)).push (loByte w)

/-- Pull a word: its low byte, then its high byte. -/
def State.pullWord (s : State) : Word × State := (mkWord s.pull.2.pull.1 s.pull.1, s.pull.2.pull.2)

section
variable (s : State) (w : Word)

/-- JSR is a word pushed between two reads (R124). -/
theorem execJsr_eq_pushWord (operand : Word) :
    execJsr operand s =
      .next ((s.dummyStack.pushWord s.pc).fetch.2.setPc
        (mkWord (s.dummyStack.pushWord s.pc).fetch.1 (loByte operand))) := rfl

/-- RTS is a word pulled between three reads (R125). -/
theorem execRts_eq_pullWord :
    execRts s =
      .next ((s.implied.dummyStack.pullWord.2.dummyRead s.implied.dummyStack.pullWord.1).setPc
        (s.implied.dummyStack.pullWord.1 + 1)) := rfl

/-- A return from an interrupt pulls P and then a word (R126). -/
theorem State.returnFromInterrupt_eq_pullWord :
    s.returnFromInterrupt =
      (s.dummyStack.pull.2.pullWord.2.setP (Flags.ofByte s.dummyStack.pull.1)).setPc
        s.dummyStack.pull.2.pullWord.1 := rfl

/-- A handler is entered by pushing a word and then P (R127, R150). -/
theorem State.enterHandler_eq_pushWord (b : Bool) (vec : Word) :
    s.enterHandler b vec = ((s.pushWord s.pc).push (s.p.image b)).loadVector vec := rfl

theorem State.pushWord_eq : s.pushWord w = { s with sp := s.sp - 2, bus := (s.pushWord w).bus } := by
  rw [State.pushWord, State.push_eq, State.push_eq, ← byte_sub_one_sub_one]

theorem State.pullWord_snd : s.pullWord.2 = { s with sp := s.sp + 2, bus := s.pullWord.2.bus } := by
  rw [State.pullWord, State.pull_snd, State.pull_snd, ← byte_add_one_add_one]

theorem State.pushWord_sp : (s.pushWord w).sp = s.sp - 2 := byte_sub_one_sub_one s.sp

@[simp] theorem State.pushWord_pc : (s.pushWord w).pc = s.pc := rfl

@[simp] theorem State.pushWord_accesses :
    (s.pushWord w).bus.accesses = s.bus.accesses ++ [(.write, stackAddr s.sp), (.write, stackAddr (s.sp - 1))] := by
  simp [State.pushWord]

@[simp] theorem State.pullWord_accesses :
    s.pullWord.2.bus.accesses =
      s.bus.accesses ++ [(.read, stackAddr (s.sp + 1)), (.read, stackAddr (s.sp + 2))] := by
  rw [State.pullWord, State.pull_accesses, State.pull_accesses, State.pull_sp, byte_add_one_add_one, List.append_assoc]
  rfl

theorem State.pushWord_storesOnlyTo :
    s.bus.StoresOnlyTo (s.pushWord w).bus [stackAddr s.sp, stackAddr (s.sp - 1)] :=
  (State.push_storesOnlyTo s _).trans (State.push_storesOnlyTo _ _)

theorem State.pullWord_readOnly : s.bus.ReadOnly s.pullWord.2.bus :=
  (State.pull_readOnly s).trans (State.pull_readOnly _)

/-- The pushed word stands in the stack, its low byte at the lower address. -/
theorem State.pushWord_peek (h : s.bus.mem.wf = true) :
    (s.pushWord w).bus.peek (stackAddr s.sp) = some (hiByte w) ∧
      (s.pushWord w).bus.peek (stackAddr (s.sp - 1)) = some (loByte w) := by
  constructor
  · rw [State.pushWord, State.push_peek_of_ne _ _ (byte_sub_one_ne s.sp), State.push_peek s _ h]
  · exact State.push_peek (s.push (hiByte w)) _ (State.push_wf s _ h)

/-- The word pulled is the one that the two bytes above the stack pointer hold. -/
theorem State.peek_pullWord :
    s.bus.peek (stackAddr (s.sp + 1)) = some (loByte s.pullWord.1) ∧
      s.bus.peek (stackAddr (s.sp + 2)) = some (hiByte s.pullWord.1) := by
  constructor
  · rw [State.pullWord, loByte_mkWord, State.peek_pull]
  · rw [State.pullWord, hiByte_mkWord, ← State.peek_pull, State.pull_sp, byte_add_one_add_one,
      (State.pull_readOnly s).peek]

/-- The four accesses of a return from an interrupt. -/
@[simp] theorem State.returnFromInterrupt_accesses :
    s.returnFromInterrupt.bus.accesses = s.bus.accesses ++
      [(.read, stackAddr s.sp), (.read, stackAddr (s.sp + 1)), (.read, stackAddr (s.sp + 2)),
       (.read, stackAddr (s.sp + 3))] := by
  rw [State.returnFromInterrupt_eq_pullWord, State.setPc_bus, State.setP_bus, State.pullWord_accesses,
    State.pull_accesses, State.dummyStack_accesses, State.pull_sp, State.dummyStack_sp, byte_add_one_add_one,
    byte_add_one_add_two, List.append_assoc, List.append_assoc]
  rfl
end

/-! ### Subroutines and the return from an interrupt (R124 to R126) -/

/-- Settles O48: the dummy read of the stack, the pushed return address, and the fetch that follows it. -/
theorem jsrPushesTheReturnAddress : Obligations.JsrPushesTheReturnAddress := by
  intro operand s
  have hdummy := State.dummyStack_readOnly s
  have hfetch := State.fetch_readOnly (s.dummyStack.pushWord s.pc)
  have hpush := (State.pushWord_storesOnlyTo s.dummyStack s.pc).trans (.of_readOnly hfetch [])
  refine ⟨(s.dummyStack.pushWord s.pc).fetch.1, (s.dummyStack.pushWord s.pc).fetch.2.bus, ?_, ?_,
    (Bus.StoresOnlyTo.of_readOnly hdummy []).trans hpush, fun hwf => ?_, fun v hv => ?_⟩
  · rw [exec, execJsr_eq_pushWord, State.pushWord_eq]
    rfl
  · simp
  · rw [hfetch.peek, hfetch.peek]
    exact State.pushWord_peek s.dummyStack s.pc (by rw [hdummy.mem, hwf])
  · exact State.fetch_fst_of_peek _ v (by rw [← hfetch.peek]; exact hv)

/-- Settles O49: the dummy reads, the pulled return address, and the read of the byte before the one RTS goes to. -/
theorem rtsReturnsPastTheAddress : Obligations.RtsReturnsPastTheAddress := by
  intro s
  have hdummy := (State.implied_readOnly s).trans (State.dummyStack_readOnly _)
  have hpull := hdummy.trans (State.pullWord_readOnly _)
  have hpeek := State.peek_pullWord s.implied.dummyStack
  rw [hdummy.peek, hdummy.peek] at hpeek
  refine ⟨s.implied.dummyStack.pullWord.1, (s.implied.dummyStack.pullWord.2.dummyRead _).bus, ?_,
    hpull.trans (State.dummyRead_readOnly _ s.implied.dummyStack.pullWord.1), ?_, hpeek⟩
  · rw [exec, execRts_eq_pullWord, State.pullWord_snd]
    rfl
  · simp

/-- Settles O50: after the dummy reads a byte is pulled for P and then the word for pc. -/
theorem rtiRestoresFlagsAndCounter : Obligations.RtiRestoresFlagsAndCounter := by
  intro s
  have hdummy := (State.implied_readOnly s).trans (State.dummyStack_readOnly _)
  have hpull := hdummy.trans (State.pull_readOnly _)
  have hflags := State.peek_pull s.implied.dummyStack
  have hword := State.peek_pullWord s.implied.dummyStack.pull.2
  rw [hdummy.peek] at hflags
  rw [hpull.peek, hpull.peek, State.pull_sp, byte_add_one_add_one, byte_add_one_add_two] at hword
  refine ⟨s.implied.dummyStack.pull.2.pullWord.1, s.implied.dummyStack.pull.1, s.implied.returnFromInterrupt.bus, ?_,
    (State.implied_readOnly s).trans (State.returnFromInterrupt_readOnly _), ?_, hflags, hword⟩
  · rw [exec, execRti, State.returnFromInterrupt_eq_pullWord, State.pullWord_snd, ← byte_add_one_add_two s.sp]
    rfl
  · simp

/-- Settles O52: by O48 the two bytes are those of JSR's pc, and by O49 RTS goes one past the word they hold. -/
theorem rtsUndoesJsr : Obligations.RtsUndoesJsr := by
  intro operand s t u hinv hjsr hsp hhigh hlow
  obtain ⟨hi, bus, hexec, _, _, hstack, _⟩ := jsrPushesTheReturnAddress operand s
  obtain ⟨target, bus', hrts, _, _, hlo, hhi⟩ := rtsReturnsPastTheAddress u
  cases hexec.symm.trans hjsr
  obtain ⟨hretHigh, hretLow⟩ := hstack hinv.1
  have hu : u.sp = s.sp - 2 := hsp
  rw [hu, byte_sub_two_add_one, hlow, hretLow, Option.some.injEq] at hlo
  rw [hu, BitVec.sub_add_cancel, hhigh, hretHigh, Option.some.injEq] at hhi
  have htarget : target = s.pc := by rw [← mkWord_hiByte_loByte target, ← hhi, ← hlo, mkWord_hiByte_loByte]
  exact ⟨_, hrts, congrArg (· + 1) htarget, by rw [hu, BitVec.sub_add_cancel]⟩

/-! ### Entering a handler (R127, R150) -/

/-- What lies outside internal RAM shares no byte with the stack (R41). -/
theorem sharesStorage_stackAddr_of_not_ram (q : Byte) {a : Word} (h : region a ≠ .ram) :
    sharesStorage (stackAddr q) a = false := by
  simp [sharesStorage, h]

/-- Where the vector is plain memory, pc is the word it holds. -/
theorem State.loadVector_pc_of_peek {s : State} {vec : Word} {lo hi : Byte} (hlo : s.bus.peek vec = some lo)
    (hhi : s.bus.peek (vec + 1) = some hi) : (s.loadVector vec).pc = mkWord hi lo := by
  have hhi' := ((State.read_readOnly (s.setP { s.p with i := true }) vec).peek _).trans hhi
  exact congrArg₂ mkWord (State.read_fst_of_peek _ _ _ hhi') (State.read_fst_of_peek (s.setP _) _ _ hlo)

/-- A vector outside internal RAM is read as it stood before the pushes. -/
theorem State.enterHandler_pc_of_peek {s : State} {vec : Word} {lo hi : Byte} (b : Bool) (hvec : region vec ≠ .ram)
    (hvec' : region (vec + 1) ≠ .ram) (hlo : s.bus.peek vec = some lo) (hhi : s.bus.peek (vec + 1) = some hi) :
    (s.enterHandler b vec).pc = mkWord hi lo := by
  have hstores := (State.pushWord_storesOnlyTo s s.pc).trans (State.push_storesOnlyTo _ (s.p.image b))
  have hkept : ∀ {a : Word}, region a ≠ .ram →
      ((s.pushWord s.pc).push (s.p.image b)).bus.peek a = s.bus.peek a := fun h =>
    hstores.peek _ (by simp [sharesStorage_stackAddr_of_not_ram _ h])
  exact State.loadVector_pc_of_peek ((hkept hvec).trans hlo) ((hkept hvec').trans hhi)

section
variable (s : State) (b : Bool) (vec : Word)

/-- The three bytes that an entry pushes, as they stand in the stack after it. -/
theorem State.enterHandler_peek (h : s.bus.mem.wf = true) :
    (s.enterHandler b vec).bus.peek (stackAddr s.sp) = some (hiByte s.pc) ∧
      (s.enterHandler b vec).bus.peek (stackAddr (s.sp - 1)) = some (loByte s.pc) ∧
      (s.enterHandler b vec).bus.peek (stackAddr (s.sp - 2)) = some (s.p.image b) := by
  have hsp := State.pushWord_sp s s.pc
  have hwf : (s.pushWord s.pc).bus.mem.wf = true := State.push_wf _ _ (State.push_wf s _ h)
  have hread := State.loadVector_readOnly ((s.pushWord s.pc).push (s.p.image b)) vec
  have hkept : ∀ q, s.sp - 2 ≠ q →
      ((s.pushWord s.pc).push (s.p.image b)).bus.peek (stackAddr q) = (s.pushWord s.pc).bus.peek (stackAddr q) :=
    fun q hq => State.push_peek_of_ne _ _ (hsp ▸ hq)
  obtain ⟨hhigh, hlow⟩ := State.pushWord_peek s s.pc h
  rw [State.enterHandler_eq_pushWord, hread.peek, hread.peek, hread.peek, hkept _ (byte_sub_two_ne s.sp),
    hkept _ (byte_sub_two_ne_sub_one s.sp)]
  exact ⟨hhigh, hlow, hsp ▸ State.push_peek (s.pushWord s.pc) _ hwf⟩

/-- An entry stores to the three stack bytes alone. -/
theorem State.enterHandler_storesOnlyTo_stack :
    s.bus.StoresOnlyTo (s.enterHandler b vec).bus [stackAddr s.sp, stackAddr (s.sp - 1), stackAddr (s.sp - 2)] :=
  byte_sub_one_sub_one s.sp ▸ State.enterHandler_storesOnlyTo s b vec

/-- What an entry through a vector outside internal RAM does, whole. -/
theorem State.enterHandler_entered (h : s.bus.mem.wf = true) (hvec : region vec ≠ .ram)
    (hvec' : region (vec + 1) ≠ .ram) : Entered s (s.enterHandler b vec) s.pc (s.p.image b) vec := by
  obtain ⟨hhigh, hlow, himage⟩ := State.enterHandler_peek s b vec h
  have hframe := State.enterHandler_eq s b vec
  have hstores := State.enterHandler_storesOnlyTo_stack s b vec
  exact
    { high := hhigh
      low := hlow
      p := himage
      sp := by rw [hframe, byte_sub_one_sub_one_sub_one]
      flags := by rw [hframe]
      pc := fun _ _ => State.enterHandler_pc_of_peek b hvec hvec'
      regs := by rw [hframe]; exact ⟨rfl, rfl, rfl⟩
      frame := fun a h1 h2 h3 => hstores.peek a
        (List.forall_mem_cons.2 ⟨h1, List.forall_mem_cons.2 ⟨h2, List.forall_mem_singleton.2 h3⟩⟩) }
end

/-- Reads before an entry, and what pc held then, do not matter to it. -/
theorem Entered.of_readOnly {s u t : State} {ret : Word} {image : Byte} {vec : Word} (h : Entered u t ret image vec)
    (hbus : s.bus.ReadOnly u.bus) (hsp : u.sp = s.sp) (hp : u.p = s.p) (hregs : u.a = s.a ∧ u.x = s.x ∧ u.y = s.y) :
    Entered s t ret image vec := by
  obtain ⟨hhigh, hlow, himage, hspAfter, hflags, hpc, hregsAfter, hframe⟩ := h
  simp only [hsp, hp, hregs, hbus.peek] at hhigh hlow himage hspAfter hflags hpc hregsAfter hframe
  exact ⟨hhigh, hlow, himage, hspAfter, hflags, hpc, hregsAfter, hframe⟩

/-- Settles O51: the padding read, and the entry of the handler from the byte after it. -/
theorem brkEntersTheIrqVector : Obligations.BrkEntersTheIrqVector := by
  intro s
  have hread : s.bus.ReadOnly (s.implied.setPc (s.pc + 1)).bus := State.implied_readOnly s
  have hframe := State.enterHandler_eq (s.implied.setPc (s.pc + 1)) true irqVector
  refine ⟨_, rfl, ?_, ?_, fun hinv => ?_, ?_⟩
  · rw [State.enterHandler_accesses, byte_sub_one_sub_one, State.setPc_bus, State.implied_accesses, List.append_assoc]
    rfl
  · exact (Bus.StoresOnlyTo.of_readOnly hread []).trans (State.enterHandler_storesOnlyTo_stack _ true irqVector)
  · have hentered := State.enterHandler_entered (s.implied.setPc (s.pc + 1)) true irqVector (by rw [hread.mem, hinv.1])
      (by decide) (by decide)
    exact hentered.of_readOnly hread rfl rfl ⟨rfl, rfl, rfl⟩
  · rw [hframe, byte_sub_one_sub_one_sub_one]
    rfl

end Sys2Proof.Machine

/-! ## Proofs: the stack, the flags, NOP and the illegal instruction (spec/45_stack_flags_misc.md)

A push is told by the byte it stores below S and a pull by the byte that stands above S; a step that fetches an opcode
without operands executes its instruction right after that one fetch. -/

namespace Sys2Proof.Machine

/-! ### Pushes and pulls (R129 to R132) -/

@[simp] theorem State.implied_cycle (s : State) : s.implied.bus.cycle = s.bus.cycle + 1 := State.dummyRead_cycle s s.pc

@[simp] theorem State.fetch_cycle (s : State) : s.fetch.2.bus.cycle = s.bus.cycle + 1 := State.read_cycle s s.pc

/-- R15: the stack bytes are 0x0100 to 0x01FF. -/
theorem stackAddr_eq_ofNat (q : Byte) : stackAddr q = BitVec.ofNat 16 (256 + q.toNat) := by
  apply BitVec.eq_of_toNat_eq
  have := q.isLt
  rw [stackAddr, mkWord_toNat, BitVec.toNat_ofNat]
  simp only [BitVec.reduceToNat]
  omega

/-- The byte of stack above S, its wrap told on numbers. -/
theorem stackAddr_add_one_eq_ofNat (q : Byte) : stackAddr (q + 1) = BitVec.ofNat 16 (256 + (q.toNat + 1) % 256) := by
  rw [stackAddr_eq_ofNat, byte_add_one_toNat]

/-- The event that a push records. -/
theorem State.push_history (s : State) (v : Byte) :
    (s.push v).bus.history = ⟨.write, stackAddr s.sp, v, s.bus.stepNo, s.bus.cycle + 1⟩ :: s.bus.history :=
  State.write_history s (stackAddr s.sp) v

/-- Settles O54: each is its dummy read followed by the push of its byte. -/
theorem pushesWriteBelowS : Obligations.PushesWriteBelowS := by
  refine ⟨decode_encode (i := .pha) rfl [], decode_encode (i := .php) rfl [], fun i s v h => ?_⟩
  have hexec : exec i s = .next (s.implied.push v) := by
    simp only [List.mem_cons, Prod.mk.injEq, List.not_mem_nil, or_false] at h
    obtain ⟨rfl, rfl⟩ | ⟨rfl, rfl⟩ := h <;> rfl
  have hread := State.implied_readOnly s
  refine ⟨(s.implied.push v).bus, hexec, ?_, ?_,
    (Bus.StoresOnlyTo.of_readOnly hread []).trans (State.push_storesOnlyTo s.implied v), fun hwf => ?_⟩
  · rw [State.push_accesses, State.implied_accesses, List.append_assoc]
    rfl
  · rw [State.push_history, hread.stepNo, State.implied_cycle]
    rfl
  · rw [← stackAddr_eq_ofNat]
    exact State.push_peek s.implied v (by rw [hread.mem, hwf])

/-- Settles O55: each is its two dummy reads followed by a pull, and what it does with the byte pulled. -/
theorem pullsReadAboveS : Obligations.PullsReadAboveS := by
  refine ⟨decode_encode (i := .pla) rfl [], decode_encode (i := .plp) rfl [], fun s => ?_⟩
  have hdummy := (State.implied_readOnly s).trans (State.dummyStack_readOnly _)
  refine ⟨s.implied.dummyStack.pull.1, s.implied.dummyStack.pull.2.bus, ?_, hdummy.trans (State.pull_readOnly _), ?_,
    ?_, rfl⟩
  · rw [← stackAddr_add_one_eq_ofNat, ← hdummy.peek]
    exact State.peek_pull s.implied.dummyStack
  · rw [State.pull_accesses, State.dummyStack_accesses, State.implied_accesses, List.append_assoc, List.append_assoc]
    rfl
  · rw [← Flags.setNZ_eq_withNZ]
    rfl

/-- After PHA or PHP, with S and the pushed byte as they were left, a pull takes S back and finds that byte. -/
theorem peek_above_of_push {i : Instr} {v : Byte} {s t u : State}
    (h : (i, v) ∈ [(Instr.pha, s.a), (.php, s.p.image true)]) (hinv : s.Inv) (hexec : exec i s = .next t)
    (hsp : u.sp = t.sp) (hkept : u.bus.peek (stackAddr s.sp) = t.bus.peek (stackAddr s.sp)) :
    u.sp + 1 = s.sp ∧ u.bus.peek (BitVec.ofNat 16 (256 + (u.sp.toNat + 1) % 256)) = some v := by
  obtain ⟨_, _, hpush⟩ := pushesWriteBelowS
  obtain ⟨bus, hnext, _, _, _, hbyte⟩ := hpush i s v h
  cases hnext.symm.trans hexec
  have habove : u.sp + 1 = s.sp := by rw [hsp, BitVec.sub_add_cancel]
  rw [← stackAddr_add_one_eq_ofNat, habove, hkept, stackAddr_eq_ofNat]
  exact ⟨rfl, hbyte hinv.1⟩

/-- Settles O56: by O54 the byte that O55 pulls is the one that was pushed; the image of P loads back as P. -/
theorem pullUndoesPush : Obligations.PullUndoesPush := by
  obtain ⟨_, _, hpull⟩ := pullsReadAboveS
  constructor <;> intro s t u hinv hpush hsp hkept <;> obtain ⟨v, bus, hv, _, _, hpla, hplp⟩ := hpull u
  · obtain ⟨habove, hbyte⟩ := peek_above_of_push (.head _) hinv hpush hsp hkept
    exact ⟨_, hpla, Option.some.inj (hv.symm.trans hbyte), habove⟩
  · obtain ⟨habove, hbyte⟩ := peek_above_of_push (.tail _ (.head _)) hinv hpush hsp hkept
    obtain rfl := Option.some.inj (hv.symm.trans hbyte)
    exact ⟨_, hplp, Flags.ofByte_image s.p true, habove⟩

/-! ### Flag operations (R133 to R139) -/

/-- Settles O58: the seven differ in the flag they write, and each is its dummy read followed by that write. -/
theorem flagOperationsWriteOneFlag : Obligations.FlagOperationsWriteOneFlag := by
  intro i op f h
  have hflag : i.wf = true ∧ encode i ++ [] = [op] ∧ ∀ s, exec i s = .next (s.implied.setP (f s.p)) := by
    simp only [List.mem_cons, Prod.mk.injEq, List.not_mem_nil, or_false] at h
    obtain ⟨rfl, rfl, rfl⟩ | ⟨rfl, rfl, rfl⟩ | ⟨rfl, rfl, rfl⟩ | ⟨rfl, rfl, rfl⟩ | ⟨rfl, rfl, rfl⟩ | ⟨rfl, rfl, rfl⟩ |
      ⟨rfl, rfl, rfl⟩ := h <;> exact ⟨rfl, rfl, fun _ => rfl⟩
  obtain ⟨hwf, hencode, hexec⟩ := hflag
  exact ⟨hencode ▸ decode_encode hwf [], fun s => ⟨s.implied.bus, hexec s, State.implied_impliedRead s⟩⟩

/-! ### Steps of one opcode byte (R53, R67) -/

/-- An opcode of format F1 is fetched alone, and is all that the decoder is shown. -/
theorem State.fetchInstr_of_noArg {s : State} {i : Instr} (h : opcodeEntry s.fetch.1 = noArg i) :
    s.fetchInstr = ([s.fetch.1], s.fetch.2) := by
  have hjsr : s.fetch.1 ≠ jsrOpcode := fun e => by
    have hnone : opcodeEntry jsrOpcode [] = none := rfl
    rw [← e, h] at hnone
    cases hnone
  have hcount : prefetchCount s.fetch.1 = 0 := by
    rw [prefetchCount, if_neg hjsr, operandCount, h]
    rfl
  rw [State.fetchInstr, hcount, State.fetchBytes, State.lookahead, if_neg hjsr]
  rfl

/-- A step that nothing interrupts and that fetches such an opcode executes its instruction after that one fetch. -/
theorem step_of_noArg {s : State} {i : Instr} (hun : s.Uninterrupted)
    (h : opcodeEntry s.boundary.fetch.1 = noArg i) : step s = finishResult (exec i s.boundary.fetch.2) := by
  have hdecode : decode [s.boundary.fetch.1] = some (i, []) := congrFun h []
  rw [step, (State.action_eq_instruction_iff s).2 hun]
  simp only [runInstruction, State.fetchInstr_of_noArg h, hdecode]

/-! ### The end of a step that stored nothing -/

section
variable (s : State)
@[simp] theorem State.finish_a : s.finish.a = s.a := by rw [State.finish_eq]
@[simp] theorem State.finish_x : s.finish.x = s.x := by rw [State.finish_eq]
@[simp] theorem State.finish_y : s.finish.y = s.y := by rw [State.finish_eq]
@[simp] theorem State.finish_sp : s.finish.sp = s.sp := by rw [State.finish_eq]
@[simp] theorem State.finish_pc : s.finish.pc = s.pc := by rw [State.finish_eq]
@[simp] theorem State.finish_p : s.finish.p = s.p := by rw [State.finish_eq]
@[simp] theorem State.finish_halted : s.finish.halted = s.halted := by rw [State.finish_eq]
end

/-- After accesses that stored nothing no copy is made: the end of the step counts them, and every byte is as before. -/
theorem State.finish_of_boundary_readOnly {s u : State} (h : s.boundary.bus.ReadOnly u.bus) :
    u.finish.stepCycles = u.bus.cycle ∧ u.finish.bus.accesses = u.bus.accesses ∧
      ∀ a, u.finish.bus.peek a = s.bus.peek a := by
  have hpages : u.bus.oamPages = [] := h.oamPages.trans (State.boundary_oamPages s)
  refine ⟨?_, State.finish_accesses_of_no_copy u hpages, fun a => ?_⟩
  · rw [State.finish_of_no_copy u hpages]
  · rw [State.finish_peek, h.peek, State.boundary_peek]

/-! ### NOP (R140) -/

/-- Settles O59: the step of NOP is its opcode fetch and its dummy read. -/
theorem nopOnlyReads : Obligations.NopOnlyReads := by
  refine ⟨decode_encode (i := .nop) rfl [], fun s => ⟨s.implied.bus, rfl, State.implied_impliedRead s⟩,
    fun s hun hop => ?_⟩
  have hstep := step_of_noArg (i := .nop) hun (by rw [hop]; rfl)
  obtain ⟨hcycles, haccesses, hpeek⟩ := State.finish_of_boundary_readOnly (u := s.boundary.fetch.2.implied)
    ((State.fetch_readOnly s.boundary).trans (State.implied_readOnly _))
  refine ⟨s.boundary.fetch.2.implied.finish, hstep, by simp, ?_, ?_, by simp, by simp, by simp, by simp, by simp, hpeek⟩
  · rw [hcycles, State.implied_cycle, State.fetch_cycle, State.boundary_cycle]
  · rw [haccesses, State.implied_accesses, State.fetch_accesses, State.boundary_accesses, State.fetch_pc,
      State.boundary_pc, List.append_assoc]
    rfl

/-! ### The illegal instruction (R141, R157) -/

section
variable (s : State) (addr : Word) (op : Byte)
@[simp] theorem State.halt_a : (s.halt addr op).a = s.a := rfl
@[simp] theorem State.halt_x : (s.halt addr op).x = s.x := rfl
@[simp] theorem State.halt_y : (s.halt addr op).y = s.y := rfl
@[simp] theorem State.halt_sp : (s.halt addr op).sp = s.sp := rfl
@[simp] theorem State.halt_pc : (s.halt addr op).pc = addr := rfl
@[simp] theorem State.halt_p : (s.halt addr op).p = s.p := rfl
@[simp] theorem State.halt_halted : (s.halt addr op).halted = some ⟨addr, op⟩ := rfl
@[simp] theorem State.halt_bus : (s.halt addr op).bus = s.bus := rfl
end

/-- R157: a halted core has no step. -/
theorem step_of_halted {s : State} {r : FaultRecord} (h : s.halted = some r) :
    step s = .fault (.illegalOpcode r.addr r.opcode) := by
  have haction : s.boundary.action = .halted r := by rw [State.action, State.boundary_halted, h]
  rw [step, haction]

section
variable {M : Host.Core} {n : Nat} {s t : M.State}

theorem run_succ_of_next (h : M.step s = .next t) : M.run (n + 1) s = M.run n t := by
  rw [Host.Core.run, h]

theorem run_succ_of_fault {r : M.Fault} (h : M.step s = .fault r) : M.run (n + 1) s = .fault r := by
  rw [Host.Core.run, h]
end

/-- A run through a step that halts the core ends in the halted state or meets its fault (log 12). -/
theorem not_safeFor_of_step_halted {s t : State} {r : FaultRecord} (hstep : step s = .next t)
    (hhalted : t.halted = some r) (n : Nat) : ¬SafeFor (n + 1) s := by
  rintro ⟨w, hrun, hw⟩
  have hrest := (run_succ_of_next (M := core) hstep).symm.trans hrun
  cases n with
  | zero =>
    cases hrest
    cases hhalted.symm.trans hw
  | succ n => cases (run_succ_of_fault (M := core) (step_of_halted hhalted)).symm.trans hrest

/-- Settles O60: the step of an undocumented opcode is its fetch, and halts the core at it. -/
theorem undocumentedOpcodeHaltsTheCore : Obligations.UndocumentedOpcodeHaltsTheCore := by
  refine ⟨fun op s => ⟨s.pc - 1, BitVec.sub_add_cancel s.pc 1, rfl⟩, fun op rest h => decode_undocumented h rest, ?_⟩
  rintro s op hop hun rfl
  have hstep := step_of_noArg hun (opcodeEntry_undocumented _ hop)
  rw [exec, execIllegal, State.fetch_pc, State.boundary_pc, BitVec.add_sub_cancel] at hstep
  obtain ⟨hcycles, haccesses, hpeek⟩ := State.finish_of_boundary_readOnly
    (u := s.boundary.fetch.2.halt s.pc s.boundary.fetch.1) (State.fetch_readOnly s.boundary)
  have hhalted : (s.boundary.fetch.2.halt s.pc s.boundary.fetch.1).finish.halted = some ⟨s.pc, s.boundary.fetch.1⟩ := by
    simp
  refine ⟨_, hstep, by simp, hhalted, ?_, ?_, by simp, by simp, by simp, by simp,
    by simp, hpeek, step_of_halted hhalted, not_safeFor_of_step_halted hstep hhalted⟩
  · rw [hcycles, State.halt_bus, State.fetch_cycle, State.boundary_cycle]
  · rw [haccesses, State.halt_bus, State.fetch_accesses, State.boundary_accesses, State.boundary_pc]

end Sys2Proof.Machine

/-! ## Proofs: exceptions (spec/60_exceptions.md)

The choice of R144 in a core that is not halted; the step that takes an interrupt, told by the entry of its handler; the
return from a handler, told by the three bytes that its entry pushed. -/

namespace Sys2Proof.Machine

/-! ### The choice of R144 -/

theorem State.action_of_halted {s : State} {r : FaultRecord} (h : s.halted = some r) :
    s.boundary.action = .halted r := by
  rw [State.action, State.boundary_halted, h]

/-- In a core that is not halted, a reset comes first, then an NMI, then an IRQ that I does not mask. -/
theorem State.action_of_running {s : State} (h : s.halted = none) :
    s.boundary.action =
      if s.boundary.resetPending then .reset
      else if s.boundary.nmiPending then .nmi
      else if !s.p.i && s.boundary.irqLine then .irq
      else .instruction := by
  rw [State.action, State.boundary_halted, h, State.boundary_p]

/-- R155: with I = 1 no IRQ is taken. -/
theorem State.action_ne_irq {s : State} (h : s.p.i = true) : s.boundary.action ≠ .irq := by
  cases hs : s.halted with
  | some r => simp [State.action_of_halted hs]
  | none =>
    rw [State.action_of_running hs, h, Bool.not_true, Bool.false_and, if_neg Bool.false_ne_true]
    split_ifs <;> nofun

/-! ### Completion (R142, R157) -/

/-- Every instruction answers a next state. -/
theorem exists_next_of_exec (i : Instr) (s : State) : ∃ t, exec i s = .next t := by
  cases i
  case jmp m => cases m <;> exact ⟨_, rfl⟩
  all_goals exact ⟨_, rfl⟩

/-- Every step of a core that is not halted answers a next state. -/
theorem exists_next_of_step {s : State} (h : s.halted = none) : ∃ t, step s = .next t := by
  rcases step_cases s with ⟨r, haction, _⟩ | ⟨_, e⟩ | ⟨_, e⟩ | ⟨_, e⟩ | ⟨_, i, _, e⟩
  · rw [State.action_of_running h] at haction
    split_ifs at haction
  · exact ⟨_, e⟩
  · exact ⟨_, e⟩
  · exact ⟨_, e⟩
  · obtain ⟨u, hu⟩ := exists_next_of_exec i s.boundary.fetchInstr.2
    exact ⟨u.finish, by rw [e, hu, finishResult]⟩

/-- Settles O7: a halted core's step is the fault of its record, and every other step a next state. -/
theorem everyStepOfARunningCoreCompletes : Obligations.EveryStepOfARunningCoreCompletes := by
  refine ⟨exists_next_of_exec, fun s => exists_next_of_step, fun s r hr => ?_⟩
  cases hs : s.halted with
  | some record => cases (step_of_halted hs).symm.trans hr
  | none =>
    obtain ⟨t, ht⟩ := exists_next_of_step hs
    cases ht.symm.trans hr

/-- Settles O8: the illegal instruction records the address before pc, and a halted core's step is the fault. -/
theorem haltedCoreHasNoStep : Obligations.HaltedCoreHasNoStep := by
  refine ⟨fun op s k hk => ⟨s.halt (s.pc - 1) op, rfl, ?_⟩, fun s r h => step_of_halted h⟩
  rw [State.halt_halted, hk, BitVec.add_sub_cancel]

/-! ### The interrupt entry (R150) -/

section
variable (s : State) (vec : Word)

theorem State.interruptEntry_accesses :
    (s.interruptEntry vec).bus.accesses = s.bus.accesses ++
      [(.read, s.pc), (.read, s.pc), (.write, stackAddr s.sp), (.write, stackAddr (s.sp - 1)),
       (.write, stackAddr (s.sp - 2)), (.read, vec), (.read, vec + 1)] := by
  rw [State.interruptEntry, State.enterHandler_accesses, byte_sub_one_sub_one]
  simp

theorem State.interruptEntry_cycle : (s.interruptEntry vec).bus.cycle = s.bus.cycle + 7 := by
  simp [State.interruptEntry, State.enterHandler]

/-- An entry stores to the three stack bytes alone: its discarded fetches store nothing. -/
theorem State.interruptEntry_storesOnlyTo :
    s.bus.StoresOnlyTo (s.interruptEntry vec).bus [stackAddr s.sp, stackAddr (s.sp - 1), stackAddr (s.sp - 2)] :=
  (Bus.StoresOnlyTo.of_readOnly ((State.dummyRead_readOnly s s.pc).trans (State.dummyRead_readOnly _ s.pc)) []).trans
    (State.enterHandler_storesOnlyTo_stack _ false vec)

theorem State.interruptEntry_entered (h : s.bus.mem.wf = true) (hvec : region vec ≠ .ram)
    (hvec' : region (vec + 1) ≠ .ram) : Entered s (s.interruptEntry vec) s.pc (s.p.image false) vec := by
  have hread := (State.dummyRead_readOnly s s.pc).trans (State.dummyRead_readOnly _ s.pc)
  have hentered := State.enterHandler_entered ((s.dummyRead s.pc).dummyRead s.pc) false vec (by rw [hread.mem, h])
    hvec hvec'
  exact hentered.of_readOnly hread rfl rfl ⟨rfl, rfl, rfl⟩

/-- The end of a step that began with its counters at 0 and entered an interrupt: seven cycles, and no copy. -/
theorem State.interruptEntry_finish (hcycle : s.bus.cycle = 0) (hpages : s.bus.oamPages = []) :
    (s.interruptEntry vec).finish =
      { s with
        sp := s.sp - 3, p := { s.p with i := true }, pc := (s.interruptEntry vec).pc
        cyclesTotal := s.cyclesTotal + 7, stepCycles := 7
        bus := { (s.interruptEntry vec).bus with
          stepNo := (s.interruptEntry vec).bus.stepNo + 1, cycle := 0, oamPages := [] } } := by
  have hkept : (s.interruptEntry vec).bus.oamPages = [] := by
    rw [(State.interruptEntry_storesOnlyTo s vec).oamPages (by simp), hpages]
  rw [State.finish_of_no_copy _ hkept, State.interruptEntry_cycle, hcycle, State.interruptEntry_eq,
    byte_sub_one_sub_one_sub_one]
end

/-! ### The step that takes an interrupt (R148, R149) -/

theorem State.boundary_strobe (s : State) : s.boundary.bus.strobe = s.bus.strobe := by rw [State.boundary_frame]

/-- The step boundary, with the NMI latch as an interrupt entry finds it. -/
def State.atEntry (s : State) (nmi : Bool) : State := { s.boundary with nmiPending := nmi }

section
variable (s : State) (nmi : Bool)
@[simp] theorem State.atEntry_a : (s.atEntry nmi).a = s.a := State.boundary_a s
@[simp] theorem State.atEntry_x : (s.atEntry nmi).x = s.x := State.boundary_x s
@[simp] theorem State.atEntry_y : (s.atEntry nmi).y = s.y := State.boundary_y s
@[simp] theorem State.atEntry_sp : (s.atEntry nmi).sp = s.sp := State.boundary_sp s
@[simp] theorem State.atEntry_pc : (s.atEntry nmi).pc = s.pc := State.boundary_pc s
@[simp] theorem State.atEntry_p : (s.atEntry nmi).p = s.p := State.boundary_p s
@[simp] theorem State.atEntry_bus : (s.atEntry nmi).bus = s.boundary.bus := rfl
end

/-- An NMI clears its latch and enters through 0xFFFA (R149). -/
theorem step_of_nmi {s : State} (h : s.boundary.action = .nmi) :
    step s = .next ((s.atEntry false).interruptEntry nmiVector).finish := by
  rw [step, h]
  rfl

/-- An IRQ leaves the NMI latch and enters through 0xFFFE (R148). -/
theorem step_of_irq {s : State} (h : s.boundary.action = .irq) :
    step s = .next ((s.atEntry s.boundary.nmiPending).interruptEntry irqVector).finish := by
  rw [step, h]
  rfl

section
variable (s : State) (nmi : Bool) (vec : Word)

/-- The step that takes an interrupt enters its handler at the interrupted instruction, with B = 0. -/
theorem State.entered_interruptEntry_finish (hinv : s.Inv) (hvec : region vec ≠ .ram)
    (hvec' : region (vec + 1) ≠ .ram) :
    Entered s ((s.atEntry nmi).interruptEntry vec).finish s.pc (s.p.image false) vec := by
  have hwf : (s.atEntry nmi).bus.mem.wf = true := by rw [State.atEntry_bus, State.boundary_mem, hinv.1]
  obtain ⟨hhigh, hlow, himage, hsp, hflags, hpc, hregs, hframe⟩ :=
    State.interruptEntry_entered (s.atEntry nmi) vec hwf hvec hvec'
  simp only [State.atEntry_a, State.atEntry_x, State.atEntry_y, State.atEntry_sp, State.atEntry_pc, State.atEntry_p,
    State.atEntry_bus, State.boundary_peek] at hhigh hlow himage hsp hflags hpc hregs hframe
  have hend := State.finish_peek ((s.atEntry nmi).interruptEntry vec)
  exact
    { high := (hend _).trans hhigh
      low := (hend _).trans hlow
      p := (hend _).trans himage
      sp := (State.finish_sp _).trans hsp
      flags := (State.finish_p _).trans hflags
      pc := fun lo hi hlo hhi => (State.finish_pc _).trans (hpc lo hi hlo hhi)
      regs := by simpa using hregs
      frame := fun a h1 h2 h3 => (hend a).trans (hframe a h1 h2 h3) }

/-- The step that takes an interrupt keeps the latches, the IRQ line and the platform's registers, and counts its seven
accesses. -/
theorem State.interruptEntry_finish_frame {t : State} (ht : t = ((s.atEntry nmi).interruptEntry vec).finish) :
    t.nmiPending = nmi ∧ t.irqLine = s.boundary.irqLine ∧ t.resetPending = s.boundary.resetPending ∧
      t.halted = s.halted ∧ t.stepCycles = 7 ∧ t.bus.strobe = s.bus.strobe ∧
      t.bus.mapperWrites = s.bus.mapperWrites ∧ t.cyclesTotal = s.cyclesTotal + 7 ∧
      t.bus.accesses = s.bus.accesses ++
        [(.read, s.pc), (.read, s.pc), (.write, stackAddr s.sp), (.write, stackAddr (s.sp - 1)),
         (.write, stackAddr (s.sp - 2)), (.read, vec), (.read, vec + 1)] := by
  have hstores := State.interruptEntry_storesOnlyTo (s.atEntry nmi) vec
  have haccesses := State.interruptEntry_accesses (s.atEntry nmi) vec
  simp only [State.atEntry_pc, State.atEntry_sp, State.atEntry_bus, State.boundary_accesses] at haccesses
  rw [State.interruptEntry_finish (s.atEntry nmi) vec (State.boundary_cycle s) (State.boundary_oamPages s)] at ht
  subst ht
  refine ⟨rfl, rfl, rfl, State.boundary_halted s, rfl, ?_, ?_, congrArg (· + 7) (State.boundary_cyclesTotal s),
    haccesses⟩
  · exact (hstores.strobe (by simp)).trans (State.boundary_strobe s)
  · exact (hstores.mapperWrites (by simp)).trans (State.boundary_mapperWrites s)
end

/-- Settles O11: R144 chooses the NMI, whose entry goes through a vector in the cartridge. -/
theorem nmiEntersThroughItsVector : Obligations.NmiEntersThroughItsVector := by
  intro s hinv hhalted hreset hnmi
  have haction : s.boundary.action = .nmi := by simp [State.action_of_running hhalted, hreset, hnmi]
  have hframe := State.interruptEntry_finish_frame s false nmiVector rfl
  rw [hreset, hhalted] at hframe
  exact ⟨_, step_of_nmi haction, State.entered_interruptEntry_finish s false nmiVector hinv (by decide) (by decide),
    hframe⟩

/-- Settles O12: R144 chooses the IRQ, whose entry goes through a vector in the cartridge. -/
theorem irqEntersThroughItsVector : Obligations.IrqEntersThroughItsVector := by
  intro s hinv hhalted hreset hnmi hirq hi
  have haction : s.boundary.action = .irq := by simp [State.action_of_running hhalted, hreset, hnmi, hirq, hi]
  have hstep := step_of_irq haction
  have hframe := State.interruptEntry_finish_frame s false irqVector rfl
  rw [hnmi] at hstep
  rw [hreset, hhalted, hirq] at hframe
  exact ⟨_, hstep, State.entered_interruptEntry_finish s false irqVector hinv (by decide) (by decide), hframe⟩

/-! ### The mask (R155) -/

/-- Only the illegal instruction writes the fault record (R141). -/
theorem halted_of_exec {i : Instr} {s t : State} (hi : i.halts = false) (h : exec i s = .next t) :
    t.halted = s.halted := by
  rw [exec_eq_overwrite h, Instr.overwrite, hi]
  rfl

/-- Settles O13: R144 reads I as the instruction left it, for the end of the step does not write P. -/
theorem interruptMaskActsAtTheNextBoundary : Obligations.InterruptMaskActsAtTheNextBoundary := by
  have hhalts : ∀ i ∈ [Instr.cli, .sei, .plp, .rti], i.halts = false := by decide
  refine ⟨fun s => State.action_ne_irq, fun i hi s t hexec hhalted hreset hnmi hirq => ?_⟩
  have hrunning : t.finish.halted = none := by rw [State.finish_halted, halted_of_exec (hhalts i hi) hexec, hhalted]
  refine ⟨?cli, ?sei, fun hclear => ?irq, fun hset => ?instruction⟩
  case cli => rintro rfl; cases hexec; rfl
  case sei => rintro rfl; cases hexec; rfl
  case irq =>
    have haction : t.finish.boundary.action = .irq := by
      simp [State.action_of_running hrunning, hreset, hnmi, hirq, hclear]
    rw [step, haction]
  case instruction =>
    have haction : t.finish.boundary.action = .instruction := by
      simp [State.action_of_running hrunning, hreset, hnmi, hset]
    rw [step, haction]

/-! ### The return from a handler (R152) -/

theorem byte_sub_three_add_one (v : Byte) : v - 3 + 1 = v - 2 := by bv_omega

theorem byte_sub_three_add_two (v : Byte) : v - 3 + 2 = v - 1 := by bv_omega

/-- Where the three bytes that an entry pushed still stand above S, RTI takes back the flags and S of before it, and
goes to the return address pushed: O50 read on those bytes. -/
theorem Entered.rti {s t u : State} {ret : Word} {b : Bool} {vec : Word} (h : Entered s t ret (s.p.image b) vec)
    (hsp : u.sp = t.sp)
    (hkept : ∀ k ∈ [(0 : Byte), 1, 2], u.bus.peek (stackAddr (s.sp - k)) = t.bus.peek (stackAddr (s.sp - k))) :
    ∃ w, exec .rti u = .next w ∧ w.pc = ret ∧ w.p = s.p ∧ w.sp = s.sp := by
  obtain ⟨target, v, bus, hrti, _, _, hv, hlo, hhi⟩ := rtiRestoresFlagsAndCounter u
  obtain ⟨hkeptHigh, hkeptLow, hkeptP⟩ : u.bus.peek (stackAddr s.sp) = t.bus.peek (stackAddr s.sp) ∧
      u.bus.peek (stackAddr (s.sp - 1)) = t.bus.peek (stackAddr (s.sp - 1)) ∧
      u.bus.peek (stackAddr (s.sp - 2)) = t.bus.peek (stackAddr (s.sp - 2)) := by simpa using hkept
  have hu : u.sp = s.sp - 3 := hsp.trans h.sp
  rw [hu, byte_sub_three_add_one, hkeptP, h.p, Option.some.injEq] at hv
  rw [hu, byte_sub_three_add_two, hkeptLow, h.low, Option.some.injEq] at hlo
  rw [hu, BitVec.sub_add_cancel, hkeptHigh, h.high, Option.some.injEq] at hhi
  have htarget : target = ret := by rw [← mkWord_hiByte_loByte target, ← hhi, ← hlo, mkWord_hiByte_loByte]
  refine ⟨_, hrti, htarget, hv ▸ Flags.ofByte_image s.p b, ?_⟩
  rw [hu, BitVec.sub_add_cancel]

/-- A step that takes an interrupt enters its handler with the interrupted instruction as the return address. -/
theorem entered_of_step {s t : State} (hinv : s.Inv) (hstep : step s = .next t)
    (haction : s.boundary.action = .nmi ∨ s.boundary.action = .irq) :
    ∃ vec, Entered s t s.pc (s.p.image false) vec := by
  rcases haction with haction | haction
  · cases (step_of_nmi haction).symm.trans hstep
    exact ⟨nmiVector, State.entered_interruptEntry_finish s false nmiVector hinv (by decide) (by decide)⟩
  · cases (step_of_irq haction).symm.trans hstep
    exact ⟨irqVector, State.entered_interruptEntry_finish s _ irqVector hinv (by decide) (by decide)⟩

/-- Settles O53: BRK by O51, and the step that takes an NMI or IRQ, are entries of a handler, which RTI undoes. -/
theorem rtiUndoesAnEntry : Obligations.RtiUndoesAnEntry := by
  constructor
  · intro s t u hinv hbrk
    obtain ⟨t', hexec, _, _, hentered, _⟩ := brkEntersTheIrqVector s
    cases hexec.symm.trans hbrk
    exact (hentered hinv).rti
  · intro s t u hinv hstep haction
    obtain ⟨vec, hentered⟩ := entered_of_step hinv hstep haction
    exact hentered.rti

end Sys2Proof.Machine

/-! ## Proofs: reset and the cycle table (spec/70_reset_and_hazards.md)

The step that takes a reset, told by its seven reads; the cycle count of an instruction step, as the bytes fetched, the
accesses that its instruction makes in any case, and those of a page crossing or a taken branch. -/

namespace Sys2Proof.Machine

/-! ### The reset sequence (R168) -/

theorem State.resetStackCycle_accesses (s : State) :
    s.resetStackCycle.bus.accesses = s.bus.accesses ++ [(.read, stackAddr s.sp)] := State.dummyStack_accesses s

theorem State.resetStackCycle_cycle (s : State) : s.resetStackCycle.bus.cycle = s.bus.cycle + 1 :=
  State.dummyStack_cycle s

theorem State.resetStackCycle_readOnly (s : State) : s.bus.ReadOnly s.resetStackCycle.bus := State.dummyStack_readOnly s

/-- The state in which the reset sequence goes through its vector: after five of its reads. -/
def State.atResetVector (s : State) : State :=
  ((s.dummyRead s.pc).dummyRead s.pc).resetStackCycle.resetStackCycle.resetStackCycle

section
variable (s : State)

theorem State.resetSequence_bus : s.resetSequence.bus = (s.atResetVector.loadVector resetVector).bus := rfl

theorem State.resetSequence_pc : s.resetSequence.pc = (s.atResetVector.loadVector resetVector).pc := rfl

theorem State.atResetVector_readOnly : s.bus.ReadOnly s.atResetVector.bus :=
  have hfetches := (State.dummyRead_readOnly s s.pc).trans (State.dummyRead_readOnly _ s.pc)
  ((hfetches.trans (State.resetStackCycle_readOnly _)).trans (State.resetStackCycle_readOnly _)).trans
    (State.resetStackCycle_readOnly _)

theorem State.atResetVector_accesses :
    s.atResetVector.bus.accesses = s.bus.accesses ++
      [(.read, s.pc), (.read, s.pc), (.read, stackAddr s.sp), (.read, stackAddr (s.sp - 1)),
       (.read, stackAddr (s.sp - 2))] := by
  simp only [State.atResetVector, State.resetStackCycle_accesses, State.dummyRead_accesses, List.append_assoc]
  rw [← byte_sub_one_sub_one]
  rfl

theorem State.resetSequence_accesses :
    s.resetSequence.bus.accesses = s.bus.accesses ++
      [(.read, s.pc), (.read, s.pc), (.read, stackAddr s.sp), (.read, stackAddr (s.sp - 1)),
       (.read, stackAddr (s.sp - 2)), (.read, 0xFFFC), (.read, 0xFFFD)] := by
  rw [State.resetSequence_bus, State.loadVector_accesses, State.atResetVector_accesses, List.append_assoc]
  rfl

theorem State.resetSequence_cycle : s.resetSequence.bus.cycle = s.bus.cycle + 7 := by
  rw [State.resetSequence_bus, State.loadVector_cycle]
  simp only [State.atResetVector, State.resetStackCycle_cycle, State.dummyRead_cycle]

/-- Where the RESET vector is plain memory, pc is the word it holds. -/
theorem State.resetSequence_pc_of_peek {lo hi : Byte} (hlo : s.bus.peek 0xFFFC = some lo)
    (hhi : s.bus.peek 0xFFFD = some hi) : s.resetSequence.pc = mkWord hi lo := by
  have hread := State.atResetVector_readOnly s
  rw [State.resetSequence_pc]
  exact State.loadVector_pc_of_peek ((hread.peek resetVector).trans hlo) ((hread.peek (resetVector + 1)).trans hhi)

/-! The registers and latches after the reset sequence: S, I and the two latches change, and the IRQ line stays. -/

@[simp] theorem State.resetSequence_a : s.resetSequence.a = s.a := by rw [State.resetSequence_eq]
@[simp] theorem State.resetSequence_x : s.resetSequence.x = s.x := by rw [State.resetSequence_eq]
@[simp] theorem State.resetSequence_y : s.resetSequence.y = s.y := by rw [State.resetSequence_eq]
@[simp] theorem State.resetSequence_sp : s.resetSequence.sp = s.sp - 3 := by
  rw [State.resetSequence_eq, byte_sub_one_sub_one_sub_one]
@[simp] theorem State.resetSequence_p : s.resetSequence.p = { s.p with i := true } := by rw [State.resetSequence_eq]
@[simp] theorem State.resetSequence_halted : s.resetSequence.halted = s.halted := by rw [State.resetSequence_eq]
@[simp] theorem State.resetSequence_irqLine : s.resetSequence.irqLine = s.irqLine := by rw [State.resetSequence_eq]
@[simp] theorem State.resetSequence_cyclesTotal : s.resetSequence.cyclesTotal = s.cyclesTotal := by
  rw [State.resetSequence_eq]
@[simp] theorem State.resetSequence_nmiPending : s.resetSequence.nmiPending = false := rfl
@[simp] theorem State.resetSequence_resetPending : s.resetSequence.resetPending = false := rfl

/-! The end of a step leaves the latches, the IRQ line and the registers of the platform (R26, R46). -/

@[simp] theorem State.finish_nmiPending : s.finish.nmiPending = s.nmiPending := by rw [State.finish_eq]
@[simp] theorem State.finish_irqLine : s.finish.irqLine = s.irqLine := by rw [State.finish_eq]
@[simp] theorem State.finish_resetPending : s.finish.resetPending = s.resetPending := by rw [State.finish_eq]

theorem State.finish_cyclesTotal : s.finish.cyclesTotal = s.cyclesTotal + s.finish.stepCycles := rfl

theorem State.finish_mem : s.finish.bus.mem = s.bus.mem := (State.oamCopies_readOnly s.bus.oamPages s).mem

theorem State.finish_mapperWrites : s.finish.bus.mapperWrites = s.bus.mapperWrites :=
  (State.oamCopies_readOnly s.bus.oamPages s).mapperWrites

theorem State.finish_strobe : s.finish.bus.strobe = s.bus.strobe := (State.oamCopies_readOnly s.bus.oamPages s).strobe
end

/-! ### The step that takes a reset -/

/-- In a core that is not halted, a pending reset is taken whatever else is pending (R144, R167). -/
theorem step_of_reset {s : State} (hhalted : s.halted = none) (hreset : s.boundary.resetPending = true) :
    step s = .next s.boundary.resetSequence.finish := by
  have haction : s.boundary.action = .reset := by rw [State.action_of_running hhalted, if_pos hreset]
  rw [step, haction]

/-- Settles O9: R144 chooses the reset, and the reset sequence reads seven times and stores nothing. -/
theorem resetSequenceIsSevenReads : Obligations.ResetSequenceIsSevenReads := by
  intro s hhalted hreset
  have hread := State.resetSequence_readOnly s.boundary
  obtain ⟨hcycles, haccesses, hpeek⟩ := State.finish_of_boundary_readOnly hread
  rw [State.resetSequence_cycle, State.boundary_cycle] at hcycles
  refine ⟨_, step_of_reset hhalted hreset, ?accesses, hcycles, ?total, by simp, by simp, by simp, ?halted, by simp,
    by simp, by simp, by simp, by simp, ?strobe, ?mapper, fun lo hi hlo hhi => ?pc, hpeek⟩
  case accesses =>
    rw [haccesses, State.resetSequence_accesses, State.boundary_accesses, State.boundary_pc, State.boundary_sp]
  case total =>
    rw [State.finish_cyclesTotal, hcycles, State.resetSequence_cyclesTotal, State.boundary_cyclesTotal]
  case halted => simpa using hhalted
  case strobe => rw [State.finish_strobe, hread.strobe, State.boundary_strobe]
  case mapper => rw [State.finish_mapperWrites, hread.mapperWrites, State.boundary_mapperWrites]
  case pc =>
    rw [← State.boundary_peek] at hlo hhi
    rw [State.finish_pc, State.resetSequence_pc_of_peek _ hlo hhi]

/-! ### Power-on (R165) -/

/-- A reset that is pending stays so at the boundary (R29). -/
theorem State.boundary_resetPending {s : State} (h : s.resetPending = true) : s.boundary.resetPending = true := by
  cases hs : s.inputs with
  | nil => rw [State.boundary_nil hs, h]
  | cons e rest => simp [State.boundary_cons hs, State.applyInput, h]

/-- Before any mapper write the cartridge answers from its image (R44). -/
theorem State.powerOn_peek (d : PowerOn) {addr : Word} (h : region addr = .cartridge) :
    (State.powerOn d).bus.peek addr = some (d.mem.lookup addr.toNat) := by
  simp [State.powerOn, Bus.initial, Bus.peek, Bus.readPRG, h, memKey_cartridge h]

/-- Settles O10: the power-on state has a reset pending, so O9 tells its step; the reset sequence stores nothing. -/
theorem powerOnRunsTheResetSequence : Obligations.PowerOnRunsTheResetSequence := by
  intro d
  have hreset : (State.powerOn d).boundary.resetPending = true := State.boundary_resetPending rfl
  obtain ⟨t, hstep, haccesses, _, htotal, hnoReset, hnoNmi, _, hhalted, hsp, hp, ha, hx, hy, _, _, hpc, _⟩ :=
    resetSequenceIsSevenReads (State.powerOn d) rfl hreset
  have hmem : t.bus.mem = d.mem := by
    cases (step_of_reset rfl hreset).symm.trans hstep
    rw [State.finish_mem, (State.resetSequence_readOnly _).mem, State.boundary_mem]
    rfl
  refine ⟨t, hstep, ha, hx, hy, hp, hsp, hpc _ _ (State.powerOn_peek d (by decide)) (State.powerOn_peek d (by decide)),
    htotal, hnoNmi, hnoReset, hhalted, hmem, ?_⟩
  obtain ⟨hfirst, hsecond, hthird⟩ :
      stackAddr 0x00 = 0x0100 ∧ stackAddr (0x00 - 1) = 0x01FF ∧ stackAddr (0x00 - 2) = 0x01FE := by decide
  rw [← hfirst, ← hsecond, ← hthird]
  exact haccesses

end Sys2Proof.Machine

namespace Sys2Proof

open Machine

/-! ### The accesses an instruction makes in any case

The counts of R71 to R77 and of the instruction rules, without the accesses of a page crossing (R75) or of a taken
branch (R113). -/

/-- The reads that find the address of a memory operand. -/
def MemMode.resolveReads : MemMode → Nat
  | .zp _ | .abs _ | .absx _ | .absy _ => 0
  | .zpx _ | .zpy _ => 1
  | .izy _ => 2
  | .izx _ => 3

/-- The reads of the write and read-modify-write columns before the effective address is accessed. -/
def MemMode.targetReads (m : MemMode) : Nat := m.resolveReads + (addsIndex m).toNat

/-- The reads of a read-class operand that crosses no page. -/
def ReadMode.plainReads : ReadMode → Nat
  | .imm _ => 0
  | .mem m => m.resolveReads + 1

/-- The accesses of a shift or rotate: the dummy read of R69, or the read-modify-write column. -/
def RmwMode.accesses : RmwMode → Nat
  | .acc => 1
  | .mem m => m.targetReads + 3

/-- The accesses an instruction makes after its fetched bytes when it crosses no page and takes no branch. -/
def Instr.plainAccesses : Instr → Nat
  | .lda m | .ldx m | .ldy m | .adc m | .sbc m | .and m | .ora m | .eor m | .cmp m | .cpx m | .cpy m | .bit m =>
    m.plainReads
  | .sta m | .stx m | .sty m => m.targetReads + 1
  | .inc m | .dec m => m.targetReads + 3
  | .asl m | .lsr m | .rol m | .ror m => m.accesses
  | .bpl _ | .bmi _ | .bvc _ | .bvs _ | .bcc _ | .bcs _ | .bne _ | .beq _ | .jmp (.abs _) | .illegal _ => 0
  | .jmp (.ind _) | .pha | .php => 2
  | .pla | .plp => 3
  | .jsr _ => 4
  | .rts | .rti => 5
  | .brk => 6
  | .tax | .tay | .txa | .tya | .tsx | .txs | .inx | .iny | .dex | .dey
  | .clc | .sec | .cli | .sei | .cld | .sed | .clv | .nop => 1

/-! ### The cycle table (R61) -/

theorem baseCycles_undocumented : ∀ op ∈ undocumentedOpcodes, baseCycles op = 1 := by decide

/-- R61, R175: the table's count for an instruction's opcode is the number of its fetched bytes and of the accesses it
makes in any case. (A form that the table does not have has no bytes.) -/
theorem baseCycles_of_encode {i : Instr} (hi : i.wf = true) {op : Byte} {operands : List Byte}
    (he : encode i = op :: operands) : baseCycles op = fetchedLength i + i.plainAccesses := by
  cases i with
  | lda m | ldx m | ldy m | adc m | sbc m | and m | ora m | eor m | cmp m | cpx m | cpy m | bit m =>
    cases m with
    | imm => cases he <;> rfl
    | mem m => cases m <;> cases he <;> rfl
  | sta m | stx m | sty m | inc m | dec m => cases m <;> cases he <;> rfl
  | asl m | lsr m | rol m | ror m =>
    cases m with
    | acc => cases he; rfl
    | mem m => cases m <;> cases he <;> rfl
  | jmp m => cases m <;> cases he <;> rfl
  | illegal o =>
    cases he
    exact baseCycles_undocumented op (by simpa [Instr.wf] using hi)
  | _ => cases he; rfl

end Sys2Proof

namespace Sys2Proof.Machine

/-! ### The accesses of an operand, counted -/

section
variable (s : State)

theorem resolveSequence_length (m : MemMode) : (resolveSequence s m).length = m.resolveReads := by
  cases m <;> rfl

theorem targetSequence_length (m : MemMode) : (targetSequence s m).length = m.targetReads := by
  cases m <;> rfl

/-- R75: an operand crosses a page when its index carries out of the low byte of its base. -/
theorem pageCycle_mem (m : MemMode) : (ReadMode.mem m).pageCycle s = if (s.resolve m).1.crossed then 1 else 0 := by
  cases m with
  | zp | zpx | zpy | abs | izx => rfl
  | absx | absy => simp only [ReadMode.pageCycle, State.resolve, EffAddr.indexed, decide_eq_true_eq]
  | izy p =>
    simp only [ReadMode.pageCycle, State.resolve, EffAddr.indexed, decide_eq_true_eq, State.readZpPointer_fst,
      Bus.zpPointer, loByte_mkWord]

theorem operandSequence_length (m : ReadMode) :
    (operandSequence s m).length = m.plainReads + m.pageCycle s := by
  cases m with
  | imm v => rfl
  | mem m =>
    rw [operandSequence, readSequence_eq, pageCycle_mem, List.length_append, resolveSequence_length,
      ReadMode.plainReads]
    cases (s.resolve m).1.crossed <;> rfl

theorem State.readOperand_cycle (m : ReadMode) :
    (s.readOperand m).2.bus.cycle = s.bus.cycle + (m.plainReads + m.pageCycle s) := by
  rw [(State.readOperand_accessed s m).cycle, operandSequence_length]

theorem State.storeOperand_cycle (m : MemMode) (v : Byte) :
    (s.storeOperand m v).bus.cycle = s.bus.cycle + (m.targetReads + 1) := by
  rw [(State.storeOperand_accessed s m v).cycle, writeSequence, List.length_append, targetSequence_length]
  rfl

theorem State.modifyMem_cycle (m : MemMode) (f : Byte → Byte) :
    (s.modifyMem m f).2.bus.cycle = s.bus.cycle + (m.targetReads + 3) := by
  rw [(State.modifyMem_accessed s m f).cycle, modifySequence, List.length_append, targetSequence_length]
  rfl

theorem State.modifyOperand_cycle (m : RmwMode) (f : Byte → Byte) :
    (s.modifyOperand m f).2.bus.cycle = s.bus.cycle + m.accesses := by
  cases m with
  | acc => exact State.dummyRead_cycle s s.pc
  | mem m => exact State.modifyMem_cycle s m f

/-- R113: the dummy reads of a branch are its extra cycles. -/
theorem State.branch_cycle (taken : Bool) (off : Byte) :
    (s.branch taken off).bus.cycle = s.bus.cycle + branchCycles taken s.pc off := by
  cases taken with
  | false => rfl
  | true =>
    simp only [State.branch, branchCycles, if_true, ← hiByte_eq_iff]
    split <;> simp

theorem State.enterHandler_cycle (b : Bool) (vec : Word) :
    (s.enterHandler b vec).bus.cycle = s.bus.cycle + 5 := by
  simp [State.enterHandler]

theorem State.pullWord_cycle : s.pullWord.2.bus.cycle = s.bus.cycle + 2 := by
  simp [State.pullWord]

theorem State.pushWord_cycle (w : Word) : (s.pushWord w).bus.cycle = s.bus.cycle + 2 := by
  simp [State.pushWord]

theorem State.returnFromInterrupt_cycle : s.returnFromInterrupt.bus.cycle = s.bus.cycle + 4 := by
  rw [State.returnFromInterrupt_eq_pullWord, State.setPc_bus, State.setP_bus, State.pullWord_cycle, State.pull_cycle,
    State.dummyStack_cycle]
end

/-- Every instruction counts the accesses it makes in any case, and those of a page crossing or a taken branch. -/
theorem exec_cycle {i : Instr} {s t : State} (h : exec i s = .next t) :
    t.bus.cycle = s.bus.cycle + (i.plainAccesses + i.extraCycles s) := by
  cases i
  case lda m | ldx m | ldy m | adc m | sbc m | and m | ora m | eor m | cmp m | cpx m | cpy m | bit m =>
    cases h; exact State.readOperand_cycle s m
  case sta m | stx m | sty m => cases h; exact State.storeOperand_cycle s m _
  case inc m => cases h; exact State.modifyMem_cycle s m (· + 1)
  case dec m => cases h; exact State.modifyMem_cycle s m (· - 1)
  case asl m | lsr m | rol m | ror m => cases h; exact State.modifyOperand_cycle s m _
  case bpl | bmi | bvc | bvs | bcc | bcs | bne | beq =>
    cases h
    rw [Instr.plainAccesses, Nat.zero_add]
    exact State.branch_cycle s _ _
  case jmp m =>
    cases m with
    | abs => cases h; rfl
    | ind p => cases h; simp [State.readPointer, Instr.plainAccesses, Instr.extraCycles]
  case jsr =>
    rw [exec, execJsr_eq_pushWord] at h
    cases h
    rw [State.setPc_bus, State.fetch_cycle, State.pushWord_cycle, State.dummyStack_cycle]
    rfl
  case rts =>
    rw [exec, execRts_eq_pullWord] at h
    cases h
    rw [State.setPc_bus, State.dummyRead_cycle, State.pullWord_cycle, State.dummyStack_cycle, State.implied_cycle]
    rfl
  case rti =>
    cases h
    rw [State.returnFromInterrupt_cycle, State.implied_cycle]
    rfl
  case brk =>
    cases h
    rw [State.enterHandler_cycle, State.setPc_bus, State.implied_cycle]
    rfl
  case pha | php => cases h; rw [State.push_cycle, State.implied_cycle]; rfl
  case pla =>
    cases h
    rw [State.setP_bus, State.setA_bus, State.pull_cycle, State.dummyStack_cycle, State.implied_cycle]
    rfl
  case plp =>
    cases h
    rw [State.setP_bus, State.pull_cycle, State.dummyStack_cycle, State.implied_cycle]
    rfl
  case illegal => cases h; rfl
  all_goals cases h; exact State.implied_cycle s

/-! ### The step of an instruction, counted (R175) -/

/-- What is fetched before an instruction executes: its opcode first, one cycle for each byte. -/
theorem State.fetchInstr_of_decode {s : State} {i : Instr} {rest : List Byte}
    (h : decode s.fetchInstr.1 = some (i, rest)) :
    i.wf = true ∧ (∃ operands, encode i = s.fetch.1 :: operands) ∧
      s.fetchInstr.2.bus.cycle = s.bus.cycle + fetchedLength i := by
  obtain ⟨j, hj⟩ := fetchInstr_decodes s
  cases hj.symm.trans h
  obtain ⟨hwf, henc⟩ := encode_of_decode h
  rw [List.append_nil] at henc
  refine ⟨hwf, ⟨_, henc⟩, ?_⟩
  rw [State.fetchInstr_snd_eq_fetchBytes, State.fetchBytes_cycle, fetchedLength_eq hwf henc]

/-- A step that nothing interrupts executes the instruction that its fetch decodes to. -/
theorem step_of_decode {s : State} {i : Instr} {rest : List Byte} (hun : s.Uninterrupted)
    (h : decode s.boundary.fetchInstr.1 = some (i, rest)) :
    step s = finishResult (exec i s.boundary.fetchInstr.2) := by
  rw [step, (State.action_eq_instruction_iff s).2 hun]
  simp only [runInstruction, h]

/-- The end of a step counts the step's own accesses and 513 or 514 cycles for each write to 0x4014 among them: the
copies that these writes start make no further one (R46). -/
theorem exists_stall_of_acted {s u : State} (h : Acted s.boundary u) :
    ∃ new stall, u.finish.bus.accesses = s.bus.accesses ++ new ∧ u.finish.stepCycles = u.bus.cycle + stall ∧
      513 * new.count (.write, 0x4014) ≤ stall ∧ stall ≤ 514 * new.count (.write, 0x4014) := by
  obtain ⟨new, hacc, _, hcount⟩ := (h.grows.trans (State.oamCopies_grows u.bus.oamPages u)).accesses
  rw [(State.oamCopies_readOnly u.bus.oamPages u).oamPages, State.boundary_oamPages, List.length_nil,
    Nat.zero_add] at hcount
  rw [State.boundary_accesses] at hacc
  refine ⟨new, (State.oamCopies u.bus.oamPages u).1, hacc, rfl, ?_⟩
  rw [← hcount]
  exact State.oamCopies_stall u.bus.oamPages u

/-- Settles O28: the fetched bytes and the accesses an instruction makes in any case are the table's count of its
opcode; what its execution counts beyond them is a page crossing or a taken branch, and the rest is the stall. -/
theorem instructionStepsTakeTheTableCycles : Obligations.InstructionStepsTakeTheTableCycles := by
  intro s i rest hun hdecode
  obtain ⟨u, hexec⟩ := exists_next_of_exec i s.boundary.fetchInstr.2
  have hstep := step_of_decode hun hdecode
  rw [hexec, finishResult] at hstep
  obtain ⟨hwf, ⟨operands, henc⟩, hfetched⟩ := State.fetchInstr_of_decode hdecode
  rw [State.boundary_cycle, Nat.zero_add] at hfetched
  obtain ⟨new, stall, haccesses, hcycles, hstall⟩ := exists_stall_of_acted (.instruction i hexec)
  refine ⟨_, new, stall, hstep, haccesses, ?_, hstall⟩
  rw [hcycles, exec_cycle hexec, hfetched, baseCycles_of_encode hwf henc, ← Nat.add_assoc]

end Sys2Proof.Machine
